-- ==== Sys2Proof/Word.lean ====
section
/-! DEFINITION. The word types of the block (00_scope R14): unsigned bytes and 16-bit words. There is no signed quantity. -/

namespace Sys2Proof

/-- `u8` of 00_scope R14. -/
abbrev Byte := BitVec 8

/-- `u16` of 00_scope R14: offsets, window words, colors, panel dimensions. -/
abbrev Word := BitVec 16

end Sys2Proof
end

