-- ==== Sys2Proof/Config.lean ====
section
/-! DEFINITION. What an instance of the block is built with (00_scope R7, R9): the types of the implementation parameters, the answers of the environment (R13), and the free values, opaque constants of which nothing can be proved. -/

namespace Sys2Proof

/-- The strap `COLOR_ORDER` (10_state R26, decision D14). -/
inductive ColorOrder where
  | rgb | bgr
deriving DecidableEq, Repr

/-- An electrical level of an output line (00_scope R9, 10_state R33). -/
inductive Level where
  | low | high
deriving DecidableEq, Repr

/-- `OPC_*` of 00_scope R9: the seven command codes the fixed logic issues. -/
structure OpCodes where
  caset : Byte
  raset : Byte
  ramwr : Byte
  madctl : Byte
  colmod : Byte
  slpout : Byte
  dispon : Byte
deriving DecidableEq, Repr

/-- `READ_CODES` of 00_scope R9, by the mnemonics of 30_encoding R92. -/
structure ReadCodes where
  rddid : Byte
  rddst : Byte
  ramrd : Byte
  rdid1 : Byte
  rdid2 : Byte
  rdid3 : Byte
  rdid4 : Byte
deriving DecidableEq, Repr

/-- `ORIENT_BITS` of 00_scope R9: one pattern per orientation. -/
structure OrientBits where
  o0 : Byte
  o1 : Byte
  o2 : Byte
  o3 : Byte
deriving DecidableEq, Repr

/-- One entry of `INIT_TABLE` (43_init R173): a command code and its parameter bytes. -/
structure InitEntry where
  code : Byte
  params : List Byte
deriving DecidableEq, Repr

/-- `INIT_TABLE` in the shape 43_init R173 (a) and (b) force on it: any entries, then pixel-format set, sleep-out and
display-on, whose codes are `OPC_*` and of which only the parameter bytes are open. -/
structure InitTable where
  lead : List InitEntry
  colmodParams : List Byte
  slpoutParams : List Byte
  disponParams : List Byte
deriving DecidableEq, Repr

/-- The parameters of 00_scope R9 that are not straps, fixed for the life of the instance. -/
structure Params where
  codes : OpCodes
  reads : ReadCodes
  orient : OrientBits
  init : InitTable
  selCmdLevel : Level
  ceActLevel : Level
  emptyFinalFlush : Bool
deriving DecidableEq, Repr

/-- The environment's answer to an event (00_scope R11, R13). -/
inductive Answer where
  | ok | fail
deriving DecidableEq, Repr, Inhabited

/-- What the environment will do with the next line drive or bus write: answer it, or never answer (60_exceptions R212). -/
inductive Reply where
  | answered (a : Answer)
  | silent
deriving DecidableEq, Repr, Inhabited

/-- FREE VALUE: what the environment does with an event for which the state lists no reply, by the number of replies it
has given so far (00_scope R13, decision D43: a free draw per event, log 4). -/
opaque Config.freeReply : Nat → Reply

/-- FREE VALUE: entries of `INIT_TABLE` before its last three; D0 prints none (43_init R173, log 8). -/
opaque Config.initLead : List InitEntry

/-- FREE VALUE: parameter bytes of the pixel-format set entry (log 8). -/
opaque Config.colmodParams : List Byte

/-- FREE VALUE: parameter bytes of the sleep-out entry (log 8). -/
opaque Config.slpoutParams : List Byte

/-- FREE VALUE: parameter bytes of the display-on entry (log 8). -/
opaque Config.disponParams : List Byte

/-- FREE VALUE: what a byte of frame memory of which nothing is known reads as, by the number of times something became
"any value" and by address (20_memory R72 to R76, log 14). -/
opaque Config.freeByte : Nat → Nat → Byte

/-- FREE VALUE: what a window register of the controller holds when nothing is known of it, by the same count and by
register (20_memory R68, R74, log 14). -/
opaque Config.freeWord : Nat → Nat → Word

end Sys2Proof
end

