-- ==== Sys2Proof/Machine/Defaults.lean ====
section
/-! DEFINITION. The constants of the block that D0 fixes, and the parameter values the instance at reset is built with (00_scope R9's defaults; log 7, log 8). -/

namespace Sys2Proof.Machine

/-- `BUF_CAP`, bytes of the staging buffer (00_scope R9, 10_state R30). -/
def bufCap : Nat := 32

/-- `CHUNK`, bytes of a chunk (00_scope R9, 30_encoding R99). -/
def chunkSize : Nat := 32

/-- `T_RESET`, milliseconds (00_scope R9, 43_init R170). -/
def tReset : Byte := 10

/-- `T_INIT`, milliseconds (00_scope R9, 43_init R174). -/
def tInit : Byte := 200

/-- `BGR_BIT` (00_scope R9, 30_encoding R96). -/
def bgrBit : Byte := 0x08

/-- `SHOW_LAST`, the last column and row of `show` (00_scope R9, 42_streaming R160). -/
def showLast : Word := 239

/-- The seven read codes as a list (30_encoding R92). -/
def readCodeList (r : ReadCodes) : List Byte := [r.rddid, r.rddst, r.ramrd, r.rdid1, r.rdid2, r.rdid3, r.rdid4]

/-- The seven issued codes as a list (30_encoding R90). -/
def opCodeList (c : OpCodes) : List Byte := [c.caset, c.raset, c.ramwr, c.madctl, c.colmod, c.slpout, c.dispon]

/-- The defaults of `OPC_*` (30_encoding R90, from general knowledge: log 7). -/
def defaultCodes : OpCodes :=
  { caset := 0x2A, raset := 0x2B, ramwr := 0x2C, madctl := 0x36, colmod := 0x3A, slpout := 0x11, dispon := 0x29 }

/-- The default of `READ_CODES` (00_scope R9, from general knowledge: log 7). -/
def defaultReads : ReadCodes :=
  { rddid := 0x04, rddst := 0x09, ramrd := 0x2E, rdid1 := 0xDA, rdid2 := 0xDB, rdid3 := 0xDC, rdid4 := 0xDD }

/-- The defaults of `ORIENT_BITS` (00_scope R9, from general knowledge: log 7). -/
def defaultOrient : OrientBits := { o0 := 0x00, o1 := 0x60, o2 := 0xC0, o3 := 0xA0 }

/-- The initialization table of the instance at reset: free entries, of which 43_init R173 (c) drops those that carry a
read code (log 8). -/
def freeInitTable (r : ReadCodes) : InitTable :=
  { lead := Config.initLead.filter fun e => !(readCodeList r).contains e.code
    colmodParams := Config.colmodParams
    slpoutParams := Config.slpoutParams
    disponParams := Config.disponParams }

/-- The parameters of the instance at reset (00_scope R9; log 7, log 8). -/
def defaultParams : Params :=
  { codes := defaultCodes
    reads := defaultReads
    orient := defaultOrient
    init := freeInitTable defaultReads
    selCmdLevel := .low
    ceActLevel := .low
    emptyFinalFlush := false }

/-- `INIT_TABLE` as the list of 43_init R173: the free entries, then pixel-format set, sleep-out, display-on. -/
def initEntries (p : Params) : List InitEntry :=
  p.init.lead ++
    [{ code := p.codes.colmod, params := p.init.colmodParams },
     { code := p.codes.slpout, params := p.init.slpoutParams },
     { code := p.codes.dispon, params := p.init.disponParams }]

/-- The code is one of the fourteen that 30_encoding R90 and R92 name. -/
def isNamedCode (p : Params) (b : Byte) : Bool := (opCodeList p.codes).contains b || (readCodeList p.reads).contains b

end Sys2Proof.Machine
end

