-- ==== Sys2Proof/Syntax.lean ====
section
/-! DEFINITION. The operations of the block and the command codes it puts on the wire, as syntax (30_encoding R81, R90, R92), and the raw form in which a request is presented (R80). -/

namespace Sys2Proof

/-- The four orientations of 30_encoding R82 (decision D13 names them). -/
inductive Orientation where
  | o0 | o1 | o2 | o3
deriving DecidableEq, Repr

/-- One constructor per row of spec/opcode_table.json: the 18 requests of R81 in the order of their selectors, then the
seven command codes of R90 (format CMD), then the seven inert read codes of R92 (format CMD-INERT). -/
inductive Instr where
  | writeCommand (opcode : Byte) (params : List Byte)
  | beginData
  | writeData (bytes : List Byte)
  | writeWord (w : Word)
  | writeWordsBuffered (ws : List Word)
  | setOffset (dx dy : Word)
  | setAddressWindow (sx sy ex ey : Word)
  | setOrientation (o : Orientation)
  | hardReset
  | init
  | setPixel (x y color : Word)
  | writePixels (colors : List Word)
  | writePixelsBuffered (colors : List Word)
  | setPixels (sx sy ex ey : Word) (colors : List Word)
  | setPixelsBuffered (sx sy ex ey : Word) (colors : List Word)
  | drawImage (bytes : List Byte)
  | showFrame (buffer : List Byte)
  | showRegion (buffer : List Byte) (x y w h : Word)
  | caset (start stop : Word)
  | raset (start stop : Word)
  | ramwr
  | madctl (value : Byte)
  | colmod (params : List Byte)
  | slpout (params : List Byte)
  | dispon (params : List Byte)
  | rddid
  | rddst
  | ramrd
  | rdid1
  | rdid2
  | rdid3
  | rdid4
deriving DecidableEq, Repr

/-- What is presented to the block before it is decoded. The block has two encodings (30_encoding, opening): a request
on `REQ`, an 8-bit selector with its operands as separate fields beside it (R80), and a command code with its parameter
bytes (R84, R90). Each operand field is the run of its own bytes (assumption log 1). -/
inductive RawRequest where
  | request (sel : Byte) (fields : List (List Byte))
  | command (code : Byte) (params : List Byte)
deriving DecidableEq, Repr

/-- Why a raw request is no operation (30_encoding R83). -/
inductive DecodeError where
  /-- The selector is one of 0x12 to 0xFF, which name no operation. -/
  | unknownSelector (sel : Byte)
  /-- The command code is none of the fourteen the opcode table names. -/
  | unknownCommand (code : Byte)
  /-- An operand field is missing, left over, or outside its type. -/
  | badOperands (code : Byte)
deriving DecidableEq, Repr

end Sys2Proof
end

