-- ==== Sys2Proof/Machine/State.lean ====
section
/-! DEFINITION. The state of the machine, plain data, holding every piece of state the spec gives it (10_state R20 to R44, 20_memory R68 to R76), the reasons a step can stop, and the state after reset. -/

namespace Sys2Proof.Machine

/-- The select line's two levels, kept abstract (10_state R33). -/
inductive SelLevel where
  | cmd | dat
deriving DecidableEq, Repr

/-- The chip-enable line's two states, kept abstract (10_state R33). -/
inductive CeLevel where
  | act | inact
deriving DecidableEq, Repr

/-- The reset line's two levels, electrical (10_state R33, decision D40). -/
inductive RstLevel where
  | lo | hi
deriving DecidableEq, Repr

/-- A cell that holds a value or is `unknown` (10_state R32; of the controller's registers R44 says "unspecified"). -/
inductive Latch (α : Type) where
  | unknown
  | held (v : α)
deriving DecidableEq, Repr

/-- The line latches of 10_state R32. -/
structure Lines where
  sel : Latch SelLevel
  ce : Latch CeLevel
  rst : Latch RstLevel
deriving DecidableEq, Repr

/-- The events of 00_scope R12. -/
inductive Event where
  | sel (l : SelLevel)
  | ce (l : CeLevel)
  | rst (l : RstLevel)
  | bus (bytes : List Byte)
  | dly (ms : Byte)
deriving DecidableEq, Repr

/-- The response on `RSP` (00_scope R11, 10_state R25). -/
inductive Response where
  | ok | transactionFailure
deriving DecidableEq, Repr

/-- The ghost `ctrl` of 10_state R40. -/
inductive Ctrl where
  | unknown | reset | initialized
deriving DecidableEq, Repr

/-- The sequencer position of 10_state R24: idle, or which operation runs (its selector) and how many events of its step
list are done. -/
inductive Sequencer where
  | idle
  | running (sel : Byte) (pos : Nat)
deriving DecidableEq, Repr

/-- First and last column (or row) of a window, both inside it (20_memory R69). -/
structure Span where
  first : Word
  last : Word
deriving DecidableEq, Repr

/-- A window in controller coordinates, inclusive on both ends (20_memory R60, R69). -/
structure Window where
  cols : Span
  rows : Span
deriving DecidableEq, Repr

/-- The command the controller is receiving (20_memory R69 to R71): not known, if there is any (10_state R44: the write
position is unspecified); one whose data bytes change nothing here (log 21); a window command or a memory-access-control
command with its parameter bytes so far; or a memory write: at a position of its window with the high byte of a pixel or
without, with its window full, or with its position not known. -/
inductive SinkCmd where
  | unknown
  | idle
  | colParams (bytes : List Byte)
  | rowParams (bytes : List Byte)
  | accessParams (bytes : List Byte)
  | writing (win : Window) (c r : Word) (half : Option Byte)
  | full
  | lost
deriving DecidableEq, Repr

/-- The controller's frame memory (20_memory R50, R70): the bytes of which something is known, by rising address. The
pixel at column `c`, row `r` has its high byte at `2*(r*65536 + c)` and its low byte after it (log 15). -/
abbrev Memory := List Host.Cell

/-- The controller as the block relies on it: the reference sink of 20_memory R68 to R76. `draws` is the model's own: how
many times something here became "any value", or something that is any value may have changed (log 14). -/
structure Sink where
  col : Latch Span
  row : Latch Span
  access : Latch Byte
  cmd : SinkCmd
  mem : Memory
  draws : Nat
deriving DecidableEq, Repr

/-- Why the machine stops. -/
inductive Fault where
  /-- Raised by a line drive or bus write that the environment never answers: the operation never responds (60_exceptions
  R212, U10). Safe: the hardware does not go on either. -/
  | unanswered
deriving DecidableEq, Repr

/-- Why a request has no meaning. -/
inductive Refusal where
  /-- Raised by an arm of `exec` that has no meaning yet. Safe. -/
  | notModelled (mnemonic : String)
  /-- Raised by `step` when the next raw request is none of the operations (30_encoding R83). Safe. -/
  | badRequest (e : DecodeError)
  /-- Raised by `step` when a request is made while another runs (60_exceptions U11 of 93, 70_reset R238). Safe. -/
  | busy
  /-- Raised by every operation that sets a window, when a coordinate plus offset is above 65535 (41_window R133). Safe. -/
  | offsetOverflow
  /-- Raised by `show_region` when the region has no column or no row, or a last one above 65535 (42_streaming R162). Safe. -/
  | regionShape
  /-- Raised by `show_region` when a row's bytes do not lie inside the buffer (20_memory R56, 42_streaming R162). Safe. -/
  | regionOutsideBuffer
  /-- Raised by every operation on an instance whose `WIDTH` or `HEIGHT` is 0 (00_scope R7, 60_exceptions R193, log 23).
  Safe. -/
  | zeroDimension
deriving DecidableEq, Repr

/-- The state of the block (10_state R44), of its ports, and of the controller behind it. `replies` is what the environment
will do with the next events and `asks` is the model's own: how many replies it has given (log 4). -/
structure State where
  offsetX : Word
  offsetY : Word
  colorOrder : ColorOrder
  width : Word
  height : Word
  params : Params
  lines : Lines
  stage : Vector Byte 32
  fill : Nat
  seq : Sequencer
  ctrl : Ctrl
  trace : List (Event × Answer)
  rsp : Option Response
  sink : Sink
  replies : List Reply
  asks : Nat
  reqs : List RawRequest
deriving DecidableEq, Repr

/-- The lines before the first drive (10_state R32, decision D30). -/
def Lines.start : Lines := { sel := .unknown, ce := .unknown, rst := .unknown }

/-- The controller of which nothing is known, nor which command it is receiving, nor where it would write (10_state R44,
last row; log 22). -/
def Sink.start : Sink := { col := .unknown, row := .unknown, access := .unknown, cmd := .unknown, mem := [], draws := 0 }

/-- The state right after construction with these straps and parameters (10_state R44, 70_reset R220): no event. -/
def State.construct (p : Params) (co : ColorOrder) (w h : Word) : State :=
  { offsetX := 0
    offsetY := 0
    colorOrder := co
    width := w
    height := h
    params := p
    lines := Lines.start
    stage := Vector.replicate 32 0
    fill := 0
    seq := .idle
    ctrl := .unknown
    trace := []
    rsp := none
    sink := Sink.start
    replies := []
    asks := 0
    reqs := [] }

/-- The machine right after its reset, which is construction (70_reset R220): the straps of D0's scenario, 240 by 240,
RGB (log 6), and the parameters of log 7 and log 8. -/
def State.reset : State := State.construct defaultParams .rgb 240 240

end Sys2Proof.Machine
end

