-- ==== Sys2Proof/Machine/Flags.lean ====
section
/-! DEFINITION. The block has no flags; the only status is the response on RSP (10_state R25). This file holds how it is given. -/

namespace Sys2Proof.Machine

/-- The response appears on `RSP` and the sequencer returns to idle (10_state R24, R25). -/
def State.respond (s : State) (r : Response) : State := { s with rsp := some r, seq := .idle }

end Sys2Proof.Machine
end

