-- ==== Sys2Proof/Machine/Bits.lean ====
section
/-! DEFINITION. Bit slices and byte order (00_scope R14, 20_memory R52, 30_encoding R94): 16-bit words travel high byte first. -/

namespace Sys2Proof.Machine

/-- `hi8(w) = w[15:8]` (00_scope R14). -/
def hi8 (w : Word) : Byte := w.extractLsb' 8 8

/-- `lo8(w) = w[7:0]` (00_scope R14). -/
def lo8 (w : Word) : Byte := w.extractLsb' 0 8

/-- `be16(w) = [hi8(w), lo8(w)]` (00_scope R14, 30_encoding R94). -/
def be16 (w : Word) : List Byte := [hi8 w, lo8 w]

/-- The word a byte pair stands for, high byte first: `a*256 + b` of 20_memory R69. -/
def word16 (h l : Byte) : Word := h ++ l

end Sys2Proof.Machine
end

