-- ==== Sys2Proof/Machine/Frame.lean ====
section
/-! DEFINITION. The named operations over the controller's frame memory (20_memory R50, R60, R70): reading and writing a byte and a pixel, forgetting, and the canonical form. -/

namespace Sys2Proof.Machine

/-- The byte address of a pixel's high byte (log 15). -/
def pixelAddr (c r : Word) : Nat := 2 * (r.toNat * 65536 + c.toNat)

/-- How many byte addresses the frame memory has: 2^16 columns by 2^16 rows by 2. -/
def frameBytes : Nat := 2 * (65536 * 65536)

/-- What is known of the byte at an address: `none` where nothing is, and it holds any value (20_memory R72). -/
def Memory.read : Memory → Nat → Option Byte
  | [], _ => none
  | (k, v) :: m, a => if k = a then some v else Memory.read m a

/-- The memory after the byte `b` is written at `a`, in canonical form. -/
def Memory.write : Memory → Nat → Byte → Memory
  | [], a, b => [(a, b)]
  | (k, v) :: m, a, b =>
    if a < k then (a, b) :: (k, v) :: m
    else if a = k then (a, b) :: m
    else (k, v) :: Memory.write m a b

/-- The memory after a pixel is written, high byte first (20_memory R70). -/
def Memory.writePixel (m : Memory) (c r : Word) (h l : Byte) : Memory :=
  Memory.write (Memory.write m (pixelAddr c r) h) (pixelAddr c r + 1) l

/-- What is known of the pixel at a column and row. -/
def Memory.pixel (m : Memory) (c r : Word) : Option Word :=
  match Memory.read m (pixelAddr c r), Memory.read m (pixelAddr c r + 1) with
  | some h, some l => some (word16 h l)
  | _, _ => none

/-- The pixel with a byte at this address lies in the window. -/
def inWindow (win : Window) (a : Nat) : Bool :=
  decide (win.cols.first.toNat ≤ a / 2 % 65536) && decide (a / 2 % 65536 ≤ win.cols.last.toNat) &&
    decide (win.rows.first.toNat ≤ a / 2 / 65536) && decide (a / 2 / 65536 ≤ win.rows.last.toNat)

/-- The memory after the pixels of a window hold any value (20_memory R72). -/
def Memory.forget (m : Memory) (win : Window) : Memory := m.filter fun c => !inWindow win c.1

/-- The canonical form: addresses strictly rising and inside the frame memory. -/
def Memory.wf (m : Memory) : Bool :=
  decide (m.Pairwise fun a b => a.1 < b.1) && m.all fun c => decide (c.1 < frameBytes)

end Sys2Proof.Machine
end

