-- ==== Sys2Proof/Machine/Sink.lean ====
section
/-! DEFINITION. The reference sink: what D0 says of the controller and no more (20_memory R68 to R76). Whatever D0 leaves open becomes "any value": a latch `unknown`, bytes of the frame memory unlisted; what they read as is a free value of Config. -/

namespace Sys2Proof.Machine

/-- Nothing is known of the controller any more, nor which command it is receiving (10_state R40, R44, 60_exceptions R198,
log 22). -/
def Sink.forgetAll (k : Sink) : Sink :=
  { col := .unknown, row := .unknown, access := .unknown, cmd := .unknown, mem := [], draws := k.draws + 1 }

/-- The whole frame memory holds any value (20_memory R73, R74, R76). -/
def Sink.forgetFrame (k : Sink) : Sink := { k with mem := [], draws := k.draws + 1 }

/-- The pixels of a window hold any value (20_memory R72). -/
def Sink.forgetWindow (k : Sink) (win : Window) : Sink := { k with mem := k.mem.forget win, draws := k.draws + 1 }

/-- One pixel holds any value (20_memory R75). -/
def Sink.forgetPixel (k : Sink) (c r : Word) : Sink :=
  k.forgetWindow { cols := { first := c, last := c }, rows := { first := r, last := r } }

/-- The column registers become this; a new value is drawn where they are any value (20_memory R69, R74, log 14). -/
def Sink.setCol (k : Sink) (l : Latch Span) : Sink := { k with col := l, draws := k.draws + 1 }

/-- The row registers become this (20_memory R69, R74, log 14). -/
def Sink.setRow (k : Sink) (l : Latch Span) : Sink := { k with row := l, draws := k.draws + 1 }

/-- The memory-access-control register becomes this (10_state R29, log 14). -/
def Sink.setAccess (k : Sink) (l : Latch Byte) : Sink := { k with access := l, draws := k.draws + 1 }

/-- The latched window, where columns and rows are both known (20_memory R69). -/
def Sink.window (k : Sink) : Option Window :=
  match k.col, k.row with
  | .held c, .held r => some { cols := c, rows := r }
  | _, _ => none

/-- What four parameter bytes latch (20_memory R69); for an inverted span R74 leaves it open, and for another number of
bytes no rule says (logs 18, 19). -/
def spanOf : List Byte → Latch Span
  | [a, b, c, d] =>
    if (word16 a b).toNat ≤ (word16 c d).toNat then .held { first := word16 a b, last := word16 c d } else .unknown
  | _ => .unknown

/-- What one parameter byte of memory-access-control latches (10_state R29); for another number no rule says. -/
def accessOf : List Byte → Latch Byte
  | [b] => .held b
  | _ => .unknown

/-- A memory-write command: the write position is the window's first column and row (20_memory R70); the window's
pixels hold any value until the stream reaches them (R72, log 16); with no known window, so does all of the memory
(R74, 42_streaming R153). -/
def Sink.startWrite (k : Sink) : Sink :=
  match k.window with
  | some win => { k.forgetWindow win with cmd := .writing win win.cols.first win.rows.first none }
  | none => { k.forgetFrame with cmd := .lost }

/-- A byte received with `SEL = CMD` is a command code and ends the command before it (30_encoding R88, 20_memory R71).
Codes of R90 and R92 other than the four of R29 leave window and frame memory as they are; a code the spec does not
name may be the enumeration's "reset" (R91), so nothing is known after it (log 21). -/
def Sink.commandByte (p : Params) (k : Sink) (b : Byte) : Sink :=
  if b = p.codes.caset then { k.setCol .unknown with cmd := .colParams [] }
  else if b = p.codes.raset then { k.setRow .unknown with cmd := .rowParams [] }
  else if b = p.codes.ramwr then k.startWrite
  else if b = p.codes.madctl then { k.forgetFrame.setAccess .unknown with cmd := .accessParams [] }
  else if isNamedCode p b then { k with cmd := .idle }
  else k.forgetAll

/-- Where the memory write stands after the pixel at `(c, r)`: the next column; after the last, the first column of the
next row; after the window's last pixel, nowhere (20_memory R70). -/
def nextPosition (win : Window) (c r : Word) : SinkCmd :=
  if c = win.cols.last then
    if r = win.rows.last then .full else .writing win win.cols.first (r + 1) none
  else .writing win (c + 1) r none

/-- A byte received with `SEL = DAT` belongs to the most recent command: a parameter byte (20_memory R69), or a byte of
a pixel (R70), which holds any value until its second byte has come (R75). A byte more than the window holds, and every
byte after it, makes the whole memory any value (R73, log 17), and a byte of a command that is not known may have changed
anything (log 22). -/
def Sink.dataByte (k : Sink) (b : Byte) : Sink :=
  match k.cmd with
  | .unknown => k.forgetAll
  | .idle => k
  | .colParams bs => { k.setCol (spanOf (bs ++ [b])) with cmd := .colParams (bs ++ [b]) }
  | .rowParams bs => { k.setRow (spanOf (bs ++ [b])) with cmd := .rowParams (bs ++ [b]) }
  | .accessParams bs => { k.setAccess (accessOf (bs ++ [b])) with cmd := .accessParams (bs ++ [b]) }
  | .writing win c r none => { k.forgetPixel c r with cmd := .writing win c r (some b) }
  | .writing win c r (some h) => { k with mem := k.mem.writePixel c r h b, cmd := nextPosition win c r }
  | .full => { k.forgetFrame with cmd := .lost }
  | .lost => k.forgetFrame

/-- A byte run the environment took, with the lines as they stood: the rules hold only for bytes that arrive with
`CE = ACT` (20_memory R68). -/
def Sink.receive (p : Params) (l : Lines) (bs : List Byte) (k : Sink) : Sink :=
  match l.ce, l.sel with
  | .held .act, .held .cmd => bs.foldl (Sink.commandByte p) k
  | .held .act, .held .dat => bs.foldl Sink.dataByte k
  | _, _ => k.forgetAll

/-- A byte run the environment took, whatever `ctrl` is: no rule says what the controller does on a byte while `ctrl` is
not Initialized, so each leaves nothing known of it (20_memory R68, 70_reset R224, log 22). -/
def Sink.take (c : Ctrl) (p : Params) (l : Lines) (bs : List Byte) (k : Sink) : Sink :=
  match c with
  | .initialized => k.receive p l bs
  | .reset => bs.foldl (fun k _ => k.forgetAll) k
  | .unknown => bs.foldl (fun k _ => k.forgetAll) k

/-- The byte of frame memory at an address: what is known of it, else a free value (20_memory R72). -/
def Sink.frameByte (k : Sink) (a : Nat) : Byte := (k.mem.read a).getD (Config.freeByte k.draws a)

/-- A window register of the controller: what is known of it, else a free value (20_memory R69, R74). -/
def spanRegister (l : Latch Span) (draws index : Nat) : Span :=
  match l with
  | .held sp => sp
  | .unknown => { first := Config.freeWord draws index, last := Config.freeWord draws (index + 1) }

/-- The controller's column registers. -/
def Sink.colRegister (k : Sink) : Span := spanRegister k.col k.draws 0

/-- The controller's row registers. -/
def Sink.rowRegister (k : Sink) : Span := spanRegister k.row k.draws 2

/-- The controller's memory-access-control register (10_state R29): what is known of it, else a free value. -/
def Sink.accessRegister (k : Sink) : Byte :=
  match k.access with
  | .held b => b
  | .unknown => lo8 (Config.freeWord k.draws 4)

end Sys2Proof.Machine
end

