-- ==== Sys2Proof/Machine/Wire.lean ====
section
/-! DEFINITION. The wire formats as event lists (30_encoding R84 to R87) and the two levels of observation of a trace (00_scope R12). The premise under which an operation responds at all is that every event is answered (60_exceptions R212). -/

namespace Sys2Proof.Machine

/-- The command transaction of 30_encoding R84. -/
def commandTransaction (code : Byte) (params : List Byte) : List Event :=
  [.ce .act, .sel .cmd, .bus [code]] ++ (if params = [] then [] else [.sel .dat, .bus params]) ++ [.ce .inact]

/-- The data transaction of 30_encoding R85. -/
def dataTransaction (bytes : List Byte) : List Event := [.ce .act, .sel .dat, .bus bytes, .ce .inact]

/-- The bare select switch of 30_encoding R86. -/
def selectSwitch : List Event := [.sel .dat]

/-- The reset pulse of 30_encoding R87. -/
def resetPulse : List Event := [.rst .hi, .dly tReset, .rst .lo, .dly tReset, .rst .hi, .dly tReset]

/-- A byte on the wire with the levels `SEL` and `CE` held when it was sent (00_scope R12, level 2). -/
structure WireByte where
  byte : Byte
  sel : Latch SelLevel
  ce : Latch CeLevel
deriving DecidableEq, Repr

/-- The lines after one event with its answer (00_scope R15, `Drive`). -/
def Lines.after (l : Lines) : Event × Answer → Lines
  | (.sel v, .ok) => { l with sel := .held v }
  | (.sel _, .fail) => { l with sel := .unknown }
  | (.ce v, .ok) => { l with ce := .held v }
  | (.ce _, .fail) => { l with ce := .unknown }
  | (.rst v, .ok) => { l with rst := .held v }
  | (.rst _, .fail) => { l with rst := .unknown }
  | (.bus _, _) => l
  | (.dly _, _) => l

/-- The lines after a stretch of a trace. -/
def Lines.replay (l : Lines) (es : List (Event × Answer)) : Lines := es.foldl Lines.after l

/-- The wire view (level 2) of a stretch of a trace that begins with the lines `l` (00_scope R12): for every bus write
answered ok its bytes in order, each with the levels held. -/
def wireView : Lines → List (Event × Answer) → List WireByte
  | _, [] => []
  | l, (.bus bs, .ok) :: es => bs.map (fun b => { byte := b, sel := l.sel, ce := l.ce }) ++ wireView l es
  | l, e :: es => wireView (l.after e) es

/-- The bytes of a run all tagged (`DAT`, `ACT`). -/
def dataOnWire (bs : List Byte) : List WireByte := bs.map fun b => { byte := b, sel := .held .dat, ce := .held .act }

/-- A command code tagged (`CMD`, `ACT`). -/
def codeOnWire (b : Byte) : List WireByte := [{ byte := b, sel := .held .cmd, ce := .held .act }]

/-- Events all answered `ok`. -/
def allOk (es : List Event) : List (Event × Answer) := es.map fun e => (e, .ok)

/-- How many of these events ask the environment for an answer: every one but a delay (00_scope R11, R13). -/
def asked (es : List Event) : Nat := (es.filter fun e => match e with | .dly _ => false | _ => true).length

/-- The electrical level that drives the select line (00_scope R9, 10_state R33); no rule depends on it. -/
def selPin (p : Params) : SelLevel → Level
  | .cmd => p.selCmdLevel
  | .dat => match p.selCmdLevel with | .low => .high | .high => .low

/-- The electrical level that drives the chip-enable line (00_scope R9, 10_state R33); no rule depends on it. -/
def cePin (p : Params) : CeLevel → Level
  | .act => p.ceActLevel
  | .inact => match p.ceActLevel with | .low => .high | .high => .low

/-- The electrical level that drives the reset line (decision D40). -/
def rstPin : RstLevel → Level
  | .lo => .low
  | .hi => .high

end Sys2Proof.Machine
end

