-- ==== Sys2Proof/Machine/Ops.lean ====
section
/-! DEFINITION. The primitives every operation is made of (00_scope R15): Drive, BusWrite, Delay, taking a TransactionFailure, and running an operation from its first step to its response. -/

namespace Sys2Proof.Machine

/-- How a stretch of steps ends: done, stopped by a transaction failure that has been taken, or never (00_scope R15,
60_exceptions R196, R212). -/
inductive Run where
  | done (s : State)
  | failed (s : State)
  | hung
deriving DecidableEq, Repr

/-- The steps of `f` after those of `r`; a failure or a hang ends both (00_scope R16, 60_exceptions R196 (b)). -/
def Run.andThen (r : Run) (f : State → Run) : Run :=
  match r with
  | .done s => f s
  | .failed s => .failed s
  | .hung => .hung

/-- The steps of `f` for each element in order, each after all of the one before it (20_memory R67). -/
def forEach {α : Type} (f : α → State → Run) : List α → State → Run
  | [], s => .done s
  | x :: xs, s => (f x s).andThen (forEach f xs)

/-- The environment's next reply; with none listed it is a free value (00_scope R13, decision D43, log 4). -/
def State.nextReply (s : State) : Reply := s.replies.headD (Config.freeReply s.asks)

/-- The reply is used up. -/
def State.popReply (s : State) : State := { s with replies := s.replies.tail, asks := s.asks + 1 }

/-- The sequencer after one more event of the running operation (10_state R24). -/
def Sequencer.advance : Sequencer → Sequencer
  | .idle => .idle
  | .running sel pos => .running sel (pos + 1)

/-- An event with its answer is appended to the trace (00_scope R15, decision D26) and the position advances. -/
def State.record (s : State) (e : Event) (a : Answer) : State :=
  { s with trace := s.trace ++ [(e, a)], seq := s.seq.advance }

/-- The select latch (10_state R32). -/
def State.setSel (s : State) (l : Latch SelLevel) : State := { s with lines := { s.lines with sel := l } }

/-- The chip-enable latch (10_state R32). -/
def State.setCe (s : State) (l : Latch CeLevel) : State := { s with lines := { s.lines with ce := l } }

/-- The reset latch (10_state R32). -/
def State.setRst (s : State) (l : Latch RstLevel) : State := { s with lines := { s.lines with rst := l } }

/-- The controller's state. -/
def State.setSink (s : State) (k : Sink) : State := { s with sink := k }

/-- The ghost `ctrl` (10_state R40); whenever it changes nothing is known of the controller (20_memory R68, log 22). -/
def State.setCtrl (s : State) (c : Ctrl) : State := { s with ctrl := c, sink := s.sink.forgetAll }

/-- TAKING THE ONE EXCEPTION, `TransactionFailure` (60_exceptions R196, R197): `ctrl` becomes Unknown, nothing is saved,
no mode changes; the registers, the straps and the other latches stay. The response is given where the operation ends
(`finish`). There is no return from it: the block is idle and takes any request (R199). -/
def State.raise (s : State) : State := s.setCtrl .unknown

/-- The offset registers (10_state R21). -/
def State.setOffsets (s : State) (dx dy : Word) : State := { s with offsetX := dx, offsetY := dy }

/-- `fill <- 0` (40_transaction R118). -/
def State.clearFill (s : State) : State := { s with fill := 0 }

/-- One word is appended to the staging buffer, high byte first (40_transaction R118, 30_encoding R100). -/
def State.stageWord (s : State) (w : Word) : State :=
  { s with stage := (s.stage.setIfInBounds s.fill (hi8 w)).setIfInBounds (s.fill + 1) (lo8 w), fill := s.fill + 2 }

/-- `stage[0 .. fill)` (40_transaction R118). -/
def State.staged (s : State) : List Byte := s.stage.toList.take s.fill

/-- The controller receives a byte run (00_scope R15, 20_memory R68). -/
def State.deliver (s : State) (bs : List Byte) : State := s.setSink (s.sink.take s.ctrl s.params s.lines bs)

/-- One event that asks for an answer: emit it, take the answer, append both to the trace; on `ok` the effect, on `fail`
the state the failure leaves and the exception (00_scope R15, decision D26). -/
def perform (e : Event) (onOk onFail : State → State) (s : State) : Run :=
  match s.nextReply with
  | .answered .ok => .done (onOk (s.popReply.record e .ok))
  | .answered .fail => .failed (onFail (s.popReply.record e .fail)).raise
  | .silent => .hung

/-- `Drive(SEL, l)` (00_scope R15). -/
def driveSel (l : SelLevel) : State → Run := perform (.sel l) (·.setSel (.held l)) (·.setSel .unknown)

/-- `Drive(CE, l)` (00_scope R15). -/
def driveCe (l : CeLevel) : State → Run := perform (.ce l) (·.setCe (.held l)) (·.setCe .unknown)

/-- `Drive(RST, l)` (00_scope R15). -/
def driveRst (l : RstLevel) : State → Run := perform (.rst l) (·.setRst (.held l)) (·.setRst .unknown)

/-- `BusWrite(bs)` (00_scope R15). -/
def busWrite (bs : List Byte) : State → Run := perform (.bus bs) (·.deliver bs) id

/-- `Delay(k)` (00_scope R15): it cannot fail. -/
def delay (ms : Byte) (s : State) : Run := .done (s.record (.dly ms) .ok)

/-- An operation starts at the first step of its list (10_state R24). -/
def State.start (s : State) (sel : Byte) : State := { s with seq := .running sel 0 }

/-- How a run of an operation ends for the host (10_state R24, 60_exceptions R196 (c), R212). -/
def finish : Run → Host.Outcome State Fault Refusal
  | .done s => .next (s.respond .ok)
  | .failed s => .next (s.respond .transactionFailure)
  | .hung => .fault .unanswered

/-- A request to an instance whose `WIDTH` or `HEIGHT` is 0 is refused, whichever it is; every other gets the outcome `o`
(00_scope R7, 60_exceptions R193, log 23). -/
def onPanel (s : State) (o : Host.Outcome State Fault Refusal) : Host.Outcome State Fault Refusal :=
  if s.width = 0 ∨ s.height = 0 then .refused .zeroDimension else o

/-- An operation from its first step to its response. -/
def runOp (sel : Byte) (body : State → Run) (s : State) : Host.Outcome State Fault Refusal :=
  onPanel s (finish (body (s.start sel)))

end Sys2Proof.Machine
end

