-- ==== Sys2Proof/Machine/Operands.lean ====
section
/-! DEFINITION. How operands become bytes (30_encoding R94 to R99): window words with the offset, the orientation byte, show's literals, buffer reads, chunks and row ranges. -/

namespace Sys2Proof.Machine

/-- A coordinate plus an offset, refused where the true sum needs a seventeenth bit (41_window R133). -/
def addOffset (v off : Word) : Option Word := if v.toNat + off.toNat ≤ 65535 then some (v + off) else none

/-- The window in controller coordinates (41_window R132); `none` where any of the four sums overflows (R133). -/
def windowOf (s : State) (sx sy ex ey : Word) : Option Window :=
  match addOffset sx s.offsetX, addOffset ex s.offsetX, addOffset sy s.offsetY, addOffset ey s.offsetY with
  | some cx0, some cx1, some cy0, some cy1 =>
    some { cols := { first := cx0, last := cx1 }, rows := { first := cy0, last := cy1 } }
  | _, _, _, _ => none

/-- The parameter bytes of a window command (30_encoding R95). -/
def spanBytes (sp : Span) : List Byte := be16 sp.first ++ be16 sp.last

/-- `ORIENT_BITS(o)` (30_encoding R96). -/
def orientBits (p : Params) : Orientation → Byte
  | .o0 => p.orient.o0
  | .o1 => p.orient.o1
  | .o2 => p.orient.o2
  | .o3 => p.orient.o3

/-- `madctl(o)`: the pattern, with `BGR_BIT` if and only if the panel is BGR (30_encoding R96, 41_window R136). -/
def madctlByte (s : State) (o : Orientation) : Byte :=
  match s.colorOrder with
  | .rgb => orientBits s.params o
  | .bgr => orientBits s.params o ||| bgrBit

/-- `show`'s literal parameter bytes `[0x00, 0x00, 0x00, 0xEF]` (30_encoding R97). -/
def showBytes : List Byte := be16 0 ++ be16 showLast

/-- `MemRead(buf, i, n)`: refused where the run does not lie inside the buffer (00_scope R15, 20_memory R56). -/
def memRead (buf : List Byte) (i n : Nat) : Option (List Byte) :=
  if i + n ≤ buf.length then some ((buf.drop i).take n) else none

/-- `chunks(bs)`: runs of 32 bytes, the last with what remains, none empty (30_encoding R99). -/
def chunks (bs : List Byte) : List (List Byte) :=
  (List.range ((bs.length + (chunkSize - 1)) / chunkSize)).map fun k => (bs.drop (chunkSize * k)).take chunkSize

/-- The first byte of a region's row `r` in the buffer, in natural numbers (30_encoding R98). -/
def rowStart (width x y : Word) (r : Nat) : Nat := ((y.toNat + r) * width.toNat + x.toNat) * 2

/-- The rows of a region, in order; `none` where one does not lie inside the buffer (42_streaming R162). -/
def regionRows (width : Word) (buf : List Byte) (x y w h : Word) : Option (List (List Byte)) :=
  (List.range h.toNat).mapM fun r => memRead buf (rowStart width x y r) (2 * w.toNat)

/-- The first two `require` lines of 42_streaming R162: a region has a column and a row, and its last column and row
are 16-bit words. -/
def regionShapeOk (x y w h : Word) : Bool :=
  decide (1 ≤ w.toNat) && decide (1 ≤ h.toNat) && decide (x.toNat + w.toNat - 1 ≤ 65535) &&
    decide (y.toNat + h.toNat - 1 ≤ 65535)

end Sys2Proof.Machine
end

