-- ==== Sys2Proof/Machine/Transaction.lean ====
section
/-! DEFINITION. The Transaction Primitive (40_transaction): write_command, begin_data, write_data, write_word, write_words_buffered. -/

namespace Sys2Proof.Machine

/-- The steps of `write_command` (40_transaction R110). -/
def writeCommand (opcode : Byte) (params : List Byte) (s : State) : Run :=
  ((((driveCe .act s).andThen (driveSel .cmd)).andThen (busWrite [opcode])).andThen fun s =>
    if 0 < params.length then (driveSel .dat s).andThen (busWrite params) else .done s).andThen (driveCe .inact)

/-- The step of `begin_data` (40_transaction R112). -/
def beginData (s : State) : Run := driveSel .dat s

/-- The steps of `write_data` (40_transaction R114): one bus event, whatever the length. -/
def writeData (bytes : List Byte) (s : State) : Run :=
  (((driveCe .act s).andThen (driveSel .dat)).andThen (busWrite bytes)).andThen (driveCe .inact)

/-- The steps of `write_word` (40_transaction R116). -/
def writeWord (w : Word) (s : State) : Run := writeData (be16 w) s

/-- The loop of `write_words_buffered` (40_transaction R118): stage a word; when the buffer is full, flush it before the
next word is drawn. -/
def stageLoop : List Word → State → Run
  | [], s => .done s
  | w :: ws, s =>
    if (s.stageWord w).fill = bufCap then
      (writeData (s.stageWord w).staged (s.stageWord w)).andThen fun t => stageLoop ws t.clearFill
    else stageLoop ws (s.stageWord w)

/-- The steps of `write_words_buffered` (40_transaction R118, R119). What the buffer and `fill` hold afterwards is
unspecified (10_state R30); DESIGN CHOICE (log 9): they keep what the last flush, or the failure, left there. -/
def writeWordsBuffered (ws : List Word) (s : State) : Run :=
  (stageLoop ws s.clearFill).andThen fun t =>
    if 0 < t.fill ∨ t.params.emptyFinalFlush = true then writeData t.staged t else .done t

/-- `write_command(opcode, params)`, selector 0x00 (40_transaction R110, R111). -/
def execWriteCommand (opcode : Byte) (params : List Byte) (s : State) : Host.Outcome State Fault Refusal :=
  runOp 0x00 (writeCommand opcode params) s

/-- `begin_data()`, selector 0x01 (40_transaction R112). -/
def execBeginData (s : State) : Host.Outcome State Fault Refusal := runOp 0x01 beginData s

/-- `write_data(bytes)`, selector 0x02 (40_transaction R114). -/
def execWriteData (bytes : List Byte) (s : State) : Host.Outcome State Fault Refusal := runOp 0x02 (writeData bytes) s

/-- `write_word(w)`, selector 0x03 (40_transaction R116). -/
def execWriteWord (w : Word) (s : State) : Host.Outcome State Fault Refusal := runOp 0x03 (writeWord w) s

/-- `write_words_buffered(ws)`, selector 0x04 (40_transaction R118). -/
def execWriteWordsBuffered (ws : List Word) (s : State) : Host.Outcome State Fault Refusal :=
  runOp 0x04 (writeWordsBuffered ws) s

end Sys2Proof.Machine
end

