-- ==== Sys2Proof/Machine/Commands.lean ====
section
/-! DEFINITION. The command-code rows of the opcode table (30_encoding R90, R92): each is the command transaction of R84 that carries the code, made as a host makes it by requesting write_command with that code (R93); what the controller does on it is the sink's (20_memory R68 to R76). Logs 11 and 12. -/

namespace Sys2Proof.Machine

/-- CASET, D0's "column-address-set" (30_encoding R90): the controller latches columns start to stop (20_memory R69). -/
def execCaset (start stop : Word) (s : State) : Host.Outcome State Fault Refusal :=
  runOp 0x00 (writeCommand s.params.codes.caset (be16 start ++ be16 stop)) s

/-- RASET, D0's "row-address-set" (30_encoding R90): the controller latches rows start to stop (20_memory R69). -/
def execRaset (start stop : Word) (s : State) : Host.Outcome State Fault Refusal :=
  runOp 0x00 (writeCommand s.params.codes.raset (be16 start ++ be16 stop)) s

/-- RAMWR, D0's "memory-write" (30_encoding R90): the controller's write position goes to the window's first pixel (20_memory R70). -/
def execRamwr (s : State) : Host.Outcome State Fault Refusal :=
  runOp 0x00 (writeCommand s.params.codes.ramwr []) s

/-- MADCTL, D0's "memory-access-control" (30_encoding R90): the controller takes the value (20_memory R76). -/
def execMadctl (value : Byte) (s : State) : Host.Outcome State Fault Refusal :=
  runOp 0x00 (writeCommand s.params.codes.madctl [value]) s

/-- COLMOD, D0's "pixel-format set" (30_encoding R90): no field of it is settled (10_state R29). -/
def execColmod (params : List Byte) (s : State) : Host.Outcome State Fault Refusal :=
  runOp 0x00 (writeCommand s.params.codes.colmod params) s

/-- SLPOUT, D0's "sleep-out" (30_encoding R90): no field of it is settled (10_state R29). -/
def execSlpout (params : List Byte) (s : State) : Host.Outcome State Fault Refusal :=
  runOp 0x00 (writeCommand s.params.codes.slpout params) s

/-- DISPON, D0's "display-on" (30_encoding R90): no field of it is settled (10_state R29). -/
def execDispon (params : List Byte) (s : State) : Host.Outcome State Fault Refusal :=
  runOp 0x00 (writeCommand s.params.codes.dispon params) s

/-- RDDID (30_encoding R92): no rule issues it; a host that passes it to `write_command` has it framed like any byte (R93). -/
def execRddid (s : State) : Host.Outcome State Fault Refusal := runOp 0x00 (writeCommand s.params.reads.rddid []) s

/-- RDDST (30_encoding R92): no rule issues it; a host that passes it to `write_command` has it framed like any byte (R93). -/
def execRddst (s : State) : Host.Outcome State Fault Refusal := runOp 0x00 (writeCommand s.params.reads.rddst []) s

/-- RAMRD (30_encoding R92): no rule issues it; a host that passes it to `write_command` has it framed like any byte (R93). -/
def execRamrd (s : State) : Host.Outcome State Fault Refusal := runOp 0x00 (writeCommand s.params.reads.ramrd []) s

/-- RDID1 (30_encoding R92): no rule issues it; a host that passes it to `write_command` has it framed like any byte (R93). -/
def execRdid1 (s : State) : Host.Outcome State Fault Refusal := runOp 0x00 (writeCommand s.params.reads.rdid1 []) s

/-- RDID2 (30_encoding R92): no rule issues it; a host that passes it to `write_command` has it framed like any byte (R93). -/
def execRdid2 (s : State) : Host.Outcome State Fault Refusal := runOp 0x00 (writeCommand s.params.reads.rdid2 []) s

/-- RDID3 (30_encoding R92): no rule issues it; a host that passes it to `write_command` has it framed like any byte (R93). -/
def execRdid3 (s : State) : Host.Outcome State Fault Refusal := runOp 0x00 (writeCommand s.params.reads.rdid3 []) s

/-- RDID4 (30_encoding R92): no rule issues it; a host that passes it to `write_command` has it framed like any byte (R93). -/
def execRdid4 (s : State) : Host.Outcome State Fault Refusal := runOp 0x00 (writeCommand s.params.reads.rdid4 []) s

end Sys2Proof.Machine
end

