-- ==== Sys2Proof/Machine/Reset.lean ====
section
/-! DEFINITION. Controller reset and register initialization (43_init): hard_reset, init. -/

namespace Sys2Proof.Machine

/-- The steps of `hard_reset` (43_init R170): the pulse, then the ghost `ctrl` becomes Reset. -/
def hardReset (s : State) : Run :=
  ((((((driveRst .hi s).andThen (delay tReset)).andThen (driveRst .lo)).andThen (delay tReset)).andThen
    (driveRst .hi)).andThen (delay tReset)).andThen fun t => .done (t.setCtrl .reset)

/-- One entry of `INIT_TABLE`, sent by one `write_command` (43_init R173 (e)). -/
def sendEntry (e : InitEntry) (s : State) : Run := writeCommand e.code e.params s

/-- The steps of `init` (43_init R174): `hard_reset` first, the table in order, the last wait, then `ctrl` becomes
Initialized. -/
def initSteps (s : State) : Run :=
  (((hardReset s).andThen fun t => forEach sendEntry (initEntries t.params) t).andThen (delay tInit)).andThen fun t =>
    .done (t.setCtrl .initialized)

/-- `hard_reset()`, selector 0x08 (43_init R170, R171). -/
def execHardReset (s : State) : Host.Outcome State Fault Refusal := runOp 0x08 hardReset s

/-- `init()`, selector 0x09 (43_init R174 to R176). -/
def execInit (s : State) : Host.Outcome State Fault Refusal := runOp 0x09 initSteps s

end Sys2Proof.Machine
end

