-- ==== Sys2Proof/Machine/Window.lean ====
section
/-! DEFINITION. The Coordinate & Window Engine (41_window): set_offset, set_address_window, set_orientation. -/

namespace Sys2Proof.Machine

/-- The two commands of `set_address_window`, columns before rows (41_window R132). -/
def sendWindow (win : Window) (s : State) : Run :=
  (writeCommand s.params.codes.caset (spanBytes win.cols) s).andThen fun t =>
    writeCommand t.params.codes.raset (spanBytes win.rows) t

/-- An operation that sets a window first: refused before any event where a sum overflows (41_window R133), then the
window commands, then the steps of `body`. -/
def runInWindow (sel : Byte) (sx sy ex ey : Word) (body : State → Run) (s : State) :
    Host.Outcome State Fault Refusal :=
  match windowOf s sx sy ex ey with
  | some win => runOp sel (fun t => (sendWindow win t).andThen body) s
  | none => onPanel s (.refused .offsetOverflow)

/-- `set_offset(dx, dy)`, selector 0x05 (41_window R130): no event, it cannot fail. -/
def execSetOffset (dx dy : Word) (s : State) : Host.Outcome State Fault Refusal :=
  runOp 0x05 (fun t => .done (t.setOffsets dx dy)) s

/-- `set_address_window(sx, sy, ex, ey)`, selector 0x06 (41_window R132 to R134). -/
def execSetAddressWindow (sx sy ex ey : Word) (s : State) : Host.Outcome State Fault Refusal :=
  runInWindow 0x06 sx sy ex ey .done s

/-- The steps of `set_orientation` (41_window R136). -/
def setOrientation (o : Orientation) (s : State) : Run := writeCommand s.params.codes.madctl [madctlByte s o] s

/-- `set_orientation(o)`, selector 0x07 (41_window R136, R137): the block stores nothing. -/
def execSetOrientation (o : Orientation) (s : State) : Host.Outcome State Fault Refusal :=
  runOp 0x07 (setOrientation o) s

end Sys2Proof.Machine
end

