-- ==== Sys2Proof/Machine/Streaming.lean ====
section
/-! DEFINITION. Pixel and buffer streaming (42_streaming): set_pixel, write_pixels, write_pixels_buffered, set_pixels, set_pixels_buffered, draw_image, show, show_region. -/

namespace Sys2Proof.Machine

/-- "memory-write": `write_command(OPC_RAMWR, [])` (42_streaming, opening). -/
def memoryWrite (s : State) : Run := writeCommand s.params.codes.ramwr [] s

/-- The steps of `write_pixels` (42_streaming R152). -/
def writePixels (colors : List Word) (s : State) : Run := (memoryWrite s).andThen (forEach writeWord colors)

/-- The steps of `write_pixels_buffered` (42_streaming R154). -/
def writePixelsBuffered (colors : List Word) (s : State) : Run := (memoryWrite s).andThen (writeWordsBuffered colors)

/-- One row of a region, in chunks that restart at each row (42_streaming R162). -/
def sendRow (row : List Byte) (s : State) : Run := forEach writeData (chunks row) s

/-- `set_pixel(x, y, color)`, selector 0x0A (42_streaming R150). -/
def execSetPixel (x y color : Word) (s : State) : Host.Outcome State Fault Refusal :=
  runInWindow 0x0A x y x y (fun t => (memoryWrite t).andThen (writeWord color)) s

/-- `write_pixels(colors)`, selector 0x0B (42_streaming R152, R153). -/
def execWritePixels (colors : List Word) (s : State) : Host.Outcome State Fault Refusal :=
  runOp 0x0B (writePixels colors) s

/-- `write_pixels_buffered(colors)`, selector 0x0C (42_streaming R154, R155). -/
def execWritePixelsBuffered (colors : List Word) (s : State) : Host.Outcome State Fault Refusal :=
  runOp 0x0C (writePixelsBuffered colors) s

/-- `set_pixels(sx, sy, ex, ey, colors)`, selector 0x0D (42_streaming R156). -/
def execSetPixels (sx sy ex ey : Word) (colors : List Word) (s : State) : Host.Outcome State Fault Refusal :=
  runInWindow 0x0D sx sy ex ey (writePixels colors) s

/-- `set_pixels_buffered(sx, sy, ex, ey, colors)`, selector 0x0E (42_streaming R157). -/
def execSetPixelsBuffered (sx sy ex ey : Word) (colors : List Word) (s : State) :
    Host.Outcome State Fault Refusal :=
  runInWindow 0x0E sx sy ex ey (writePixelsBuffered colors) s

/-- `draw_image(bytes)`, selector 0x0F (42_streaming R158, R159): the window (0, 0, WIDTH-1, HEIGHT-1), the offset
added. -/
def execDrawImage (bytes : List Byte) (s : State) : Host.Outcome State Fault Refusal :=
  runInWindow 0x0F 0 0 (s.width - 1) (s.height - 1)
    (fun t => (memoryWrite t).andThen (forEach writeData (chunks bytes))) s

/-- The steps of `show` (42_streaming R160): literal windows, no offset, the whole buffer in one bus event. -/
def showSteps (buffer : List Byte) (s : State) : Run :=
  (((writeCommand s.params.codes.caset showBytes s).andThen fun t =>
    writeCommand t.params.codes.raset showBytes t).andThen memoryWrite).andThen (writeData buffer)

/-- `show(buffer)`, selector 0x10 (42_streaming R160, R161). -/
def execShowFrame (buffer : List Byte) (s : State) : Host.Outcome State Fault Refusal := runOp 0x10 (showSteps buffer) s

/-- `show_region(buffer, x, y, w, h)`, selector 0x11 (42_streaming R162, R163): every `require` line is checked before
any event (log 23 names the order); then the window, one memory write, and the rows. -/
def execShowRegion (buffer : List Byte) (x y w h : Word) (s : State) : Host.Outcome State Fault Refusal :=
  onPanel s <|
    if regionShapeOk x y w h = false then .refused .regionShape
    else
      match regionRows s.width buffer x y w h with
      | none => .refused .regionOutsideBuffer
      | some rows =>
        runInWindow 0x11 x y (x + w - 1) (y + h - 1) (fun t => (memoryWrite t).andThen (forEach sendRow rows)) s

end Sys2Proof.Machine
end

