-- ==== Sys2Proof/Machine/Dispatch.lean ====
section
/-! DEFINITION. exec: one arm per constructor of Instr, each one direct call of that instruction's meaning. -/

namespace Sys2Proof.Machine

def exec (i : Instr) (s : State) : Host.Outcome State Fault Refusal :=
  match i with
  | .writeCommand opcode params => Sys2Proof.Machine.execWriteCommand opcode params s
  | .beginData => Sys2Proof.Machine.execBeginData s
  | .writeData bytes => Sys2Proof.Machine.execWriteData bytes s
  | .writeWord w => Sys2Proof.Machine.execWriteWord w s
  | .writeWordsBuffered ws => Sys2Proof.Machine.execWriteWordsBuffered ws s
  | .setOffset dx dy => Sys2Proof.Machine.execSetOffset dx dy s
  | .setAddressWindow sx sy ex ey => Sys2Proof.Machine.execSetAddressWindow sx sy ex ey s
  | .setOrientation o => Sys2Proof.Machine.execSetOrientation o s
  | .hardReset => Sys2Proof.Machine.execHardReset s
  | .init => Sys2Proof.Machine.execInit s
  | .setPixel x y color => Sys2Proof.Machine.execSetPixel x y color s
  | .writePixels colors => Sys2Proof.Machine.execWritePixels colors s
  | .writePixelsBuffered colors => Sys2Proof.Machine.execWritePixelsBuffered colors s
  | .setPixels sx sy ex ey colors => Sys2Proof.Machine.execSetPixels sx sy ex ey colors s
  | .setPixelsBuffered sx sy ex ey colors => Sys2Proof.Machine.execSetPixelsBuffered sx sy ex ey colors s
  | .drawImage bytes => Sys2Proof.Machine.execDrawImage bytes s
  | .showFrame buffer => Sys2Proof.Machine.execShowFrame buffer s
  | .showRegion buffer x y w h => Sys2Proof.Machine.execShowRegion buffer x y w h s
  | .caset start stop => Sys2Proof.Machine.execCaset start stop s
  | .raset start stop => Sys2Proof.Machine.execRaset start stop s
  | .ramwr => Sys2Proof.Machine.execRamwr s
  | .madctl value => Sys2Proof.Machine.execMadctl value s
  | .colmod params => Sys2Proof.Machine.execColmod params s
  | .slpout params => Sys2Proof.Machine.execSlpout params s
  | .dispon params => Sys2Proof.Machine.execDispon params s
  | .rddid => Sys2Proof.Machine.execRddid s
  | .rddst => Sys2Proof.Machine.execRddst s
  | .ramrd => Sys2Proof.Machine.execRamrd s
  | .rdid1 => Sys2Proof.Machine.execRdid1 s
  | .rdid2 => Sys2Proof.Machine.execRdid2 s
  | .rdid3 => Sys2Proof.Machine.execRdid3 s
  | .rdid4 => Sys2Proof.Machine.execRdid4 s

end Sys2Proof.Machine
end

