-- ==== Sys2Proof/Decode.lean ====
section
/-! DEFINITION. The decoder of raw requests, total, refusing by name (30_encoding R80 to R83, R90, R92), the encoder, and `decodeTableWord`. -/

namespace Sys2Proof

/-- A `u8` operand field (30_encoding R82). -/
def asU8 : List Byte → Option Byte
  | [b] => some b
  | _ => none

/-- A `u16` operand field, high byte first (log 1). -/
def asU16 : List Byte → Option Word
  | [h, l] => some (Machine.word16 h l)
  | _ => none

/-- A `u16 list` operand field, each element high byte first (log 1). -/
def asU16List : List Byte → Option (List Word)
  | [] => some []
  | [_] => none
  | h :: l :: rest => (asU16List rest).map (Machine.word16 h l :: ·)

/-- An `Orientation` operand field: one of the four, any other byte is outside the type (30_encoding R83, log 1). -/
def asOrientation : List Byte → Option Orientation
  | [b] =>
    if b = 0 then some .o0
    else if b = 1 then some .o1
    else if b = 2 then some .o2
    else if b = 3 then some .o3
    else none
  | _ => none

/-- Four `u16` fields, as the window operations take them. -/
def asWindow (a b c d : List Byte) : Option (Word × Word × Word × Word) :=
  match asU16 a, asU16 b, asU16 c, asU16 d with
  | some a, some b, some c, some d => some (a, b, c, d)
  | _, _, _, _ => none

/-- A window command's parameter bytes: `be16(start) ++ be16(end)` (10_state R29). -/
def asSpan : List Byte → Option (Word × Word)
  | [a, b, c, d] => some (Machine.word16 a b, Machine.word16 c d)
  | _ => none

/-- The operands of the request with this selector, checked against their types; `none` where a field is missing, left
over or outside its type. Only for the selectors of R81. -/
def decodeOperands (sel : Nat) (fields : List (List Byte)) : Option Instr :=
  match sel, fields with
  | 0x00, [a, ps] => (asU8 a).map (Instr.writeCommand · ps)
  | 0x01, [] => some .beginData
  | 0x02, [bs] => some (.writeData bs)
  | 0x03, [a] => (asU16 a).map Instr.writeWord
  | 0x04, [a] => (asU16List a).map Instr.writeWordsBuffered
  | 0x05, [a, b] =>
    match asU16 a, asU16 b with
    | some dx, some dy => some (.setOffset dx dy)
    | _, _ => none
  | 0x06, [a, b, c, d] => (asWindow a b c d).map fun q => .setAddressWindow q.1 q.2.1 q.2.2.1 q.2.2.2
  | 0x07, [a] => (asOrientation a).map Instr.setOrientation
  | 0x08, [] => some .hardReset
  | 0x09, [] => some .init
  | 0x0A, [a, b, c] =>
    match asU16 a, asU16 b, asU16 c with
    | some x, some y, some color => some (.setPixel x y color)
    | _, _, _ => none
  | 0x0B, [a] => (asU16List a).map Instr.writePixels
  | 0x0C, [a] => (asU16List a).map Instr.writePixelsBuffered
  | 0x0D, [a, b, c, d, e] =>
    match asWindow a b c d, asU16List e with
    | some q, some cs => some (.setPixels q.1 q.2.1 q.2.2.1 q.2.2.2 cs)
    | _, _ => none
  | 0x0E, [a, b, c, d, e] =>
    match asWindow a b c d, asU16List e with
    | some q, some cs => some (.setPixelsBuffered q.1 q.2.1 q.2.2.1 q.2.2.2 cs)
    | _, _ => none
  | 0x0F, [bs] => some (.drawImage bs)
  | 0x10, [bs] => some (.showFrame bs)
  | 0x11, [bs, a, b, c, d] => (asWindow a b c d).map fun q => .showRegion bs q.1 q.2.1 q.2.2.1 q.2.2.2
  | _, _ => none

/-- A request on `REQ`: selectors 0x12 to 0xFF name no operation (30_encoding R83). -/
def decodeRequest (sel : Byte) (fields : List (List Byte)) : Except DecodeError Instr :=
  if 0x12 ≤ sel.toNat then .error (.unknownSelector sel)
  else
    match decodeOperands sel.toNat fields with
    | some i => .ok i
    | none => .error (.badOperands sel)

/-- The command that takes no parameter bytes here. -/
def bareCommand (i : Instr) (code : Byte) (params : List Byte) : Except DecodeError Instr :=
  if params = [] then .ok i else .error (.badOperands code)

/-- A command code with its parameter bytes, by the codes of the instance (30_encoding R90, R92). -/
def decodeCommand (p : Params) (code : Byte) (params : List Byte) : Except DecodeError Instr :=
  if code = p.codes.caset then
    match asSpan params with
    | some q => .ok (.caset q.1 q.2)
    | none => .error (.badOperands code)
  else if code = p.codes.raset then
    match asSpan params with
    | some q => .ok (.raset q.1 q.2)
    | none => .error (.badOperands code)
  else if code = p.codes.ramwr then bareCommand .ramwr code params
  else if code = p.codes.madctl then
    match asU8 params with
    | some b => .ok (.madctl b)
    | none => .error (.badOperands code)
  else if code = p.codes.colmod then .ok (.colmod params)
  else if code = p.codes.slpout then .ok (.slpout params)
  else if code = p.codes.dispon then .ok (.dispon params)
  else if code = p.reads.rddid then bareCommand .rddid code params
  else if code = p.reads.rddst then bareCommand .rddst code params
  else if code = p.reads.ramrd then bareCommand .ramrd code params
  else if code = p.reads.rdid1 then bareCommand .rdid1 code params
  else if code = p.reads.rdid2 then bareCommand .rdid2 code params
  else if code = p.reads.rdid3 then bareCommand .rdid3 code params
  else if code = p.reads.rdid4 then bareCommand .rdid4 code params
  else .error (.unknownCommand code)

/-- The decoder: total on every raw request. -/
def decode (p : Params) : RawRequest → Except DecodeError Instr
  | .request sel fields => decodeRequest sel fields
  | .command code params => decodeCommand p code params

/-- The operand field of a `u16 list` (log 1). -/
def u16ListField (ws : List Word) : List Byte := ws.flatMap Machine.be16

/-- The operand field of an `Orientation` (log 1). -/
def orientationField : Orientation → List Byte
  | .o0 => [0]
  | .o1 => [1]
  | .o2 => [2]
  | .o3 => [3]

/-- The encoder, from the same tables (30_encoding R81, R90, R92, 10_state R29). -/
def encode (p : Params) : Instr → RawRequest
  | .writeCommand opcode params => .request 0x00 [[opcode], params]
  | .beginData => .request 0x01 []
  | .writeData bytes => .request 0x02 [bytes]
  | .writeWord w => .request 0x03 [Machine.be16 w]
  | .writeWordsBuffered ws => .request 0x04 [u16ListField ws]
  | .setOffset dx dy => .request 0x05 [Machine.be16 dx, Machine.be16 dy]
  | .setAddressWindow sx sy ex ey =>
    .request 0x06 [Machine.be16 sx, Machine.be16 sy, Machine.be16 ex, Machine.be16 ey]
  | .setOrientation o => .request 0x07 [orientationField o]
  | .hardReset => .request 0x08 []
  | .init => .request 0x09 []
  | .setPixel x y color => .request 0x0A [Machine.be16 x, Machine.be16 y, Machine.be16 color]
  | .writePixels colors => .request 0x0B [u16ListField colors]
  | .writePixelsBuffered colors => .request 0x0C [u16ListField colors]
  | .setPixels sx sy ex ey colors =>
    .request 0x0D [Machine.be16 sx, Machine.be16 sy, Machine.be16 ex, Machine.be16 ey, u16ListField colors]
  | .setPixelsBuffered sx sy ex ey colors =>
    .request 0x0E [Machine.be16 sx, Machine.be16 sy, Machine.be16 ex, Machine.be16 ey, u16ListField colors]
  | .drawImage bytes => .request 0x0F [bytes]
  | .showFrame buffer => .request 0x10 [buffer]
  | .showRegion buffer x y w h =>
    .request 0x11 [buffer, Machine.be16 x, Machine.be16 y, Machine.be16 w, Machine.be16 h]
  | .caset start stop => .command p.codes.caset (Machine.be16 start ++ Machine.be16 stop)
  | .raset start stop => .command p.codes.raset (Machine.be16 start ++ Machine.be16 stop)
  | .ramwr => .command p.codes.ramwr []
  | .madctl value => .command p.codes.madctl [value]
  | .colmod params => .command p.codes.colmod params
  | .slpout params => .command p.codes.slpout params
  | .dispon params => .command p.codes.dispon params
  | .rddid => .command p.reads.rddid []
  | .rddst => .command p.reads.rddst []
  | .ramrd => .command p.reads.ramrd []
  | .rdid1 => .command p.reads.rdid1 []
  | .rdid2 => .command p.reads.rdid2 []
  | .rdid3 => .command p.reads.rdid3 []
  | .rdid4 => .command p.reads.rdid4 []

/-- The operand fields of a selector's request when every bit of every operand is 0 and every list is empty. -/
def zeroFields (sel : Nat) : List (List Byte) :=
  match sel with
  | 0x00 => [[0], []]
  | 0x02 => [[]]
  | 0x03 => [[0, 0]]
  | 0x04 => [[]]
  | 0x05 => [[0, 0], [0, 0]]
  | 0x06 => [[0, 0], [0, 0], [0, 0], [0, 0]]
  | 0x07 => [[0]]
  | 0x0A => [[0, 0], [0, 0], [0, 0]]
  | 0x0B => [[]]
  | 0x0C => [[]]
  | 0x0D => [[0, 0], [0, 0], [0, 0], [0, 0], []]
  | 0x0E => [[0, 0], [0, 0], [0, 0], [0, 0], []]
  | 0x0F => [[]]
  | 0x10 => [[]]
  | 0x11 => [[], [0, 0], [0, 0], [0, 0], [0, 0]]
  | _ => []

/-- The parameter bytes of a command whose operand bits are all 0: four for the window commands, one for
memory-access-control, none else (10_state R29). -/
def zeroParams (p : Params) (code : Byte) : List Byte :=
  if code = p.codes.caset ∨ code = p.codes.raset then [0, 0, 0, 0] else if code = p.codes.madctl then [0] else []

/-- The raw request whose bits are those of an 8-bit table word, operands zero: the 18 selectors are requests on `REQ`,
every other value is read as a command code. The values 0x04, 0x09 and 0x11 stand in two rows of the table and are read
as selectors (log 13). -/
def tableRequest (p : Params) (w : Nat) : RawRequest :=
  if w < 0x12 then .request (BitVec.ofNat 8 w) (zeroFields w)
  else .command (BitVec.ofNat 8 w) (zeroParams p (BitVec.ofNat 8 w))

/-- The instruction the decoder reads from a table word: every row of the table has 8 bits. -/
def decodeTableWord (nbits w : Nat) : Option Instr :=
  if nbits = 8 ∧ w < 256 then
    match decode Machine.defaultParams (tableRequest Machine.defaultParams w) with
    | .ok i => some i
    | .error _ => none
  else none

end Sys2Proof
end

