-- ==== Sys2Proof/Machine/Fetch.lean ====
section
/-! DEFINITION. Taking the next request from the host (00_scope R11, 30_encoding R80, R102; log 2): the block fetches no instructions from a memory (10_state R24). -/

namespace Sys2Proof.Machine

/-- What the block finds when it looks for its next request: none, and it waits; one that is no operation; or an
operation, with the request taken off the list. -/
inductive Fetched where
  | waiting
  | bad (e : DecodeError)
  | operation (i : Instr) (s : State)
deriving DecidableEq, Repr

/-- The first request of the host's list, decoded by the codes of the instance. -/
def fetch (s : State) : Fetched :=
  match s.reqs with
  | [] => .waiting
  | r :: rest =>
    match decode s.params r with
    | .ok i => .operation i { s with reqs := rest }
    | .error e => .bad e

/-- The state with one more request, in front of those already there, and the sequencer idle so that it can be taken. -/
def State.withRequest (s : State) (r : RawRequest) : State := { s with reqs := r :: s.reqs, seq := .idle }

end Sys2Proof.Machine
end

