-- ==== Sys2Proof/Machine/Step.lean ====
section
/-! DEFINITION. One step of the machine: idle, it takes the host's next request and runs it to its response (00_scope R10, 10_state R24); with no request it waits (70_reset R220); while an operation runs there is no request to take (70_reset R238). -/

namespace Sys2Proof.Machine

def step (s : State) : Host.Outcome State Fault Refusal :=
  match s.seq with
  | .running _ _ => .refused .busy
  | .idle =>
    match fetch s with
    | .waiting => .next s
    | .bad e => .refused (.badRequest e)
    | .operation i t => exec i t

/-- The state with a table word's request placed where `step` takes its next one (log 2, log 13), and with an environment
that answers the next events ok, as many as any such request with zero operands but `init` asks for: where it listed no
reply the answers would be free and the step would not be decided (log 2, log 4). -/
def State.withFetchWord (s : State) (_nbits w : Nat) : State :=
  { s.withRequest (tableRequest s.params w) with replies := List.replicate 32 (.answered .ok) ++ s.replies }

end Sys2Proof.Machine
end

