-- ==== Sys2Proof/WellFormed.lean ====
section
/-! DEFINITION. Which operations and which parameters are well-formed: the checks of the spec that need no state (42_streaming R162, 00_scope R9, 43_init R173). Every other operand is well-formed by its type (30_encoding R82). -/

namespace Sys2Proof

/-- An operation whose operands alone already put it outside the specified domain is ill-formed (42_streaming R162). -/
def Instr.wf : Instr → Bool
  | .writeCommand _ _ => true
  | .beginData => true
  | .writeData _ => true
  | .writeWord _ => true
  | .writeWordsBuffered _ => true
  | .setOffset _ _ => true
  | .setAddressWindow _ _ _ _ => true
  | .setOrientation _ => true
  | .hardReset => true
  | .init => true
  | .setPixel _ _ _ => true
  | .writePixels _ => true
  | .writePixelsBuffered _ => true
  | .setPixels _ _ _ _ _ => true
  | .setPixelsBuffered _ _ _ _ _ => true
  | .drawImage _ => true
  | .showFrame _ => true
  | .showRegion _ x y w h => Machine.regionShapeOk x y w h
  | .caset _ _ => true
  | .raset _ _ => true
  | .ramwr => true
  | .madctl _ => true
  | .colmod _ => true
  | .slpout _ => true
  | .dispon _ => true
  | .rddid => true
  | .rddst => true
  | .ramrd => true
  | .rdid1 => true
  | .rdid2 => true
  | .rdid3 => true
  | .rdid4 => true

/-- The seven issued codes are pairwise distinct (00_scope R9, 30_encoding R90) and no entry of `INIT_TABLE` carries a
read code (43_init R173 (c)); (a) and (b) of R173 hold by the shape of `InitTable`. -/
def Params.wf (p : Params) : Bool :=
  decide ((Machine.opCodeList p.codes).Nodup) &&
    (Machine.initEntries p).all fun e => !(Machine.readCodeList p.reads).contains e.code

/-- All fourteen named codes are pairwise distinct: what telling the command-code rows apart needs (log 13). -/
def Params.codesApart (p : Params) : Bool :=
  decide ((Machine.opCodeList p.codes ++ Machine.readCodeList p.reads).Nodup)

end Sys2Proof
end

