-- ==== Sys2Proof/Safety.lean ====
section
/-! DEFINITION. The terms claims use: when every event is answered ok, the event list each rule gives an operation, what stays, the invariant of the machine, and running a program. -/

namespace Sys2Proof.Machine

/-- The environment's reply to the `n`-th event from now that asks for one: the listed one, else a free value (00_scope
R13, log 4). -/
def State.replyAt (s : State) (n : Nat) : Reply := (s.replies.drop n).headD (Config.freeReply (s.asks + n))

/-- The next `n` events that ask for an answer are all answered `ok` (70_reset R245, last premise). -/
def State.answersOk (s : State) (n : Nat) : Bool := (List.range n).all fun m => decide (s.replyAt m = .answered .ok)

/-- The environment has given `n` replies since `s`. -/
def TookReplies (s t : State) (n : Nat) : Prop := t.replies = s.replies.drop n ∧ t.asks = s.asks + n

/-- The instance has columns and rows (00_scope R7): every request to one without is refused (log 23). -/
def HasPanel (s : State) : Prop := s.width ≠ 0 ∧ s.height ≠ 0

/-- The data transactions that carry these byte runs, one each. -/
def dataRuns (runs : List (List Byte)) : List Event := runs.flatMap dataTransaction

/-- The byte runs `write_words_buffered` flushes (40_transaction R118, R119): 32 bytes each, the remainder, and an empty
run where nothing remains and `P_EMPTY_FINAL_FLUSH` says so. -/
def flushRuns (p : Params) (ws : List Word) : List (List Byte) :=
  chunks (ws.flatMap be16) ++ (if ws.length % 16 = 0 ∧ p.emptyFinalFlush = true then [[]] else [])

/-- The window commands' events (41_window R132). -/
def windowEvents (p : Params) (win : Window) : List Event :=
  commandTransaction p.codes.caset (spanBytes win.cols) ++ commandTransaction p.codes.raset (spanBytes win.rows)

/-- The memory-write command's events (42_streaming, opening). -/
def memoryWriteEvents (p : Params) : List Event := commandTransaction p.codes.ramwr []

/-- The events of one entry of `INIT_TABLE`. -/
def entryEvents (e : InitEntry) : List Event := commandTransaction e.code e.params

/-- The code and the parameter bytes of a command-code row (30_encoding R90, R92); `none` for a request. -/
def commandRow (p : Params) : Instr → Option (Byte × List Byte)
  | .caset a b => some (p.codes.caset, be16 a ++ be16 b)
  | .raset a b => some (p.codes.raset, be16 a ++ be16 b)
  | .ramwr => some (p.codes.ramwr, [])
  | .madctl v => some (p.codes.madctl, [v])
  | .colmod ps => some (p.codes.colmod, ps)
  | .slpout ps => some (p.codes.slpout, ps)
  | .dispon ps => some (p.codes.dispon, ps)
  | .rddid => some (p.reads.rddid, [])
  | .rddst => some (p.reads.rddst, [])
  | .ramrd => some (p.reads.ramrd, [])
  | .rdid1 => some (p.reads.rdid1, [])
  | .rdid2 => some (p.reads.rdid2, [])
  | .rdid3 => some (p.reads.rdid3, [])
  | .rdid4 => some (p.reads.rdid4, [])
  | .writeCommand _ _ => none
  | .beginData => none
  | .writeData _ => none
  | .writeWord _ => none
  | .writeWordsBuffered _ => none
  | .setOffset _ _ => none
  | .setAddressWindow _ _ _ _ => none
  | .setOrientation _ => none
  | .hardReset => none
  | .init => none
  | .setPixel _ _ _ => none
  | .writePixels _ => none
  | .writePixelsBuffered _ => none
  | .setPixels _ _ _ _ _ => none
  | .setPixelsBuffered _ _ _ _ _ => none
  | .drawImage _ => none
  | .showFrame _ => none
  | .showRegion _ _ _ _ _ => none

/-- The window an operation sets in controller coordinates, from its operands, the straps and the offsets (42_streaming
R165); `none` for an operation that sets none or is refused. -/
def windowSet (s : State) : Instr → Option Window
  | .setAddressWindow sx sy ex ey => windowOf s sx sy ex ey
  | .setPixel x y _ => windowOf s x y x y
  | .setPixels sx sy ex ey _ => windowOf s sx sy ex ey
  | .setPixelsBuffered sx sy ex ey _ => windowOf s sx sy ex ey
  | .drawImage _ => windowOf s 0 0 (s.width - 1) (s.height - 1)
  | .showFrame _ => some { cols := { first := 0, last := showLast }, rows := { first := 0, last := showLast } }
  | .showRegion _ x y w h =>
    if regionShapeOk x y w h = false then none
    else windowOf s x y (x + w - 1) (y + h - 1)
  | .writeCommand _ _ => none
  | .beginData => none
  | .writeData _ => none
  | .writeWord _ => none
  | .writeWordsBuffered _ => none
  | .setOffset _ _ => none
  | .setOrientation _ => none
  | .hardReset => none
  | .init => none
  | .writePixels _ => none
  | .writePixelsBuffered _ => none
  | .caset _ _ => none
  | .raset _ _ => none
  | .ramwr => none
  | .madctl _ => none
  | .colmod _ => none
  | .slpout _ => none
  | .dispon _ => none
  | .rddid => none
  | .rddst => none
  | .ramrd => none
  | .rdid1 => none
  | .rdid2 => none
  | .rdid3 => none
  | .rdid4 => none

/-- The step list of an operation on an instance with a panel; `none` where the request is refused. -/
def stepList (s : State) (i : Instr) : Option (List Event) :=
  match i with
  | .writeCommand op ps => some (commandTransaction op ps)
  | .beginData => some selectSwitch
  | .writeData bs => some (dataTransaction bs)
  | .writeWord w => some (dataTransaction (be16 w))
  | .writeWordsBuffered ws => some (dataRuns (flushRuns s.params ws))
  | .setOffset _ _ => some []
  | .setAddressWindow _ _ _ _ => (windowSet s i).map (windowEvents s.params)
  | .setOrientation o => some (commandTransaction s.params.codes.madctl [madctlByte s o])
  | .hardReset => some resetPulse
  | .init => some (resetPulse ++ (initEntries s.params).flatMap entryEvents ++ [.dly tInit])
  | .setPixel _ _ c =>
    (windowSet s i).map fun win => windowEvents s.params win ++ memoryWriteEvents s.params ++ dataTransaction (be16 c)
  | .writePixels cs => some (memoryWriteEvents s.params ++ dataRuns (cs.map be16))
  | .writePixelsBuffered cs => some (memoryWriteEvents s.params ++ dataRuns (flushRuns s.params cs))
  | .setPixels _ _ _ _ cs =>
    (windowSet s i).map fun win => windowEvents s.params win ++ memoryWriteEvents s.params ++ dataRuns (cs.map be16)
  | .setPixelsBuffered _ _ _ _ cs =>
    (windowSet s i).map fun win =>
      windowEvents s.params win ++ memoryWriteEvents s.params ++ dataRuns (flushRuns s.params cs)
  | .drawImage bs =>
    (windowSet s i).map fun win => windowEvents s.params win ++ memoryWriteEvents s.params ++ dataRuns (chunks bs)
  | .showFrame bs =>
    (windowSet s i).map fun win => windowEvents s.params win ++ memoryWriteEvents s.params ++ dataTransaction bs
  | .showRegion bs x y w h =>
    match regionRows s.width bs x y w h, windowSet s i with
    | some rows, some win =>
      some (windowEvents s.params win ++ memoryWriteEvents s.params ++ dataRuns (rows.flatMap chunks))
    | _, _ => none
  | .caset _ _ => (commandRow s.params i).map fun q => commandTransaction q.1 q.2
  | .raset _ _ => (commandRow s.params i).map fun q => commandTransaction q.1 q.2
  | .ramwr => (commandRow s.params i).map fun q => commandTransaction q.1 q.2
  | .madctl _ => (commandRow s.params i).map fun q => commandTransaction q.1 q.2
  | .colmod _ => (commandRow s.params i).map fun q => commandTransaction q.1 q.2
  | .slpout _ => (commandRow s.params i).map fun q => commandTransaction q.1 q.2
  | .dispon _ => (commandRow s.params i).map fun q => commandTransaction q.1 q.2
  | .rddid => (commandRow s.params i).map fun q => commandTransaction q.1 q.2
  | .rddst => (commandRow s.params i).map fun q => commandTransaction q.1 q.2
  | .ramrd => (commandRow s.params i).map fun q => commandTransaction q.1 q.2
  | .rdid1 => (commandRow s.params i).map fun q => commandTransaction q.1 q.2
  | .rdid2 => (commandRow s.params i).map fun q => commandTransaction q.1 q.2
  | .rdid3 => (commandRow s.params i).map fun q => commandTransaction q.1 q.2
  | .rdid4 => (commandRow s.params i).map fun q => commandTransaction q.1 q.2

/-- THE STEP LIST of an operation as events, in the order its rule gives them (20_memory R62 (a), 10_state R24);
`none` where the request is refused, as every request is on an instance without a panel. -/
def eventsOf (s : State) (i : Instr) : Option (List Event) :=
  if s.width = 0 ∨ s.height = 0 then none else stepList s i

/-- The offset registers are as before (10_state R21). -/
def SameOffsets (s t : State) : Prop := t.offsetX = s.offsetX ∧ t.offsetY = s.offsetY

/-- The straps and the parameters are as before (10_state R26, R27, 00_scope R7). -/
def SameStraps (s t : State) : Prop :=
  t.colorOrder = s.colorOrder ∧ t.width = s.width ∧ t.height = s.height ∧ t.params = s.params

/-- The staging buffer is as before (10_state R30). -/
def SameStage (s t : State) : Prop := t.stage = s.stage ∧ t.fill = s.fill

/-- Everything known of the frame memory is as before, byte by byte. -/
def SameFrame (s t : State) : Prop := ∀ a, t.sink.mem.read a = s.sink.mem.read a

/-- Outside a window, everything known of the frame memory is as before. -/
def SameFrameOutside (win : Window) (s t : State) : Prop :=
  ∀ a, inWindow win a = false → t.sink.mem.read a = s.sink.mem.read a

/-- The controller's window registers and its memory-access-control register are as before (10_state R29). -/
def SameSinkRegisters (s t : State) : Prop :=
  t.sink.col = s.sink.col ∧ t.sink.row = s.sink.row ∧ t.sink.access = s.sink.access

/-- The operation has responded `Ok` after exactly these events, all answered ok, and used up their replies; the
requests still to come are as before. -/
def Completed (s t : State) (es : List Event) : Prop :=
  t.rsp = some .ok ∧ t.seq = .idle ∧ t.trace = s.trace ++ allOk es ∧ TookReplies s t (asked es) ∧ t.reqs = s.reqs

/-- Nothing is known of the controller (10_state R44, last row). -/
def Sink.knowsNothing (k : Sink) : Bool :=
  decide (k.col = .unknown) && decide (k.row = .unknown) && decide (k.access = .unknown) && decide (k.cmd = .unknown) &&
    decide (k.mem = [])

/-- How many columns a window has, both ends inside (20_memory R60). -/
def Window.ncols (win : Window) : Nat := win.cols.last.toNat - win.cols.first.toNat + 1

/-- How many rows a window has. -/
def Window.nrows (win : Window) : Nat := win.rows.last.toNat - win.rows.first.toNat + 1

/-- How many pixels a window holds (42_streaming R156). -/
def Window.count (win : Window) : Nat := win.ncols * win.nrows

/-- The window is not inverted on either axis (70_reset R233). -/
def Window.upright (win : Window) : Bool :=
  decide (win.cols.first.toNat ≤ win.cols.last.toNat) && decide (win.rows.first.toNat ≤ win.rows.last.toNat)

/-- The column of a window's `k`-th pixel in row-major order (20_memory R70). -/
def Window.colAt (win : Window) (k : Nat) : Word := win.cols.first + BitVec.ofNat 16 (k % win.ncols)

/-- The row of a window's `k`-th pixel in row-major order (20_memory R70). -/
def Window.rowAt (win : Window) (k : Nat) : Word := win.rows.first + BitVec.ofNat 16 (k / win.ncols)

/-- The bytes an operation streams after its memory write (42_streaming R165); `none` for an operation that issues no
memory write of its own or is refused. -/
def streamed (s : State) (i : Instr) : Option (List Byte) :=
  match i with
  | .setPixel _ _ c => some (be16 c)
  | .setPixels _ _ _ _ cs => some (cs.flatMap be16)
  | .setPixelsBuffered _ _ _ _ cs => some (cs.flatMap be16)
  | .drawImage bs => some bs
  | .showFrame bs => some bs
  | .showRegion bs x y w h => (regionRows s.width bs x y w h).map List.flatten
  | .writeCommand _ _ => none
  | .beginData => none
  | .writeData _ => none
  | .writeWord _ => none
  | .writeWordsBuffered _ => none
  | .setOffset _ _ => none
  | .setAddressWindow _ _ _ _ => none
  | .setOrientation _ => none
  | .hardReset => none
  | .init => none
  | .writePixels cs => some (cs.flatMap be16)
  | .writePixelsBuffered cs => some (cs.flatMap be16)
  | .caset _ _ => none
  | .raset _ _ => none
  | .ramwr => none
  | .madctl _ => none
  | .colmod _ => none
  | .slpout _ => none
  | .dispon _ => none
  | .rddid => none
  | .rddst => none
  | .ramrd => none
  | .rdid1 => none
  | .rdid2 => none
  | .rdid3 => none
  | .rdid4 => none

/-- The window the bytes of an operation's memory write go to: the one it sets, or for `write_pixels` and
`write_pixels_buffered` the one the controller has latched (42_streaming R153, R165). -/
def windowWritten (s : State) (i : Instr) : Option Window :=
  match i with
  | .writePixels _ => s.sink.window
  | .writePixelsBuffered _ => s.sink.window
  | .setPixel _ _ _ => windowSet s i
  | .setPixels _ _ _ _ _ => windowSet s i
  | .setPixelsBuffered _ _ _ _ _ => windowSet s i
  | .drawImage _ => windowSet s i
  | .showFrame _ => windowSet s i
  | .showRegion _ _ _ _ _ => windowSet s i
  | .writeCommand _ _ => none
  | .beginData => none
  | .writeData _ => none
  | .writeWord _ => none
  | .writeWordsBuffered _ => none
  | .setOffset _ _ => none
  | .setAddressWindow _ _ _ _ => none
  | .setOrientation _ => none
  | .hardReset => none
  | .init => none
  | .caset _ _ => none
  | .raset _ _ => none
  | .ramwr => none
  | .madctl _ => none
  | .colmod _ => none
  | .slpout _ => none
  | .dispon _ => none
  | .rddid => none
  | .rddst => none
  | .ramrd => none
  | .rdid1 => none
  | .rdid2 => none
  | .rdid3 => none
  | .rdid4 => none

/-- The bytes of the data transactions of the three operations that send nothing else (30_encoding R85). -/
def dataBytes : Instr → Option (List Byte)
  | .writeData bs => some bs
  | .writeWord w => some (be16 w)
  | .writeWordsBuffered ws => some (ws.flatMap be16)
  | .writeCommand _ _ => none
  | .beginData => none
  | .setOffset _ _ => none
  | .setAddressWindow _ _ _ _ => none
  | .setOrientation _ => none
  | .hardReset => none
  | .init => none
  | .setPixel _ _ _ => none
  | .writePixels _ => none
  | .writePixelsBuffered _ => none
  | .setPixels _ _ _ _ _ => none
  | .setPixelsBuffered _ _ _ _ _ => none
  | .drawImage _ => none
  | .showFrame _ => none
  | .showRegion _ _ _ _ _ => none
  | .caset _ _ => none
  | .raset _ _ => none
  | .ramwr => none
  | .madctl _ => none
  | .colmod _ => none
  | .slpout _ => none
  | .dispon _ => none
  | .rddid => none
  | .rddst => none
  | .ramrd => none
  | .rdid1 => none
  | .rdid2 => none
  | .rdid3 => none
  | .rdid4 => none

/-- The command the controller is receiving is known and is no memory write: its data bytes are parameters (20_memory R69,
logs 19 and 21). -/
def Sink.takesParameters (k : Sink) : Bool :=
  match k.cmd with
  | .idle => true
  | .colParams _ => true
  | .rowParams _ => true
  | .accessParams _ => true
  | .unknown => false
  | .writing _ _ _ _ => false
  | .full => false
  | .lost => false

/-- A byte of the wire view reaches the controller (20_memory R68, 30_encoding R88). -/
def Sink.hear (p : Params) (k : Sink) (w : WireByte) : Sink :=
  match w.ce, w.sel with
  | .held .act, .held .cmd => k.commandByte p w.byte
  | .held .act, .held .dat => k.dataByte w.byte
  | _, _ => k.forgetAll

/-- The latch holds no inverted span (20_memory R74). -/
def spanUpright : Latch Span → Prop
  | .unknown => True
  | .held sp => sp.first.toNat ≤ sp.last.toNat

/-- Latched windows are not inverted, and a memory write in progress stands at a pixel of the latched window (20_memory
R69, R70, R74). -/
def Sink.positioned (k : Sink) : Prop :=
  spanUpright k.col ∧ spanUpright k.row ∧
    match k.cmd with
    | .writing win c r _ =>
      k.window = some win ∧ win.upright = true ∧ ∃ n, n < win.count ∧ c = win.colAt n ∧ r = win.rowAt n
    | .unknown => True
    | .idle => True
    | .colParams _ => True
    | .rowParams _ => True
    | .accessParams _ => True
    | .full => True
    | .lost => True

/-- THE INVARIANT: the sequencer is idle between requests (10_state R24); the latches are what the trace says (R32);
`fill` is at most 32 (R30); the frame memory is in canonical form; the sink's window and position are sound; nothing is
known of the controller unless `ctrl` is Initialized (20_memory R68); the panel has columns and rows (00_scope R7); the
parameters are well-formed (R9). -/
def Inv (s : State) : Prop :=
  s.seq = .idle ∧ s.lines = Lines.start.replay s.trace ∧ s.fill ≤ 32 ∧ s.sink.mem.wf = true ∧ s.sink.positioned ∧
    (s.ctrl ≠ .initialized → s.sink.knowsNothing = true) ∧ s.width ≠ 0 ∧ s.height ≠ 0 ∧ s.params.wf = true

/-- A program (30_encoding R102): each operation is requested after the one before it has responded, whatever the
response; it ends early only where one has no response. -/
def runProgram : List Instr → State → Host.Outcome State Fault Refusal
  | [], s => .next s
  | i :: is, s =>
    match exec i s with
    | .next t => runProgram is t
    | .fault f => .fault f
    | .refused r => .refused r

/-- What a composed operation is a sequence of (30_encoding R103), but for `init`, whose last step is a bare wait; an
operation that is not composed stands for itself. -/
def expansion (s : State) (i : Instr) : List Instr :=
  match i with
  | .writeWord w => [.writeData (be16 w)]
  | .setAddressWindow _ _ _ _ =>
    match windowSet s i with
    | some win => [.caset win.cols.first win.cols.last, .raset win.rows.first win.rows.last]
    | none => [i]
  | .setOrientation o => [.madctl (madctlByte s o)]
  | .setPixel x y c => [.setAddressWindow x y x y, .ramwr, .writeWord c]
  | .writePixels cs => .ramwr :: cs.map .writeWord
  | .writePixelsBuffered cs => [.ramwr, .writeWordsBuffered cs]
  | .setPixels sx sy ex ey cs => [.setAddressWindow sx sy ex ey, .writePixels cs]
  | .setPixelsBuffered sx sy ex ey cs => [.setAddressWindow sx sy ex ey, .writePixelsBuffered cs]
  | .writeCommand _ _ => [i]
  | .beginData => [i]
  | .writeData _ => [i]
  | .writeWordsBuffered _ => [i]
  | .setOffset _ _ => [i]
  | .hardReset => [i]
  | .init => [i]
  | .drawImage _ => [i]
  | .showFrame _ => [i]
  | .showRegion _ _ _ _ _ => [i]
  | .caset _ _ => [i]
  | .raset _ _ => [i]
  | .ramwr => [i]
  | .madctl _ => [i]
  | .colmod _ => [i]
  | .slpout _ => [i]
  | .dispon _ => [i]
  | .rddid => [i]
  | .rddst => [i]
  | .ramrd => [i]
  | .rdid1 => [i]
  | .rdid2 => [i]
  | .rdid3 => [i]
  | .rdid4 => [i]

/-- The events recorded since an earlier state, with their answers. -/
def eventsSince (s t : State) : List (Event × Answer) := t.trace.drop s.trace.length

/-- The wire view of what happened since an earlier state (00_scope R12). -/
def wireSince (s t : State) : List WireByte := wireView s.lines (eventsSince s t)

end Sys2Proof.Machine
end

