-- ==== Sys2Proof/Certificates/Slice0/Obligations.lean ====
section
/-! DEFINITION. The statements for the provers. Each docstring says which rule of spec/ it formalises; `answersOk (asked es)` is the premise of 70_reset R245 that every event is answered ok, `HasPanel` that of 00_scope R7 that `WIDTH` and `HEIGHT` are at least 1. -/

open Sys2Proof Sys2Proof.Machine

/-! Encodings. -/

/-- 30_encoding R80, R81, R90: what the encoder writes for an operation, with any operands, the decoder reads back as that
operation, for every instance whose fourteen command codes are pairwise distinct (log 13). -/
def Obligations.DecodeReadsBackEncode : Prop :=
  ∀ (p : Params) (i : Instr), p.codesApart = true → decode p (encode p i) = .ok i

/-- 30_encoding R83: a request with a selector from 0x12 on is refused as such, and a request with one of the 18
selectors whose fields are not the encoding of operands in their types is refused as such; and nothing else decodes. -/
def Obligations.UnknownAndIllTypedRequestsRefused : Prop :=
  (∀ (p : Params) (sel : Byte) (fields : List (List Byte)), 0x12 ≤ sel.toNat →
      decode p (.request sel fields) = .error (.unknownSelector sel)) ∧
    (∀ (p : Params) (sel : Byte) (fields : List (List Byte)), sel.toNat < 0x12 →
      (¬ ∃ i, encode p i = .request sel fields) → decode p (.request sel fields) = .error (.badOperands sel)) ∧
    ∀ (p : Params) (r : RawRequest) (i : Instr), decode p r = .ok i → encode p i = r

/-- 30_encoding R81, R90, R92: words of the opcode table decode to the operation they stand for. That a number two rows share
is read as the selector (0x09 as `init`, 0x11 as `show_region`) and that a bare number stands for zero operands are the model's
choices (log 13); that 0x2A, 0x2C and 0xDD are the codes of CASET, RAMWR and RDID4 is presumed (log 7). -/
def Obligations.TableWordsDecode : Prop :=
  decodeTableWord 8 0x00 = some (.writeCommand 0 []) ∧ decodeTableWord 8 0x05 = some (.setOffset 0 0) ∧
    decodeTableWord 8 0x07 = some (.setOrientation .o0) ∧ decodeTableWord 8 0x09 = some .init ∧
    decodeTableWord 8 0x0A = some (.setPixel 0 0 0) ∧ decodeTableWord 8 0x11 = some (.showRegion [] 0 0 0 0) ∧
    decodeTableWord 8 0x2A = some (.caset 0 0) ∧ decodeTableWord 8 0x2C = some .ramwr ∧
    decodeTableWord 8 0xDD = some .rdid4 ∧ decodeTableWord 8 0x12 = none

/-! One step. -/

/-- 10_state R24, 00_scope R10: idle, the machine takes the first request of the host's list and runs it; `step` is
`exec` of the decoded operation on the state without that request. -/
def Obligations.StepRunsDecodedRequest : Prop :=
  ∀ (s : State) (r : RawRequest) (rest : List RawRequest) (i : Instr),
    s.seq = .idle → s.reqs = r :: rest → decode s.params r = .ok i → step s = exec i { s with reqs := rest }

/-- 70_reset R220, R238, 30_encoding R83: with no request the idle block waits; with one that is no operation it refuses;
while an operation runs there is no request to take (the model's refusal `busy`, log 3). -/
def Obligations.StepWaitsOrRefuses : Prop :=
  (∀ s : State, s.seq = .idle → s.reqs = [] → step s = .next s) ∧
    (∀ (s : State) (r : RawRequest) (rest : List RawRequest) (e : DecodeError),
      s.seq = .idle → s.reqs = r :: rest → decode s.params r = .error e → step s = .refused (.badRequest e)) ∧
    ∀ (s : State) (sel : Byte) (n : Nat), s.seq = .running sel n → step s = .refused .busy

/-- 10_state R44, 70_reset R220: construction with any straps and parameters leaves the offsets 0, the straps as given,
the latches unknown, the sequencer idle, `ctrl` Unknown, no event, and nothing known of the controller; the machine at
reset is such a construction. -/
def Obligations.ConstructionState : Prop :=
  (∀ (p : Params) (co : ColorOrder) (w h : Word),
      (State.construct p co w h).offsetX = 0 ∧ (State.construct p co w h).offsetY = 0 ∧
        (State.construct p co w h).colorOrder = co ∧ (State.construct p co w h).width = w ∧
        (State.construct p co w h).height = h ∧
        (State.construct p co w h).lines = { sel := .unknown, ce := .unknown, rst := .unknown } ∧
        (State.construct p co w h).seq = .idle ∧ (State.construct p co w h).ctrl = .unknown ∧
        (State.construct p co w h).trace = [] ∧ (State.construct p co w h).sink.knowsNothing = true) ∧
    ∃ p co w h, State.reset = State.construct p co w h

/-! The Transaction Primitive. -/

/-- 40_transaction R110, 30_encoding R84: `write_command` performs the command transaction, answers Ok, has the code on the
wire tagged (CMD, ACT) and the parameters tagged (DAT, ACT), leaves `CE` inactive and `SEL` at the command level exactly
when there are no parameters, and writes nothing else. What the controller keeps is the model's reading: while `ctrl` is
Initialized the named codes other than memory-write and memory-access-control leave its frame memory, and but for the window
commands its registers, and a code that is none of the fourteen named ones leaves nothing known of it (log 21); while `ctrl`
is not Initialized any code leaves nothing known of it (log 22). -/
def Obligations.WriteCommandSendsCommandTransaction : Prop :=
  ∀ (op : Byte) (ps : List Byte) (s : State), HasPanel s → s.answersOk (asked (commandTransaction op ps)) = true →
    ∃ t, exec (.writeCommand op ps) s = .next t ∧ Completed s t (commandTransaction op ps) ∧
      wireSince s t = codeOnWire op ++ dataOnWire ps ∧
      t.lines = { s.lines with ce := .held .inact, sel := if ps = [] then .held .cmd else .held .dat } ∧
      SameOffsets s t ∧ SameStraps s t ∧ SameStage s t ∧ t.ctrl = s.ctrl ∧
      (s.ctrl = .initialized → isNamedCode s.params op = true → op ≠ s.params.codes.ramwr →
        op ≠ s.params.codes.madctl →
        SameFrame s t ∧ (op ≠ s.params.codes.caset → op ≠ s.params.codes.raset → SameSinkRegisters s t)) ∧
      (s.ctrl ≠ .initialized ∨ isNamedCode s.params op = false → t.sink.knowsNothing = true)

/-- 40_transaction R111, 60_exceptions R196, R197: a failing event is the last of `write_command`; the response is
TransactionFailure; the chip-enable line is left active when the failing event comes after the first and before the last, and
is unknown when it is one of these two; the select line is unknown when the failing event is a drive of it (the second, or
with parameters the fourth), at the command level when the failing event is the code's bus write or, without parameters, the
drive after it, and at the data level when it is a later one. `k` counts the events before the failing one. -/
def Obligations.WriteCommandFailureStopsAtOnce : Prop :=
  ∀ (op : Byte) (ps : List Byte) (s : State) (k : Nat) (e : Event),
    HasPanel s → (commandTransaction op ps)[k]? = some e → s.answersOk k = true → s.replyAt k = .answered .fail →
    ∃ t, exec (.writeCommand op ps) s = .next t ∧ t.rsp = some .transactionFailure ∧ t.seq = .idle ∧
      t.trace = s.trace ++ allOk ((commandTransaction op ps).take k) ++ [(e, .fail)] ∧
      t.ctrl = .unknown ∧ SameOffsets s t ∧ SameStraps s t ∧ t.lines.rst = s.lines.rst ∧
      (k = 0 → t.lines = { s.lines with ce := .unknown }) ∧
      (0 < k → k + 1 < (commandTransaction op ps).length → t.lines.ce = .held .act) ∧
      (k + 1 = (commandTransaction op ps).length → t.lines.ce = .unknown) ∧
      (k = 1 → t.lines.sel = .unknown) ∧ (k = 2 → t.lines.sel = .held .cmd) ∧
      (k = 3 → t.lines.sel = if ps = [] then .held .cmd else .unknown) ∧ (3 < k → t.lines.sel = .held .dat)

/-- 40_transaction R112, 30_encoding R86: `begin_data` drives the select line to the data level and nothing else; if that
drive fails it answers TransactionFailure with the select latch unknown. -/
def Obligations.BeginDataSwitchesSelect : Prop :=
  (∀ s : State, HasPanel s → s.answersOk 1 = true →
      ∃ t, exec .beginData s = .next t ∧ Completed s t [.sel .dat] ∧ t.lines = { s.lines with sel := .held .dat } ∧
        SameOffsets s t ∧ SameStraps s t ∧ SameStage s t ∧ t.ctrl = s.ctrl ∧ SameFrame s t ∧ t.sink = s.sink) ∧
    ∀ s : State, HasPanel s → s.replyAt 0 = .answered .fail →
      ∃ t, exec .beginData s = .next t ∧ t.rsp = some .transactionFailure ∧ t.trace = s.trace ++ [(.sel .dat, .fail)] ∧
        t.lines = { s.lines with sel := .unknown } ∧ t.ctrl = .unknown ∧ SameOffsets s t ∧ SameStraps s t

/-- 40_transaction R114, 30_encoding R85: `write_data` performs the data transaction with one bus event, whatever the
length of the run, the empty run too; each byte is on the wire tagged (DAT, ACT). That parameter bytes, of whatever number,
leave the controller's frame memory is the model's reading (logs 19 and 21); the bytes of a memory write are
`DataContinuesMemoryWrite`'s. -/
def Obligations.WriteDataSendsDataTransaction : Prop :=
  ∀ (bs : List Byte) (s : State), HasPanel s → s.answersOk 4 = true →
    ∃ t, exec (.writeData bs) s = .next t ∧ Completed s t [.ce .act, .sel .dat, .bus bs, .ce .inact] ∧
      wireSince s t = dataOnWire bs ∧
      t.lines = { s.lines with ce := .held .inact, sel := .held .dat } ∧
      SameOffsets s t ∧ SameStraps s t ∧ SameStage s t ∧ t.ctrl = s.ctrl ∧
      (s.ctrl = .initialized → s.sink.takesParameters = true → SameFrame s t)

/-- 40_transaction R116, 30_encoding R94: `write_word` sends the word's two bytes, high first, as one data transaction. That
parameter bytes, of whatever number, leave the controller's frame memory is the model's reading (logs 19 and 21); a word
sent in a memory write, to a full window too, is `DataContinuesMemoryWrite`'s. -/
def Obligations.WriteWordSendsHighByteFirst : Prop :=
  ∀ (w : Word) (s : State), HasPanel s → s.answersOk 4 = true →
    ∃ t, exec (.writeWord w) s = .next t ∧
      Completed s t [.ce .act, .sel .dat, .bus [w.extractLsb' 8 8, w.extractLsb' 0 8], .ce .inact] ∧
      t.lines = { s.lines with ce := .held .inact, sel := .held .dat } ∧
      SameOffsets s t ∧ SameStraps s t ∧ SameStage s t ∧ t.ctrl = s.ctrl ∧
      (s.ctrl = .initialized → s.sink.takesParameters = true → SameFrame s t)

/-- 40_transaction R118, R119: `write_words_buffered` performs one data transaction of 32 bytes for every 16 words and one
for the remainder, which when nothing remains is sent, empty, exactly when `P_EMPTY_FINAL_FLUSH` is set; `fill` is at most 32
when it ends. That parameter bytes, of whatever number, leave the controller's frame memory is the model's reading (logs 19
and 21); the words of a memory write are `DataContinuesMemoryWrite`'s. -/
def Obligations.WriteWordsBufferedFlushes : Prop :=
  ∀ (ws : List Word) (s : State), HasPanel s → s.answersOk (asked (dataRuns (flushRuns s.params ws))) = true →
    ∃ t, exec (.writeWordsBuffered ws) s = .next t ∧ Completed s t (dataRuns (flushRuns s.params ws)) ∧
      (flushRuns s.params ws = [] → t.lines = s.lines) ∧
      (flushRuns s.params ws ≠ [] → t.lines = { s.lines with ce := .held .inact, sel := .held .dat }) ∧
      SameOffsets s t ∧ SameStraps s t ∧ t.fill ≤ 32 ∧ t.ctrl = s.ctrl ∧
      (s.ctrl = .initialized → s.sink.takesParameters = true → SameFrame s t)

/-- 40_transaction R118, second paragraph, R121: with `N` words there are `N / 16` runs of 32 bytes, then one of
`2 * (N mod 16)` bytes when that is not 0, then an empty one when it is 0 and `P_EMPTY_FINAL_FLUSH` is set; together they
are the words' bytes in order. -/
def Obligations.FlushRunSizes : Prop :=
  ∀ (p : Params) (ws : List Word),
    (flushRuns p ws).map List.length =
        List.replicate (ws.length / 16) 32 ++
          (if ws.length % 16 ≠ 0 then [2 * (ws.length % 16)] else if p.emptyFinalFlush = true then [0] else []) ∧
      (flushRuns p ws).flatten = ws.flatMap be16

/-- 40_transaction R120: with every event answered ok, the wire view of `write_words_buffered(ws)` is that of `write_word`
for each word in order: the words' bytes, high first, each tagged (DAT, ACT). -/
def Obligations.BufferedWordsEqualWordByWord : Prop :=
  ∀ (ws : List Word) (s : State), HasPanel s → s.answersOk (4 * ws.length) = true →
    s.answersOk (asked (dataRuns (flushRuns s.params ws))) = true →
    ∃ t u, exec (.writeWordsBuffered ws) s = .next t ∧ runProgram (ws.map .writeWord) s = .next u ∧
      wireSince s t = dataOnWire (ws.flatMap be16) ∧ wireSince s u = dataOnWire (ws.flatMap be16)

/-! The Coordinate & Window Engine. -/

/-- 41_window R130: `set_offset` overwrites both offsets, always, emits no event, cannot fail, and changes nothing else but
the response (on an instance with a panel: log 23). -/
def Obligations.SetOffsetOverwritesBoth : Prop :=
  ∀ (dx dy : Word) (s : State), HasPanel s →
    exec (.setOffset dx dy) s =
      .next { s with offsetX := dx, offsetY := dy, rsp := some .ok, seq := .idle }

/-- 41_window R132, 30_encoding R95: `set_address_window` sends the column command with `sx+offset_x` and `ex+offset_x`,
then the row command with `sy+offset_y` and `ey+offset_y`, each as two big-endian words, when no sum is above 65535; when
one is, it is refused. -/
def Obligations.SetAddressWindowSendsOffsetWindow : Prop :=
  ∀ (sx sy ex ey : Word) (s : State), HasPanel s →
    (sx.toNat + s.offsetX.toNat ≤ 65535 → ex.toNat + s.offsetX.toNat ≤ 65535 → sy.toNat + s.offsetY.toNat ≤ 65535 →
      ey.toNat + s.offsetY.toNat ≤ 65535 → s.answersOk 12 = true →
      ∃ t, exec (.setAddressWindow sx sy ex ey) s = .next t ∧
        Completed s t
          (commandTransaction s.params.codes.caset (be16 (sx + s.offsetX) ++ be16 (ex + s.offsetX)) ++
            commandTransaction s.params.codes.raset (be16 (sy + s.offsetY) ++ be16 (ey + s.offsetY))) ∧
        t.lines = { s.lines with ce := .held .inact, sel := .held .dat } ∧
        SameOffsets s t ∧ SameStraps s t ∧ SameStage s t ∧ t.ctrl = s.ctrl ∧
        (s.ctrl = .initialized → s.params.wf = true → SameFrame s t)) ∧
      ((65535 < sx.toNat + s.offsetX.toNat ∨ 65535 < ex.toNat + s.offsetX.toNat ∨
          65535 < sy.toNat + s.offsetY.toNat ∨ 65535 < ey.toNat + s.offsetY.toNat) →
        exec (.setAddressWindow sx sy ex ey) s = .refused .offsetOverflow)

/-- 41_window R133: whatever sets a window is refused when one of the four sums is above 65535, before any event and
whatever the environment would answer; it neither wraps, nor saturates, nor answers TransactionFailure. -/
def Obligations.OffsetOverflowRefused : Prop :=
  ∀ (sx sy ex ey : Word) (s : State), HasPanel s →
    (65535 < sx.toNat + s.offsetX.toNat ∨ 65535 < ex.toNat + s.offsetX.toNat ∨ 65535 < sy.toNat + s.offsetY.toNat ∨
        65535 < ey.toNat + s.offsetY.toNat) →
      exec (.setAddressWindow sx sy ex ey) s = .refused .offsetOverflow ∧
        (∀ c, sx = ex → sy = ey → exec (.setPixel sx sy c) s = .refused .offsetOverflow) ∧
        (∀ cs, exec (.setPixels sx sy ex ey cs) s = .refused .offsetOverflow) ∧
        (∀ cs, exec (.setPixelsBuffered sx sy ex ey cs) s = .refused .offsetOverflow) ∧
        (∀ bs, sx = 0 → sy = 0 → ex = s.width - 1 → ey = s.height - 1 →
          exec (.drawImage bs) s = .refused .offsetOverflow) ∧
        ∀ bs w h rows, regionShapeOk sx sy w h = true →
          regionRows s.width bs sx sy w h = some rows → ex = sx + w - 1 → ey = sy + h - 1 →
          exec (.showRegion bs sx sy w h) s = .refused .offsetOverflow

/-- 41_window R130, R132 (95_test_vectors S1): `set_offset(dx, dy)` then `set_address_window(sx, sy, ex, ey)` transmits the
column parameters `[sx+dx, ex+dx]` and the row parameters `[sy+dy, ey+dy]`, whatever the offsets were before. -/
def Obligations.OffsetThenWindowTransmitsSums : Prop :=
  ∀ (dx dy sx sy ex ey : Word) (s : State), HasPanel s → sx.toNat + dx.toNat ≤ 65535 → ex.toNat + dx.toNat ≤ 65535 →
    sy.toNat + dy.toNat ≤ 65535 → ey.toNat + dy.toNat ≤ 65535 → s.answersOk 12 = true →
    ∃ t, runProgram [.setOffset dx dy, .setAddressWindow sx sy ex ey] s = .next t ∧
      wireSince s t =
        codeOnWire s.params.codes.caset ++ dataOnWire (be16 (sx + dx) ++ be16 (ex + dx)) ++
          codeOnWire s.params.codes.raset ++ dataOnWire (be16 (sy + dy) ++ be16 (ey + dy))

/-- 41_window R136, 30_encoding R96: `set_orientation` sends the memory-access-control command with one byte, the
orientation's pattern on an RGB panel and the pattern OR 0x08 on a BGR panel, and stores nothing in the block. -/
def Obligations.SetOrientationSendsPattern : Prop :=
  ∀ (o : Orientation) (s : State), HasPanel s → s.answersOk 6 = true →
    ∃ t, exec (.setOrientation o) s = .next t ∧
      Completed s t
        (commandTransaction s.params.codes.madctl
          [match s.colorOrder with
            | .rgb => orientBits s.params o
            | .bgr => orientBits s.params o ||| 0x08]) ∧
      t.lines = { s.lines with ce := .held .inact, sel := .held .dat } ∧
      SameOffsets s t ∧ SameStraps s t ∧ SameStage s t ∧ t.ctrl = s.ctrl

/-- 41_window R137: on an RGB panel the byte sent is the pattern unchanged; on a BGR panel its bit 3 is always 1 and the
other bits are the pattern's. -/
def Obligations.OrientationBgrBit : Prop :=
  ∀ (o : Orientation) (s : State),
    (s.colorOrder = .rgb → madctlByte s o = orientBits s.params o) ∧
      (s.colorOrder = .bgr →
        ∀ n, n < 8 → (madctlByte s o).getLsbD n = if n = 3 then true else (orientBits s.params o).getLsbD n)

/-! Controller reset and register initialization. -/

/-- 43_init R170, 30_encoding R87: `hard_reset` performs the pulse, leaves `RST` high and `ctrl` Reset, and touches neither
`CE`, `SEL`, the bus, the offsets nor the straps. -/
def Obligations.HardResetPulses : Prop :=
  ∀ s : State, HasPanel s → s.answersOk 3 = true →
    ∃ t, exec .hardReset s = .next t ∧
      Completed s t [.rst .hi, .dly 10, .rst .lo, .dly 10, .rst .hi, .dly 10] ∧
      t.lines = { s.lines with rst := .held .hi } ∧ t.ctrl = .reset ∧ SameOffsets s t ∧ SameStraps s t ∧ SameStage s t

/-- 43_init R174: `init` performs the reset pulse, one command transaction per entry of `INIT_TABLE` in order, and the
200 ms wait, from any state of the block and of the link; `ctrl` is then Initialized and the offsets and straps are as
they were. -/
def Obligations.InitSendsTable : Prop :=
  ∀ s : State, HasPanel s →
    s.answersOk (asked (resetPulse ++ (initEntries s.params).flatMap entryEvents ++ [.dly 200])) = true →
    ∃ t, exec .init s = .next t ∧
      Completed s t (resetPulse ++ (initEntries s.params).flatMap entryEvents ++ [.dly 200]) ∧
      t.lines.rst = .held .hi ∧ t.lines.ce = .held .inact ∧
      t.lines.sel = (if s.params.init.disponParams = [] then .held .cmd else .held .dat) ∧
      t.ctrl = .initialized ∧ SameOffsets s t ∧ SameStraps s t ∧ SameStage s t

/-- 43_init R178: in every trace of `init`, whatever the environment answers: the first six events are those of the pulse,
as far as it gets; a bus write comes only after all six; and if it answers Ok, the last three command codes on the wire
are pixel-format set, sleep-out, display-on and the last event is the 200 ms wait. -/
def Obligations.InitOrder : Prop :=
  ∀ s t : State, exec .init s = .next t →
    (∀ n e a, n < 6 → (eventsSince s t)[n]? = some (e, a) → resetPulse[n]? = some e) ∧
    (∀ n bs a, (eventsSince s t)[n]? = some (.bus bs, a) →
      6 ≤ n ∧ (eventsSince s t).take 6 = allOk resetPulse) ∧
    (t.rsp = some .ok →
      (eventsSince s t).getLast? = some (.dly 200, .ok) ∧
        ∃ before, ((wireSince s t).filter fun w => decide (w.sel = .held .cmd)).map (·.byte) =
          before ++ [s.params.codes.colmod, s.params.codes.slpout, s.params.codes.dispon])

/-- 43_init R175: a failure anywhere in `init` ends it: TransactionFailure, `ctrl` Unknown, and no 200 ms wait. -/
def Obligations.FailedInitSkipsFinalWait : Prop :=
  ∀ s t : State, exec .init s = .next t → t.rsp = some .transactionFailure →
    t.ctrl = .unknown ∧ ∀ a, (.dly 200, a) ∉ eventsSince s t

/-- 43_init R181: `hard_reset` and `init` are the only operations that use the `DLY` port and the only ones that drive
`RST`. -/
def Obligations.OnlyResetOperationsDelayOrDriveReset : Prop :=
  ∀ (i : Instr) (s t : State), i ≠ .hardReset → i ≠ .init → exec i s = .next t →
    ∀ e a, (e, a) ∈ eventsSince s t → (∀ k, e ≠ .dly k) ∧ ∀ l, e ≠ .rst l

/-! Pixel and buffer streaming. -/

/-- 42_streaming R150: `set_pixel` sets the 1 by 1 window, issues memory-write, and writes one color word. -/
def Obligations.SetPixelSendsWindowAndColor : Prop :=
  ∀ (x y c : Word) (s : State) (win : Window), HasPanel s → windowOf s x y x y = some win → s.answersOk 20 = true →
    ∃ t, exec (.setPixel x y c) s = .next t ∧
      Completed s t (windowEvents s.params win ++ commandTransaction s.params.codes.ramwr [] ++ dataTransaction (be16 c)) ∧
      t.lines = { s.lines with ce := .held .inact, sel := .held .dat } ∧
      SameOffsets s t ∧ SameStraps s t ∧ SameStage s t ∧ t.ctrl = s.ctrl

/-- 42_streaming R152: `write_pixels` issues memory-write and then one data transaction of two bytes per color. -/
def Obligations.WritePixelsSendsOneTransactionPerColor : Prop :=
  ∀ (cs : List Word) (s : State), HasPanel s → s.answersOk (4 + 4 * cs.length) = true →
    ∃ t, exec (.writePixels cs) s = .next t ∧
      Completed s t
        (commandTransaction s.params.codes.ramwr [] ++ cs.flatMap fun c => dataTransaction [hi8 c, lo8 c]) ∧
      t.lines = { s.lines with ce := .held .inact, sel := if cs = [] then .held .cmd else .held .dat } ∧
      SameOffsets s t ∧ SameStraps s t ∧ SameStage s t ∧ t.ctrl = s.ctrl

/-- 42_streaming R154: `write_pixels_buffered` issues memory-write and then the flushes of `write_words_buffered`. -/
def Obligations.WritePixelsBufferedSendsFlushes : Prop :=
  ∀ (cs : List Word) (s : State), HasPanel s →
    s.answersOk (asked (memoryWriteEvents s.params ++ dataRuns (flushRuns s.params cs))) = true →
    ∃ t, exec (.writePixelsBuffered cs) s = .next t ∧
      Completed s t (commandTransaction s.params.codes.ramwr [] ++ dataRuns (flushRuns s.params cs)) ∧
      t.lines.ce = .held .inact ∧ t.lines.rst = s.lines.rst ∧
      SameOffsets s t ∧ SameStraps s t ∧ t.ctrl = s.ctrl

/-- 42_streaming R156: `set_pixels` sets its window, issues memory-write, and sends one data transaction per color. -/
def Obligations.SetPixelsSendsWindowAndColors : Prop :=
  ∀ (sx sy ex ey : Word) (cs : List Word) (s : State) (win : Window), HasPanel s → windowOf s sx sy ex ey = some win →
    s.answersOk (16 + 4 * cs.length) = true →
    ∃ t, exec (.setPixels sx sy ex ey cs) s = .next t ∧
      Completed s t
        (windowEvents s.params win ++ commandTransaction s.params.codes.ramwr [] ++
          cs.flatMap fun c => dataTransaction (be16 c)) ∧
      t.lines.ce = .held .inact ∧ t.lines.rst = s.lines.rst ∧
      SameOffsets s t ∧ SameStraps s t ∧ SameStage s t ∧ t.ctrl = s.ctrl

/-- 42_streaming R157: `set_pixels_buffered` sets its window, issues memory-write, and sends the flushes. -/
def Obligations.SetPixelsBufferedSendsWindowAndFlushes : Prop :=
  ∀ (sx sy ex ey : Word) (cs : List Word) (s : State) (win : Window), HasPanel s → windowOf s sx sy ex ey = some win →
    s.answersOk (16 + 4 * (flushRuns s.params cs).length) = true →
    ∃ t, exec (.setPixelsBuffered sx sy ex ey cs) s = .next t ∧
      Completed s t
        (windowEvents s.params win ++ commandTransaction s.params.codes.ramwr [] ++
          dataRuns (flushRuns s.params cs)) ∧
      t.lines.ce = .held .inact ∧ t.lines.rst = s.lines.rst ∧
      SameOffsets s t ∧ SameStraps s t ∧ t.ctrl = s.ctrl

/-- 42_streaming R158, R159: `draw_image` sets the window (0, 0, WIDTH-1, HEIGHT-1) with the offset added, issues
memory-write, and sends the buffer in chunks of 32 bytes, whatever its length. -/
def Obligations.DrawImageSendsChunks : Prop :=
  ∀ (bs : List Byte) (s : State) (win : Window), HasPanel s →
    windowOf s 0 0 (s.width - 1) (s.height - 1) = some win →
    s.answersOk (16 + 4 * ((bs.length + 31) / 32)) = true →
    ∃ t, exec (.drawImage bs) s = .next t ∧
      Completed s t
        (windowEvents s.params win ++ commandTransaction s.params.codes.ramwr [] ++ dataRuns (chunks bs)) ∧
      t.lines.ce = .held .inact ∧ t.lines.rst = s.lines.rst ∧
      SameOffsets s t ∧ SameStraps s t ∧ SameStage s t ∧ t.ctrl = s.ctrl

/-- 42_streaming R160, 30_encoding R97: `show` sends the literal bytes 00 00 00 EF for columns and for rows, memory-write,
and the whole buffer in one bus event, whatever the offsets and the panel's dimensions. -/
def Obligations.ShowSendsLiteralWindow : Prop :=
  ∀ (bs : List Byte) (s : State), HasPanel s → s.answersOk 20 = true →
    ∃ t, exec (.showFrame bs) s = .next t ∧
      Completed s t
        (commandTransaction s.params.codes.caset [0x00, 0x00, 0x00, 0xEF] ++
          commandTransaction s.params.codes.raset [0x00, 0x00, 0x00, 0xEF] ++
          commandTransaction s.params.codes.ramwr [] ++ dataTransaction bs) ∧
      t.lines = { s.lines with ce := .held .inact, sel := .held .dat } ∧
      SameOffsets s t ∧ SameStraps s t ∧ SameStage s t ∧ t.ctrl = s.ctrl

/-- 42_streaming R162, 30_encoding R98: `show_region` sets the window (x, y, x+w-1, y+h-1) with the offset added, issues
memory-write once, and sends row `r` as the buffer's bytes from `((y+r)*WIDTH + x)*2` on, `2*w` of them, in chunks that
restart at each row. -/
def Obligations.ShowRegionSendsRows : Prop :=
  ∀ (buf : List Byte) (x y w h : Word) (s : State) (win : Window), HasPanel s →
    1 ≤ w.toNat → 1 ≤ h.toNat → x.toNat + w.toNat - 1 ≤ 65535 → y.toNat + h.toNat - 1 ≤ 65535 →
    (∀ r, r < h.toNat → ((y.toNat + r) * s.width.toNat + x.toNat) * 2 + 2 * w.toNat ≤ buf.length) →
    windowOf s x y (x + w - 1) (y + h - 1) = some win →
    s.answersOk (16 + 4 * (h.toNat * ((2 * w.toNat + 31) / 32))) = true →
    ∃ t, exec (.showRegion buf x y w h) s = .next t ∧
      Completed s t
        (windowEvents s.params win ++ commandTransaction s.params.codes.ramwr [] ++
          (List.range h.toNat).flatMap fun r =>
            dataRuns (chunks ((buf.drop (((y.toNat + r) * s.width.toNat + x.toNat) * 2)).take (2 * w.toNat)))) ∧
      t.lines = { s.lines with ce := .held .inact, sel := .held .dat } ∧
      SameOffsets s t ∧ SameStraps s t ∧ SameStage s t ∧ t.ctrl = s.ctrl

/-- 42_streaming R162, R163, 20_memory R56: `show_region` with no column or no row, with a last column or row above 65535,
or with a row whose bytes do not lie inside the buffer is refused before any event. -/
def Obligations.ShowRegionRefusals : Prop :=
  ∀ (buf : List Byte) (x y w h : Word) (s : State), HasPanel s →
    ((w = 0 ∨ h = 0 ∨ 65535 < x.toNat + w.toNat - 1 ∨ 65535 < y.toNat + h.toNat - 1) →
      exec (.showRegion buf x y w h) s = .refused .regionShape) ∧
    (w ≠ 0 → h ≠ 0 → x.toNat + w.toNat - 1 ≤ 65535 → y.toNat + h.toNat - 1 ≤ 65535 →
      (∃ r, r < h.toNat ∧ buf.length < ((y.toNat + r) * s.width.toNat + x.toNat) * 2 + 2 * w.toNat) →
      exec (.showRegion buf x y w h) s = .refused .regionOutsideBuffer)

/-- 30_encoding R99: chunking loses nothing, no chunk is empty, every chunk but the last has 32 bytes, and the last has
what remains. -/
def Obligations.ChunksCutInto32 : Prop :=
  ∀ bs : List Byte,
    (chunks bs).flatten = bs ∧
      (chunks bs).map List.length =
        List.replicate (bs.length / 32) 32 ++ (if bs.length % 32 = 0 then [] else [bs.length % 32])

/-- 42_streaming R155, R157: with every event answered ok, the buffered pixel operations have the wire view of the
unbuffered ones. -/
def Obligations.BufferedPixelsEqualUnbuffered : Prop :=
  ∀ (sx sy ex ey : Word) (cs : List Word) (s : State), HasPanel s → s.answersOk (16 + 4 * cs.length) = true →
    s.answersOk (16 + 4 * (flushRuns s.params cs).length) = true →
    (∃ t u, exec (.writePixels cs) s = .next t ∧ exec (.writePixelsBuffered cs) s = .next u ∧
      wireSince s t = wireSince s u ∧ t.sink = u.sink) ∧
    ∀ win, windowOf s sx sy ex ey = some win →
      ∃ t u, exec (.setPixels sx sy ex ey cs) s = .next t ∧ exec (.setPixelsBuffered sx sy ex ey cs) s = .next u ∧
        wireSince s t = wireSince s u ∧ t.sink = u.sink

/-- 42_streaming R164: for a buffer of `WIDTH*HEIGHT*2` bytes and every event answered ok, the whole-panel `show_region`
has the wire view of `draw_image`. -/
def Obligations.WholePanelRegionEqualsDrawImage : Prop :=
  ∀ (buf : List Byte) (s : State) (win : Window), HasPanel s →
    buf.length = s.width.toNat * s.height.toNat * 2 → windowOf s 0 0 (s.width - 1) (s.height - 1) = some win →
    s.answersOk (16 + 4 * (s.height.toNat * ((2 * s.width.toNat + 31) / 32))) = true →
    s.answersOk (16 + 4 * ((buf.length + 31) / 32)) = true →
    ∃ t u, exec (.showRegion buf 0 0 s.width s.height) s = .next t ∧ exec (.drawImage buf) s = .next u ∧
      wireSince s t = wireSince s u ∧ t.sink = u.sink

/-- 42_streaming R161, last clause: with offsets (0, 0) and a 240 by 240 panel, and every event answered ok, `show` has
the wire view of `draw_image`; with the window of `draw_image` any other, the wire views differ. -/
def Obligations.ShowEqualsDrawImageOnlyAtOrigin : Prop :=
  ∀ (buf : List Byte) (s : State) (win : Window), HasPanel s →
    windowOf s 0 0 (s.width - 1) (s.height - 1) = some win → s.answersOk 20 = true →
    s.answersOk (16 + 4 * ((buf.length + 31) / 32)) = true →
    ∃ t u, exec (.showFrame buf) s = .next t ∧ exec (.drawImage buf) s = .next u ∧
      (wireSince s t = wireSince s u ↔ s.offsetX = 0 ∧ s.offsetY = 0 ∧ s.width = 240 ∧ s.height = 240)

/-- 30_encoding R103: with every event answered ok, a composed operation (but for `init`, whose last step is a wait of its
own) leaves the trace, the lines, the registers, the response and the controller exactly as its expansion, requested one
operation at a time. -/
def Obligations.ComposedOperationsEqualExpansions : Prop :=
  ∀ (i : Instr) (s : State) (es : List Event), eventsOf s i = some es → s.answersOk (asked es) = true →
    ∃ t u, exec i s = .next t ∧ runProgram (expansion s i) s = .next u ∧
      t.trace = u.trace ∧ t.lines = u.lines ∧ t.sink = u.sink ∧ t.ctrl = u.ctrl ∧ SameOffsets t u ∧ SameStraps t u ∧
      t.rsp = u.rsp

/-! The command-code rows. -/

/-- 30_encoding R84, R90, R93: CASET, RASET, RAMWR, MADCTL, COLMOD, SLPOUT, DISPON, RDDID, RDDST, RAMRD, RDID1, RDID2,
RDID3 and RDID4, made by the host, are each the command transaction with that code and those parameter bytes, as
`write_command` of the code makes it (log 11, log 12). -/
def Obligations.CommandRowsSendTheirCode : Prop :=
  ∀ (i : Instr) (s : State) (code : Byte) (ps : List Byte), HasPanel s → commandRow s.params i = some (code, ps) →
    s.answersOk (asked (commandTransaction code ps)) = true →
    ∃ t, exec i s = .next t ∧ exec (.writeCommand code ps) s = .next t ∧ Completed s t (commandTransaction code ps) ∧
      t.lines = { s.lines with ce := .held .inact, sel := if ps = [] then .held .cmd else .held .dat } ∧
      SameOffsets s t ∧ SameStraps s t ∧ SameStage s t ∧ t.ctrl = s.ctrl

/-- 30_encoding R92, 43_init R173 (c): no operation but a `write_command` of a read code, or a host's own request for one
of the seven read-code rows, ever puts a read code on the wire as a command code, for an instance whose fourteen codes are
distinct and whose table is admissible, whatever the environment answers. -/
def Obligations.ReadCodesNeverIssued : Prop :=
  ∀ (i : Instr) (s t : State), s.params.wf = true → s.params.codesApart = true → exec i s = .next t →
    (∀ op ps, i ≠ .writeCommand op ps) → i ∉ [.rddid, .rddst, .ramrd, .rdid1, .rdid2, .rdid3, .rdid4] →
    ∀ w ∈ wireSince s t, w.sel = .held .cmd → w.byte ∉ readCodeList s.params.reads

/-! The whole machine. -/

/-- 60_exceptions R195, R196, 20_memory R62 (a): every operation that responds has emitted its step list, in order: all of
it, each event answered ok, and then the response is Ok; or up to an event answered fail, which is the last, and then the
response is TransactionFailure. The latches are what those events leave (R197). -/
def Obligations.EveryRunFollowsItsStepList : Prop :=
  ∀ (i : Instr) (s t : State) (es : List Event), eventsOf s i = some es → exec i s = .next t →
    t.seq = .idle ∧ t.lines = s.lines.replay (eventsSince s t) ∧ t.trace = s.trace ++ eventsSince s t ∧
      ((t.rsp = some .ok ∧ eventsSince s t = allOk es) ∨
        (t.rsp = some .transactionFailure ∧
          ∃ pre e post, es = pre ++ e :: post ∧ eventsSince s t = allOk pre ++ [(e, .fail)]))

/-- 60_exceptions R195, R212, 70_reset R245: how the operation ends is settled by the answers alone: all ok, it responds
Ok; a first fail, TransactionFailure; a first event never answered, no response. -/
def Obligations.AnswersDecideTheEnd : Prop :=
  ∀ (i : Instr) (s : State) (es : List Event), eventsOf s i = some es →
    (s.answersOk (asked es) = true → ∃ t, exec i s = .next t ∧ t.rsp = some .ok) ∧
      ∀ n, n < asked es → s.answersOk n = true →
        (s.replyAt n = .answered .fail → ∃ t, exec i s = .next t ∧ t.rsp = some .transactionFailure) ∧
          (s.replyAt n = .silent → exec i s = .fault .unanswered)

/-- 60_exceptions R192, R193, 70_reset R224: a request is refused exactly where the rules refuse it, whatever `ctrl`, the
lines, the trace or the environment: never for a privilege, an order, a length or a code. On an instance without a panel
every request is refused, which the model reads into R193 (log 23, DEDUCED); on one with a panel, exactly an offset sum above
65535, a bad region shape, or a row outside the buffer. -/
def Obligations.RefusedExactlyWhereTheRulesSay : Prop :=
  (∀ (i : Instr) (s : State), (∃ r, exec i s = .refused r) ↔ eventsOf s i = none) ∧
    (∀ (i : Instr) (s : State), s.width = 0 ∨ s.height = 0 → exec i s = .refused .zeroDimension) ∧
    ∀ (i : Instr) (s : State), HasPanel s → ((∃ r, exec i s = .refused r) ↔
      ((∃ sx sy ex ey, (65535 < sx.toNat + s.offsetX.toNat ∨ 65535 < ex.toNat + s.offsetX.toNat ∨
          65535 < sy.toNat + s.offsetY.toNat ∨ 65535 < ey.toNat + s.offsetY.toNat) ∧
        (i = .setAddressWindow sx sy ex ey ∨ (∃ c, i = .setPixel sx sy c ∧ sx = ex ∧ sy = ey) ∨
          (∃ cs, i = .setPixels sx sy ex ey cs) ∨ ∃ cs, i = .setPixelsBuffered sx sy ex ey cs)) ∨
        (∃ bs, i = .drawImage bs ∧ windowOf s 0 0 (s.width - 1) (s.height - 1) = none) ∨
        ∃ bs x y w h, i = .showRegion bs x y w h ∧
          (regionShapeOk x y w h = false ∨ regionRows s.width bs x y w h = none ∨
            windowOf s x y (x + w - 1) (y + h - 1) = none)))

/-- 10_state R21, R26, R27, R20, 60_exceptions R197: only `set_offset` writes an offset register, and nothing writes a
strap or a parameter, whether the operation answers Ok or TransactionFailure; only the buffered operations write the
staging buffer. -/
def Obligations.RegistersWrittenOnlyByTheirOperations : Prop :=
  ∀ (i : Instr) (s t : State), exec i s = .next t →
    SameStraps s t ∧ t.reqs = s.reqs ∧ ((∀ dx dy, i ≠ .setOffset dx dy) → SameOffsets s t) ∧
      ((∀ ws, i ≠ .writeWordsBuffered ws) → (∀ cs, i ≠ .writePixelsBuffered cs) →
        (∀ sx sy ex ey cs, i ≠ .setPixelsBuffered sx sy ex ey cs) → SameStage s t)

/-- 10_state R34: which operation leaves which line alone, whatever the environment answers: `set_offset` all three,
`begin_data` all but `SEL`, `hard_reset` all but `RST`, and every operation but `hard_reset` and `init` leaves `RST`. -/
def Obligations.LinesDrivenOnlyByTheirOperations : Prop :=
  ∀ (i : Instr) (s t : State), exec i s = .next t →
    (i ≠ .hardReset → i ≠ .init → t.lines.rst = s.lines.rst) ∧
      (i = .hardReset → t.lines.sel = s.lines.sel ∧ t.lines.ce = s.lines.ce) ∧
      (i = .beginData → t.lines.ce = s.lines.ce) ∧
      ((∃ dx dy, i = .setOffset dx dy) → t.lines = s.lines)

/-- 10_state R40, 60_exceptions R197, R198: the transitions of the ghost `ctrl`: a TransactionFailure makes it Unknown, and
then nothing is known of the controller, no window, no position, no byte of its frame memory; `hard_reset` with Ok makes
it Reset, `init` with Ok makes it Initialized, every other success leaves it; and after those two, as after a failure,
nothing is known of the controller (43_init R171, R176; that the model forgets at every change of `ctrl` is log 22). -/
def Obligations.CtrlTransitions : Prop :=
  ∀ (i : Instr) (s t : State), exec i s = .next t →
    (t.rsp = some .transactionFailure →
        t.ctrl = .unknown ∧ t.sink.knowsNothing = true ∧ ∀ a, t.sink.mem.read a = none) ∧
      (t.rsp = some .ok →
        t.ctrl = if i = .hardReset then .reset else if i = .init then .initialized else s.ctrl) ∧
      (i = .hardReset ∨ i = .init → t.sink.knowsNothing = true)

/-- 10_state R32, R40, R42, R25, 60_exceptions R199: no operation reads a line latch, the ghost `ctrl`, the trace, an
earlier response, the staging buffer's old contents, or anything of the controller: from two states that agree on the
offsets, the straps, the parameters and the environment's answers (those listed, and how many it has given: log 4), every
operation ends the same way, emits the same events with the same answers, and gives the same response. -/
def Obligations.NothingReadsLatchesOrGhosts : Prop :=
  ∀ (i : Instr) (s s' : State), SameOffsets s s' → SameStraps s s' → s'.replies = s.replies → s'.asks = s.asks →
    (∀ t, exec i s = .next t → ∃ t', exec i s' = .next t' ∧ eventsSince s' t' = eventsSince s t ∧ t'.rsp = t.rsp ∧
        t'.replies = t.replies ∧ t'.asks = t.asks ∧ SameOffsets t t') ∧
      (∀ f, exec i s = .fault f → exec i s' = .fault f) ∧ ∀ r, exec i s = .refused r → exec i s' = .refused r

/-- 30_encoding R89, R88: whatever the lines were before and whatever the environment answers, no operation ever has a
byte taken while `CE` is not active, nor while the level of `SEL` is not known; and no bus write carries more than one
byte at the command level. -/
def Obligations.EveryByteUnderChipEnable : Prop :=
  ∀ (i : Instr) (s t : State), exec i s = .next t →
    (∀ w ∈ wireSince s t, w.ce = .held .act ∧ (w.sel = .held .cmd ∨ w.sel = .held .dat)) ∧
      ∀ pre bs a post, eventsSince s t = pre ++ (.bus bs, a) :: post →
        (s.lines.replay pre).sel = .held .cmd → bs.length = 1

/-- 10_state R24, R30, R32, R44, 00_scope R7, R9, 20_memory R68: the invariant holds at reset, and at every construction
with non-zero dimensions and well-formed parameters. -/
def Obligations.InvariantAtReset : Prop :=
  Inv State.reset ∧
    ∀ (p : Params) (co : ColorOrder) (w h : Word), p.wf = true → w ≠ 0 → h ≠ 0 → Inv (State.construct p co w h)

/-- 10_state R24, R30, R32, 20_memory R68 to R70: every step from any state that meets the invariant leads to a state that
meets it. -/
def Obligations.StepKeepsInvariant : Prop := ∀ s t : State, Inv s → step s = .next t → Inv t

/-! The controller as the block relies on it. -/

/-- 20_memory R68, 00_scope R12: while `ctrl` is Initialized, what the controller knows after an operation that answers Ok
is settled by the wire view alone, byte by byte. While it is not, R68 says nothing of what a byte does; that each then leaves
nothing known of the controller is the model's reading (log 22). -/
def Obligations.ControllerHearsTheWireView : Prop :=
  ∀ (i : Instr) (s t : State), i ≠ .hardReset → i ≠ .init → exec i s = .next t → t.rsp = some .ok →
    t.sink = (wireSince s t).foldl
      (fun k w => if s.ctrl = .initialized then Sink.hear s.params k w else k.forgetAll) s.sink

/-- 20_memory R69: after `set_address_window` the controller has latched the columns and the rows sent (a span that is not
inverted; an inverted one is not known, R74, log 18), after CASET or RASET the one sent, the other register as it was;
no byte of its frame memory has changed. -/
def Obligations.WindowCommandsLatch : Prop :=
  (∀ (sx sy ex ey : Word) (s t : State) (win : Window), s.ctrl = .initialized → s.params.wf = true →
      windowOf s sx sy ex ey = some win → exec (.setAddressWindow sx sy ex ey) s = .next t → t.rsp = some .ok →
      t.sink.col = (if win.cols.first.toNat ≤ win.cols.last.toNat then .held win.cols else .unknown) ∧
        t.sink.row = (if win.rows.first.toNat ≤ win.rows.last.toNat then .held win.rows else .unknown) ∧
        t.sink.access = s.sink.access ∧ SameFrame s t) ∧
    (∀ (a b : Word) (s t : State), s.ctrl = .initialized → s.params.wf = true → exec (.caset a b) s = .next t →
      t.rsp = some .ok →
      t.sink.col = (if a.toNat ≤ b.toNat then .held { first := a, last := b } else .unknown) ∧
        t.sink.row = s.sink.row ∧ t.sink.access = s.sink.access ∧ SameFrame s t) ∧
    ∀ (a b : Word) (s t : State), s.ctrl = .initialized → s.params.wf = true → exec (.raset a b) s = .next t →
      t.rsp = some .ok →
      t.sink.row = (if a.toNat ≤ b.toNat then .held { first := a, last := b } else .unknown) ∧
        t.sink.col = s.sink.col ∧ t.sink.access = s.sink.access ∧ SameFrame s t

/-- 20_memory R70, R72: a memory-write command puts the write position at the latched window's first pixel; the window's
pixels hold any value from then on and every byte outside it is as it was. -/
def Obligations.MemoryWriteStartsAtWindow : Prop :=
  ∀ (s t : State) (win : Window), s.ctrl = .initialized → s.params.wf = true → s.sink.window = some win →
    exec .ramwr s = .next t → t.rsp = some .ok →
    t.sink.cmd = .writing win win.cols.first win.rows.first none ∧ SameFrameOutside win s t ∧
      (∀ a, inWindow win a = true → t.sink.mem.read a = none) ∧ SameSinkRegisters s t

/-- 20_memory R70: a word written while the controller stands at a pixel lands in that pixel, high byte first; every other
byte of the frame memory is as it was; the position advances, at the last column to the first column of the next row. -/
def Obligations.WriteWordWritesOnePixel : Prop :=
  ∀ (w : Word) (s t : State) (win : Window) (c r : Word), s.ctrl = .initialized →
    s.sink.cmd = .writing win c r none → exec (.writeWord w) s = .next t → t.rsp = some .ok →
    t.sink.mem.pixel c r = some w ∧
      (∀ a, a ≠ pixelAddr c r → a ≠ pixelAddr c r + 1 → t.sink.mem.read a = s.sink.mem.read a) ∧
      SameSinkRegisters s t ∧
      t.sink.cmd =
        (if c = win.cols.last then
          if r = win.rows.last then .full else .writing win win.cols.first (r + 1) none
        else .writing win (c + 1) r none)

/-- 20_memory R70, R71, R73, R75: `write_data`, `write_word` and `write_words_buffered` go on with a memory write in progress.
Standing at the window's `n`-th pixel, perhaps with that pixel's high byte already sent, and with no more bytes than the window
holds: the words land in that pixel and the ones after it in row-major order, the pixel an odd last byte begins holds any value
until its second byte has come, every other byte of the frame memory is as it was, and the write stands after the last byte.
With a byte more than that, or with the window full already or the place lost, nothing is known of the frame memory from then
on. That a pixel holds any value between its two bytes is log 16; that the first byte beyond the window counts, and what those
after it do, is log 17; that bytes of a command not known leave nothing known of the controller is log 22. -/
def Obligations.DataContinuesMemoryWrite : Prop :=
  ∀ (i : Instr) (s t : State) (bs : List Byte), s.ctrl = .initialized → dataBytes i = some bs → exec i s = .next t →
    t.rsp = some .ok →
    (∀ (win : Window) (n : Nat) (half : Option Byte) (ws : List Word) (odd : List Byte), win.upright = true →
      n < win.count → s.sink.cmd = .writing win (win.colAt n) (win.rowAt n) half →
      half.toList ++ bs = ws.flatMap be16 ++ odd → odd.length ≤ 1 → n + ws.length + odd.length ≤ win.count →
      (∀ k (hk : k < ws.length), t.sink.mem.pixel (win.colAt (n + k)) (win.rowAt (n + k)) = some ws[k]) ∧
        (odd ≠ [] → bs ≠ [] → ∀ a, a = pixelAddr (win.colAt (n + ws.length)) (win.rowAt (n + ws.length)) ∨
          a = pixelAddr (win.colAt (n + ws.length)) (win.rowAt (n + ws.length)) + 1 → t.sink.mem.read a = none) ∧
        (∀ a, (∀ k, k < ws.length + odd.length →
            a ≠ pixelAddr (win.colAt (n + k)) (win.rowAt (n + k)) ∧
              a ≠ pixelAddr (win.colAt (n + k)) (win.rowAt (n + k)) + 1) → t.sink.mem.read a = s.sink.mem.read a) ∧
        SameSinkRegisters s t ∧
        t.sink.cmd = (if n + ws.length = win.count then .full
          else .writing win (win.colAt (n + ws.length)) (win.rowAt (n + ws.length)) odd.head?)) ∧
    ((∃ (win : Window) (n : Nat) (half : Option Byte), win.upright = true ∧ n < win.count ∧
          s.sink.cmd = .writing win (win.colAt n) (win.rowAt n) half ∧
          2 * (win.count - n) < half.toList.length + bs.length) ∨
        ((s.sink.cmd = .full ∨ s.sink.cmd = .lost) ∧ bs ≠ []) →
      (∀ a, t.sink.mem.read a = none) ∧ t.sink.cmd = .lost ∧ SameSinkRegisters s t) ∧
    (s.sink.cmd = .unknown → bs ≠ [] → t.sink.knowsNothing = true)

/-- 20_memory R70, R71, R72, R75: `set_pixel`, `write_pixels`, `write_pixels_buffered`, `set_pixels`,
`set_pixels_buffered`, `draw_image`, `show` and `show_region` into a window that is not inverted, streaming `ws` (and
perhaps one odd byte more) and no more than the window holds: the `k`-th word is in the window's `k`-th pixel in row-major
order, every pixel of the window not reached holds any value, and every byte outside the window is as it was. -/
def Obligations.StreamFillsWindowRowMajor : Prop :=
  ∀ (i : Instr) (s t : State) (win : Window) (ws : List Word) (odd : List Byte), s.ctrl = .initialized →
    s.params.wf = true → windowWritten s i = some win → win.upright = true →
    streamed s i = some (ws.flatMap be16 ++ odd) → odd.length ≤ 1 → ws.length + odd.length ≤ win.count →
    exec i s = .next t → t.rsp = some .ok →
    (∀ k (hk : k < ws.length), t.sink.mem.pixel (win.colAt k) (win.rowAt k) = some ws[k]) ∧
      (∀ k, ws.length ≤ k → k < win.count → t.sink.mem.pixel (win.colAt k) (win.rowAt k) = none) ∧
      SameFrameOutside win s t ∧ t.sink.window = some win ∧ t.sink.access = s.sink.access

/-- 20_memory R73, R74, 42_streaming R153: the same operations streaming more bytes than the window holds, or into an
inverted window, or for `write_pixels` and `write_pixels_buffered` with no window known, leave nothing known of the frame
memory. -/
def Obligations.BadStreamLosesFrame : Prop :=
  ∀ (i : Instr) (s t : State) (bs : List Byte), s.ctrl = .initialized → s.params.wf = true →
    streamed s i = some bs → exec i s = .next t → t.rsp = some .ok →
    ((∃ win, windowWritten s i = some win ∧ win.upright = true ∧ 2 * win.count < bs.length) ∨
      (∃ win, windowSet s i = some win ∧ win.upright = false) ∨ windowWritten s i = none) →
    ∀ a, t.sink.mem.read a = none

/-- 20_memory R76, U12: after `set_orientation`, or MADCTL, nothing is known of the frame memory under the new value; the
latched window and the block's own registers stay (log 20), and the controller holds the byte sent. -/
def Obligations.OrientationForgetsFrame : Prop :=
  ∀ (i : Instr) (v : Byte) (s t : State), s.ctrl = .initialized → s.params.wf = true →
    (i = .madctl v ∨ ∃ o, i = .setOrientation o ∧ v = madctlByte s o) →
    exec i s = .next t → t.rsp = some .ok →
    (∀ a, t.sink.mem.read a = none) ∧ t.sink.access = .held v ∧ t.sink.col = s.sink.col ∧
      t.sink.row = s.sink.row ∧ SameOffsets s t ∧ SameStraps s t

/-- 41_window R131, 70_reset R236: `set_offset` does not move a window the controller has latched: a `write_pixels` after
it has the wire view and leaves the controller that it has and leaves without it. -/
def Obligations.OffsetDoesNotMoveLatchedWindow : Prop :=
  ∀ (dx dy : Word) (cs : List Word) (s : State), HasPanel s → s.answersOk (4 + 4 * cs.length) = true →
    ∃ t u, runProgram [.setOffset dx dy, .writePixels cs] s = .next t ∧ exec (.writePixels cs) s = .next u ∧
      t.trace = u.trace ∧ t.sink = u.sink ∧ t.offsetX = dx ∧ t.offsetY = dy
end

