-- ==== Sys2Proof/Laws/State.lean ====
section
/-! SUPPORT. One lemma per field of State per named update: what the update does to the field. Every later proof uses these and unfolds no update. -/

namespace Sys2Proof.Machine

variable (s : State)

@[simp] theorem State.popReply_offsetX : s.popReply.offsetX = s.offsetX := rfl
@[simp] theorem State.popReply_offsetY : s.popReply.offsetY = s.offsetY := rfl
@[simp] theorem State.popReply_colorOrder : s.popReply.colorOrder = s.colorOrder := rfl
@[simp] theorem State.popReply_width : s.popReply.width = s.width := rfl
@[simp] theorem State.popReply_height : s.popReply.height = s.height := rfl
@[simp] theorem State.popReply_params : s.popReply.params = s.params := rfl
@[simp] theorem State.popReply_lines : s.popReply.lines = s.lines := rfl
@[simp] theorem State.popReply_stage : s.popReply.stage = s.stage := rfl
@[simp] theorem State.popReply_fill : s.popReply.fill = s.fill := rfl
@[simp] theorem State.popReply_seq : s.popReply.seq = s.seq := rfl
@[simp] theorem State.popReply_ctrl : s.popReply.ctrl = s.ctrl := rfl
@[simp] theorem State.popReply_trace : s.popReply.trace = s.trace := rfl
@[simp] theorem State.popReply_rsp : s.popReply.rsp = s.rsp := rfl
@[simp] theorem State.popReply_sink : s.popReply.sink = s.sink := rfl
@[simp] theorem State.popReply_replies : s.popReply.replies = s.replies.tail := rfl
@[simp] theorem State.popReply_asks : s.popReply.asks = s.asks + 1 := rfl
@[simp] theorem State.popReply_reqs : s.popReply.reqs = s.reqs := rfl

@[simp] theorem State.record_offsetX (e : Event) (a : Answer) : (s.record e a).offsetX = s.offsetX := rfl
@[simp] theorem State.record_offsetY (e : Event) (a : Answer) : (s.record e a).offsetY = s.offsetY := rfl
@[simp] theorem State.record_colorOrder (e : Event) (a : Answer) : (s.record e a).colorOrder = s.colorOrder := rfl
@[simp] theorem State.record_width (e : Event) (a : Answer) : (s.record e a).width = s.width := rfl
@[simp] theorem State.record_height (e : Event) (a : Answer) : (s.record e a).height = s.height := rfl
@[simp] theorem State.record_params (e : Event) (a : Answer) : (s.record e a).params = s.params := rfl
@[simp] theorem State.record_lines (e : Event) (a : Answer) : (s.record e a).lines = s.lines := rfl
@[simp] theorem State.record_stage (e : Event) (a : Answer) : (s.record e a).stage = s.stage := rfl
@[simp] theorem State.record_fill (e : Event) (a : Answer) : (s.record e a).fill = s.fill := rfl
@[simp] theorem State.record_seq (e : Event) (a : Answer) : (s.record e a).seq = s.seq.advance := rfl
@[simp] theorem State.record_ctrl (e : Event) (a : Answer) : (s.record e a).ctrl = s.ctrl := rfl
@[simp] theorem State.record_trace (e : Event) (a : Answer) : (s.record e a).trace = s.trace ++ [(e, a)] := rfl
@[simp] theorem State.record_rsp (e : Event) (a : Answer) : (s.record e a).rsp = s.rsp := rfl
@[simp] theorem State.record_sink (e : Event) (a : Answer) : (s.record e a).sink = s.sink := rfl
@[simp] theorem State.record_replies (e : Event) (a : Answer) : (s.record e a).replies = s.replies := rfl
@[simp] theorem State.record_asks (e : Event) (a : Answer) : (s.record e a).asks = s.asks := rfl
@[simp] theorem State.record_reqs (e : Event) (a : Answer) : (s.record e a).reqs = s.reqs := rfl

@[simp] theorem State.setSel_offsetX (l : Latch SelLevel) : (s.setSel l).offsetX = s.offsetX := rfl
@[simp] theorem State.setSel_offsetY (l : Latch SelLevel) : (s.setSel l).offsetY = s.offsetY := rfl
@[simp] theorem State.setSel_colorOrder (l : Latch SelLevel) : (s.setSel l).colorOrder = s.colorOrder := rfl
@[simp] theorem State.setSel_width (l : Latch SelLevel) : (s.setSel l).width = s.width := rfl
@[simp] theorem State.setSel_height (l : Latch SelLevel) : (s.setSel l).height = s.height := rfl
@[simp] theorem State.setSel_params (l : Latch SelLevel) : (s.setSel l).params = s.params := rfl
@[simp] theorem State.setSel_lines (l : Latch SelLevel) : (s.setSel l).lines = { s.lines with sel := l } := rfl
@[simp] theorem State.setSel_stage (l : Latch SelLevel) : (s.setSel l).stage = s.stage := rfl
@[simp] theorem State.setSel_fill (l : Latch SelLevel) : (s.setSel l).fill = s.fill := rfl
@[simp] theorem State.setSel_seq (l : Latch SelLevel) : (s.setSel l).seq = s.seq := rfl
@[simp] theorem State.setSel_ctrl (l : Latch SelLevel) : (s.setSel l).ctrl = s.ctrl := rfl
@[simp] theorem State.setSel_trace (l : Latch SelLevel) : (s.setSel l).trace = s.trace := rfl
@[simp] theorem State.setSel_rsp (l : Latch SelLevel) : (s.setSel l).rsp = s.rsp := rfl
@[simp] theorem State.setSel_sink (l : Latch SelLevel) : (s.setSel l).sink = s.sink := rfl
@[simp] theorem State.setSel_replies (l : Latch SelLevel) : (s.setSel l).replies = s.replies := rfl
@[simp] theorem State.setSel_asks (l : Latch SelLevel) : (s.setSel l).asks = s.asks := rfl
@[simp] theorem State.setSel_reqs (l : Latch SelLevel) : (s.setSel l).reqs = s.reqs := rfl

@[simp] theorem State.setCe_offsetX (l : Latch CeLevel) : (s.setCe l).offsetX = s.offsetX := rfl
@[simp] theorem State.setCe_offsetY (l : Latch CeLevel) : (s.setCe l).offsetY = s.offsetY := rfl
@[simp] theorem State.setCe_colorOrder (l : Latch CeLevel) : (s.setCe l).colorOrder = s.colorOrder := rfl
@[simp] theorem State.setCe_width (l : Latch CeLevel) : (s.setCe l).width = s.width := rfl
@[simp] theorem State.setCe_height (l : Latch CeLevel) : (s.setCe l).height = s.height := rfl
@[simp] theorem State.setCe_params (l : Latch CeLevel) : (s.setCe l).params = s.params := rfl
@[simp] theorem State.setCe_lines (l : Latch CeLevel) : (s.setCe l).lines = { s.lines with ce := l } := rfl
@[simp] theorem State.setCe_stage (l : Latch CeLevel) : (s.setCe l).stage = s.stage := rfl
@[simp] theorem State.setCe_fill (l : Latch CeLevel) : (s.setCe l).fill = s.fill := rfl
@[simp] theorem State.setCe_seq (l : Latch CeLevel) : (s.setCe l).seq = s.seq := rfl
@[simp] theorem State.setCe_ctrl (l : Latch CeLevel) : (s.setCe l).ctrl = s.ctrl := rfl
@[simp] theorem State.setCe_trace (l : Latch CeLevel) : (s.setCe l).trace = s.trace := rfl
@[simp] theorem State.setCe_rsp (l : Latch CeLevel) : (s.setCe l).rsp = s.rsp := rfl
@[simp] theorem State.setCe_sink (l : Latch CeLevel) : (s.setCe l).sink = s.sink := rfl
@[simp] theorem State.setCe_replies (l : Latch CeLevel) : (s.setCe l).replies = s.replies := rfl
@[simp] theorem State.setCe_asks (l : Latch CeLevel) : (s.setCe l).asks = s.asks := rfl
@[simp] theorem State.setCe_reqs (l : Latch CeLevel) : (s.setCe l).reqs = s.reqs := rfl

@[simp] theorem State.setRst_offsetX (l : Latch RstLevel) : (s.setRst l).offsetX = s.offsetX := rfl
@[simp] theorem State.setRst_offsetY (l : Latch RstLevel) : (s.setRst l).offsetY = s.offsetY := rfl
@[simp] theorem State.setRst_colorOrder (l : Latch RstLevel) : (s.setRst l).colorOrder = s.colorOrder := rfl
@[simp] theorem State.setRst_width (l : Latch RstLevel) : (s.setRst l).width = s.width := rfl
@[simp] theorem State.setRst_height (l : Latch RstLevel) : (s.setRst l).height = s.height := rfl
@[simp] theorem State.setRst_params (l : Latch RstLevel) : (s.setRst l).params = s.params := rfl
@[simp] theorem State.setRst_lines (l : Latch RstLevel) : (s.setRst l).lines = { s.lines with rst := l } := rfl
@[simp] theorem State.setRst_stage (l : Latch RstLevel) : (s.setRst l).stage = s.stage := rfl
@[simp] theorem State.setRst_fill (l : Latch RstLevel) : (s.setRst l).fill = s.fill := rfl
@[simp] theorem State.setRst_seq (l : Latch RstLevel) : (s.setRst l).seq = s.seq := rfl
@[simp] theorem State.setRst_ctrl (l : Latch RstLevel) : (s.setRst l).ctrl = s.ctrl := rfl
@[simp] theorem State.setRst_trace (l : Latch RstLevel) : (s.setRst l).trace = s.trace := rfl
@[simp] theorem State.setRst_rsp (l : Latch RstLevel) : (s.setRst l).rsp = s.rsp := rfl
@[simp] theorem State.setRst_sink (l : Latch RstLevel) : (s.setRst l).sink = s.sink := rfl
@[simp] theorem State.setRst_replies (l : Latch RstLevel) : (s.setRst l).replies = s.replies := rfl
@[simp] theorem State.setRst_asks (l : Latch RstLevel) : (s.setRst l).asks = s.asks := rfl
@[simp] theorem State.setRst_reqs (l : Latch RstLevel) : (s.setRst l).reqs = s.reqs := rfl

@[simp] theorem State.setSink_offsetX (k : Sink) : (s.setSink k).offsetX = s.offsetX := rfl
@[simp] theorem State.setSink_offsetY (k : Sink) : (s.setSink k).offsetY = s.offsetY := rfl
@[simp] theorem State.setSink_colorOrder (k : Sink) : (s.setSink k).colorOrder = s.colorOrder := rfl
@[simp] theorem State.setSink_width (k : Sink) : (s.setSink k).width = s.width := rfl
@[simp] theorem State.setSink_height (k : Sink) : (s.setSink k).height = s.height := rfl
@[simp] theorem State.setSink_params (k : Sink) : (s.setSink k).params = s.params := rfl
@[simp] theorem State.setSink_lines (k : Sink) : (s.setSink k).lines = s.lines := rfl
@[simp] theorem State.setSink_stage (k : Sink) : (s.setSink k).stage = s.stage := rfl
@[simp] theorem State.setSink_fill (k : Sink) : (s.setSink k).fill = s.fill := rfl
@[simp] theorem State.setSink_seq (k : Sink) : (s.setSink k).seq = s.seq := rfl
@[simp] theorem State.setSink_ctrl (k : Sink) : (s.setSink k).ctrl = s.ctrl := rfl
@[simp] theorem State.setSink_trace (k : Sink) : (s.setSink k).trace = s.trace := rfl
@[simp] theorem State.setSink_rsp (k : Sink) : (s.setSink k).rsp = s.rsp := rfl
@[simp] theorem State.setSink_sink (k : Sink) : (s.setSink k).sink = k := rfl
@[simp] theorem State.setSink_replies (k : Sink) : (s.setSink k).replies = s.replies := rfl
@[simp] theorem State.setSink_asks (k : Sink) : (s.setSink k).asks = s.asks := rfl
@[simp] theorem State.setSink_reqs (k : Sink) : (s.setSink k).reqs = s.reqs := rfl

@[simp] theorem State.setCtrl_offsetX (c : Ctrl) : (s.setCtrl c).offsetX = s.offsetX := rfl
@[simp] theorem State.setCtrl_offsetY (c : Ctrl) : (s.setCtrl c).offsetY = s.offsetY := rfl
@[simp] theorem State.setCtrl_colorOrder (c : Ctrl) : (s.setCtrl c).colorOrder = s.colorOrder := rfl
@[simp] theorem State.setCtrl_width (c : Ctrl) : (s.setCtrl c).width = s.width := rfl
@[simp] theorem State.setCtrl_height (c : Ctrl) : (s.setCtrl c).height = s.height := rfl
@[simp] theorem State.setCtrl_params (c : Ctrl) : (s.setCtrl c).params = s.params := rfl
@[simp] theorem State.setCtrl_lines (c : Ctrl) : (s.setCtrl c).lines = s.lines := rfl
@[simp] theorem State.setCtrl_stage (c : Ctrl) : (s.setCtrl c).stage = s.stage := rfl
@[simp] theorem State.setCtrl_fill (c : Ctrl) : (s.setCtrl c).fill = s.fill := rfl
@[simp] theorem State.setCtrl_seq (c : Ctrl) : (s.setCtrl c).seq = s.seq := rfl
@[simp] theorem State.setCtrl_ctrl (c : Ctrl) : (s.setCtrl c).ctrl = c := rfl
@[simp] theorem State.setCtrl_trace (c : Ctrl) : (s.setCtrl c).trace = s.trace := rfl
@[simp] theorem State.setCtrl_rsp (c : Ctrl) : (s.setCtrl c).rsp = s.rsp := rfl
@[simp] theorem State.setCtrl_sink (c : Ctrl) : (s.setCtrl c).sink = s.sink.forgetAll := rfl
@[simp] theorem State.setCtrl_replies (c : Ctrl) : (s.setCtrl c).replies = s.replies := rfl
@[simp] theorem State.setCtrl_asks (c : Ctrl) : (s.setCtrl c).asks = s.asks := rfl
@[simp] theorem State.setCtrl_reqs (c : Ctrl) : (s.setCtrl c).reqs = s.reqs := rfl

@[simp] theorem State.raise_offsetX : s.raise.offsetX = s.offsetX := rfl
@[simp] theorem State.raise_offsetY : s.raise.offsetY = s.offsetY := rfl
@[simp] theorem State.raise_colorOrder : s.raise.colorOrder = s.colorOrder := rfl
@[simp] theorem State.raise_width : s.raise.width = s.width := rfl
@[simp] theorem State.raise_height : s.raise.height = s.height := rfl
@[simp] theorem State.raise_params : s.raise.params = s.params := rfl
@[simp] theorem State.raise_lines : s.raise.lines = s.lines := rfl
@[simp] theorem State.raise_stage : s.raise.stage = s.stage := rfl
@[simp] theorem State.raise_fill : s.raise.fill = s.fill := rfl
@[simp] theorem State.raise_seq : s.raise.seq = s.seq := rfl
@[simp] theorem State.raise_ctrl : s.raise.ctrl = .unknown := rfl
@[simp] theorem State.raise_trace : s.raise.trace = s.trace := rfl
@[simp] theorem State.raise_rsp : s.raise.rsp = s.rsp := rfl
@[simp] theorem State.raise_sink : s.raise.sink = s.sink.forgetAll := rfl
@[simp] theorem State.raise_replies : s.raise.replies = s.replies := rfl
@[simp] theorem State.raise_asks : s.raise.asks = s.asks := rfl
@[simp] theorem State.raise_reqs : s.raise.reqs = s.reqs := rfl

@[simp] theorem State.setOffsets_offsetX (dx dy : Word) : (s.setOffsets dx dy).offsetX = dx := rfl
@[simp] theorem State.setOffsets_offsetY (dx dy : Word) : (s.setOffsets dx dy).offsetY = dy := rfl
@[simp] theorem State.setOffsets_colorOrder (dx dy : Word) : (s.setOffsets dx dy).colorOrder = s.colorOrder := rfl
@[simp] theorem State.setOffsets_width (dx dy : Word) : (s.setOffsets dx dy).width = s.width := rfl
@[simp] theorem State.setOffsets_height (dx dy : Word) : (s.setOffsets dx dy).height = s.height := rfl
@[simp] theorem State.setOffsets_params (dx dy : Word) : (s.setOffsets dx dy).params = s.params := rfl
@[simp] theorem State.setOffsets_lines (dx dy : Word) : (s.setOffsets dx dy).lines = s.lines := rfl
@[simp] theorem State.setOffsets_stage (dx dy : Word) : (s.setOffsets dx dy).stage = s.stage := rfl
@[simp] theorem State.setOffsets_fill (dx dy : Word) : (s.setOffsets dx dy).fill = s.fill := rfl
@[simp] theorem State.setOffsets_seq (dx dy : Word) : (s.setOffsets dx dy).seq = s.seq := rfl
@[simp] theorem State.setOffsets_ctrl (dx dy : Word) : (s.setOffsets dx dy).ctrl = s.ctrl := rfl
@[simp] theorem State.setOffsets_trace (dx dy : Word) : (s.setOffsets dx dy).trace = s.trace := rfl
@[simp] theorem State.setOffsets_rsp (dx dy : Word) : (s.setOffsets dx dy).rsp = s.rsp := rfl
@[simp] theorem State.setOffsets_sink (dx dy : Word) : (s.setOffsets dx dy).sink = s.sink := rfl
@[simp] theorem State.setOffsets_replies (dx dy : Word) : (s.setOffsets dx dy).replies = s.replies := rfl
@[simp] theorem State.setOffsets_asks (dx dy : Word) : (s.setOffsets dx dy).asks = s.asks := rfl
@[simp] theorem State.setOffsets_reqs (dx dy : Word) : (s.setOffsets dx dy).reqs = s.reqs := rfl

@[simp] theorem State.clearFill_offsetX : s.clearFill.offsetX = s.offsetX := rfl
@[simp] theorem State.clearFill_offsetY : s.clearFill.offsetY = s.offsetY := rfl
@[simp] theorem State.clearFill_colorOrder : s.clearFill.colorOrder = s.colorOrder := rfl
@[simp] theorem State.clearFill_width : s.clearFill.width = s.width := rfl
@[simp] theorem State.clearFill_height : s.clearFill.height = s.height := rfl
@[simp] theorem State.clearFill_params : s.clearFill.params = s.params := rfl
@[simp] theorem State.clearFill_lines : s.clearFill.lines = s.lines := rfl
@[simp] theorem State.clearFill_stage : s.clearFill.stage = s.stage := rfl
@[simp] theorem State.clearFill_fill : s.clearFill.fill = 0 := rfl
@[simp] theorem State.clearFill_seq : s.clearFill.seq = s.seq := rfl
@[simp] theorem State.clearFill_ctrl : s.clearFill.ctrl = s.ctrl := rfl
@[simp] theorem State.clearFill_trace : s.clearFill.trace = s.trace := rfl
@[simp] theorem State.clearFill_rsp : s.clearFill.rsp = s.rsp := rfl
@[simp] theorem State.clearFill_sink : s.clearFill.sink = s.sink := rfl
@[simp] theorem State.clearFill_replies : s.clearFill.replies = s.replies := rfl
@[simp] theorem State.clearFill_asks : s.clearFill.asks = s.asks := rfl
@[simp] theorem State.clearFill_reqs : s.clearFill.reqs = s.reqs := rfl

@[simp] theorem State.stageWord_offsetX (w : Word) : (s.stageWord w).offsetX = s.offsetX := rfl
@[simp] theorem State.stageWord_offsetY (w : Word) : (s.stageWord w).offsetY = s.offsetY := rfl
@[simp] theorem State.stageWord_colorOrder (w : Word) : (s.stageWord w).colorOrder = s.colorOrder := rfl
@[simp] theorem State.stageWord_width (w : Word) : (s.stageWord w).width = s.width := rfl
@[simp] theorem State.stageWord_height (w : Word) : (s.stageWord w).height = s.height := rfl
@[simp] theorem State.stageWord_params (w : Word) : (s.stageWord w).params = s.params := rfl
@[simp] theorem State.stageWord_lines (w : Word) : (s.stageWord w).lines = s.lines := rfl
@[simp] theorem State.stageWord_stage (w : Word) : (s.stageWord w).stage = (s.stage.setIfInBounds s.fill (hi8 w)).setIfInBounds (s.fill + 1) (lo8 w) := rfl
@[simp] theorem State.stageWord_fill (w : Word) : (s.stageWord w).fill = s.fill + 2 := rfl
@[simp] theorem State.stageWord_seq (w : Word) : (s.stageWord w).seq = s.seq := rfl
@[simp] theorem State.stageWord_ctrl (w : Word) : (s.stageWord w).ctrl = s.ctrl := rfl
@[simp] theorem State.stageWord_trace (w : Word) : (s.stageWord w).trace = s.trace := rfl
@[simp] theorem State.stageWord_rsp (w : Word) : (s.stageWord w).rsp = s.rsp := rfl
@[simp] theorem State.stageWord_sink (w : Word) : (s.stageWord w).sink = s.sink := rfl
@[simp] theorem State.stageWord_replies (w : Word) : (s.stageWord w).replies = s.replies := rfl
@[simp] theorem State.stageWord_asks (w : Word) : (s.stageWord w).asks = s.asks := rfl
@[simp] theorem State.stageWord_reqs (w : Word) : (s.stageWord w).reqs = s.reqs := rfl

@[simp] theorem State.start_offsetX (sel : Byte) : (s.start sel).offsetX = s.offsetX := rfl
@[simp] theorem State.start_offsetY (sel : Byte) : (s.start sel).offsetY = s.offsetY := rfl
@[simp] theorem State.start_colorOrder (sel : Byte) : (s.start sel).colorOrder = s.colorOrder := rfl
@[simp] theorem State.start_width (sel : Byte) : (s.start sel).width = s.width := rfl
@[simp] theorem State.start_height (sel : Byte) : (s.start sel).height = s.height := rfl
@[simp] theorem State.start_params (sel : Byte) : (s.start sel).params = s.params := rfl
@[simp] theorem State.start_lines (sel : Byte) : (s.start sel).lines = s.lines := rfl
@[simp] theorem State.start_stage (sel : Byte) : (s.start sel).stage = s.stage := rfl
@[simp] theorem State.start_fill (sel : Byte) : (s.start sel).fill = s.fill := rfl
@[simp] theorem State.start_seq (sel : Byte) : (s.start sel).seq = .running sel 0 := rfl
@[simp] theorem State.start_ctrl (sel : Byte) : (s.start sel).ctrl = s.ctrl := rfl
@[simp] theorem State.start_trace (sel : Byte) : (s.start sel).trace = s.trace := rfl
@[simp] theorem State.start_rsp (sel : Byte) : (s.start sel).rsp = s.rsp := rfl
@[simp] theorem State.start_sink (sel : Byte) : (s.start sel).sink = s.sink := rfl
@[simp] theorem State.start_replies (sel : Byte) : (s.start sel).replies = s.replies := rfl
@[simp] theorem State.start_asks (sel : Byte) : (s.start sel).asks = s.asks := rfl
@[simp] theorem State.start_reqs (sel : Byte) : (s.start sel).reqs = s.reqs := rfl

@[simp] theorem State.respond_offsetX (r : Response) : (s.respond r).offsetX = s.offsetX := rfl
@[simp] theorem State.respond_offsetY (r : Response) : (s.respond r).offsetY = s.offsetY := rfl
@[simp] theorem State.respond_colorOrder (r : Response) : (s.respond r).colorOrder = s.colorOrder := rfl
@[simp] theorem State.respond_width (r : Response) : (s.respond r).width = s.width := rfl
@[simp] theorem State.respond_height (r : Response) : (s.respond r).height = s.height := rfl
@[simp] theorem State.respond_params (r : Response) : (s.respond r).params = s.params := rfl
@[simp] theorem State.respond_lines (r : Response) : (s.respond r).lines = s.lines := rfl
@[simp] theorem State.respond_stage (r : Response) : (s.respond r).stage = s.stage := rfl
@[simp] theorem State.respond_fill (r : Response) : (s.respond r).fill = s.fill := rfl
@[simp] theorem State.respond_seq (r : Response) : (s.respond r).seq = .idle := rfl
@[simp] theorem State.respond_ctrl (r : Response) : (s.respond r).ctrl = s.ctrl := rfl
@[simp] theorem State.respond_trace (r : Response) : (s.respond r).trace = s.trace := rfl
@[simp] theorem State.respond_rsp (r : Response) : (s.respond r).rsp = some r := rfl
@[simp] theorem State.respond_sink (r : Response) : (s.respond r).sink = s.sink := rfl
@[simp] theorem State.respond_replies (r : Response) : (s.respond r).replies = s.replies := rfl
@[simp] theorem State.respond_asks (r : Response) : (s.respond r).asks = s.asks := rfl
@[simp] theorem State.respond_reqs (r : Response) : (s.respond r).reqs = s.reqs := rfl

@[simp] theorem State.withRequest_offsetX (r : RawRequest) : (s.withRequest r).offsetX = s.offsetX := rfl
@[simp] theorem State.withRequest_offsetY (r : RawRequest) : (s.withRequest r).offsetY = s.offsetY := rfl
@[simp] theorem State.withRequest_colorOrder (r : RawRequest) : (s.withRequest r).colorOrder = s.colorOrder := rfl
@[simp] theorem State.withRequest_width (r : RawRequest) : (s.withRequest r).width = s.width := rfl
@[simp] theorem State.withRequest_height (r : RawRequest) : (s.withRequest r).height = s.height := rfl
@[simp] theorem State.withRequest_params (r : RawRequest) : (s.withRequest r).params = s.params := rfl
@[simp] theorem State.withRequest_lines (r : RawRequest) : (s.withRequest r).lines = s.lines := rfl
@[simp] theorem State.withRequest_stage (r : RawRequest) : (s.withRequest r).stage = s.stage := rfl
@[simp] theorem State.withRequest_fill (r : RawRequest) : (s.withRequest r).fill = s.fill := rfl
@[simp] theorem State.withRequest_seq (r : RawRequest) : (s.withRequest r).seq = .idle := rfl
@[simp] theorem State.withRequest_ctrl (r : RawRequest) : (s.withRequest r).ctrl = s.ctrl := rfl
@[simp] theorem State.withRequest_trace (r : RawRequest) : (s.withRequest r).trace = s.trace := rfl
@[simp] theorem State.withRequest_rsp (r : RawRequest) : (s.withRequest r).rsp = s.rsp := rfl
@[simp] theorem State.withRequest_sink (r : RawRequest) : (s.withRequest r).sink = s.sink := rfl
@[simp] theorem State.withRequest_replies (r : RawRequest) : (s.withRequest r).replies = s.replies := rfl
@[simp] theorem State.withRequest_asks (r : RawRequest) : (s.withRequest r).asks = s.asks := rfl
@[simp] theorem State.withRequest_reqs (r : RawRequest) : (s.withRequest r).reqs = r :: s.reqs := rfl

@[simp] theorem State.deliver_offsetX (bs : List Byte) : (s.deliver bs).offsetX = s.offsetX := rfl
@[simp] theorem State.deliver_offsetY (bs : List Byte) : (s.deliver bs).offsetY = s.offsetY := rfl
@[simp] theorem State.deliver_colorOrder (bs : List Byte) : (s.deliver bs).colorOrder = s.colorOrder := rfl
@[simp] theorem State.deliver_width (bs : List Byte) : (s.deliver bs).width = s.width := rfl
@[simp] theorem State.deliver_height (bs : List Byte) : (s.deliver bs).height = s.height := rfl
@[simp] theorem State.deliver_params (bs : List Byte) : (s.deliver bs).params = s.params := rfl
@[simp] theorem State.deliver_lines (bs : List Byte) : (s.deliver bs).lines = s.lines := rfl
@[simp] theorem State.deliver_stage (bs : List Byte) : (s.deliver bs).stage = s.stage := rfl
@[simp] theorem State.deliver_fill (bs : List Byte) : (s.deliver bs).fill = s.fill := rfl
@[simp] theorem State.deliver_seq (bs : List Byte) : (s.deliver bs).seq = s.seq := rfl
@[simp] theorem State.deliver_ctrl (bs : List Byte) : (s.deliver bs).ctrl = s.ctrl := rfl
@[simp] theorem State.deliver_trace (bs : List Byte) : (s.deliver bs).trace = s.trace := rfl
@[simp] theorem State.deliver_rsp (bs : List Byte) : (s.deliver bs).rsp = s.rsp := rfl
@[simp] theorem State.deliver_replies (bs : List Byte) : (s.deliver bs).replies = s.replies := rfl
@[simp] theorem State.deliver_asks (bs : List Byte) : (s.deliver bs).asks = s.asks := rfl
@[simp] theorem State.deliver_reqs (bs : List Byte) : (s.deliver bs).reqs = s.reqs := rfl

@[simp] theorem State.deliver_sink (bs : List Byte) :
    (s.deliver bs).sink = s.sink.take s.ctrl s.params s.lines bs := rfl

end Sys2Proof.Machine
end

