-- ==== Sys2Proof/Laws/Run.lean ====
section
/-! SUPPORT. What a stretch of steps can do, said once: `Obeys es s r` says that the run `r` from `s` performs the events `es` in order, stopping at the first that is not answered ok. It holds of each primitive and is closed under `andThen`. -/

namespace Sys2Proof.Machine

/-! The shape of runs. -/

@[simp] theorem Run.andThen_done (s : State) (f : State → Run) : (Run.done s).andThen f = f s := rfl
@[simp] theorem Run.andThen_failed (s : State) (f : State → Run) : (Run.failed s).andThen f = .failed s := rfl
@[simp] theorem Run.andThen_hung (f : State → Run) : Run.hung.andThen f = .hung := rfl

theorem Run.andThen_assoc (r : Run) (f g : State → Run) :
    (r.andThen f).andThen g = r.andThen fun s => (f s).andThen g := by
  cases r <;> rfl

theorem HasPanel.not_zero {s : State} (h : HasPanel s) : ¬ (s.width = 0 ∨ s.height = 0) := by
  rw [not_or]; exact h

theorem hasPanel_iff {s : State} : HasPanel s ↔ ¬ (s.width = 0 ∨ s.height = 0) := by rw [not_or]; rfl

/-- On an instance with a panel `onPanel` changes nothing; on one without it refuses (60_exceptions R193). -/
theorem onPanel_of_hasPanel {s : State} (h : HasPanel s) (o : Host.Outcome State Fault Refusal) : onPanel s o = o :=
  if_neg h.not_zero

theorem onPanel_of_zero {s : State} (h : s.width = 0 ∨ s.height = 0) (o : Host.Outcome State Fault Refusal) :
    onPanel s o = .refused .zeroDimension := if_pos h

/-- What an operation answers, by how its body ends. -/
theorem runOp_next_iff {sel : Byte} {body : State → Run} {s t : State} (h : HasPanel s) :
    runOp sel body s = .next t ↔
      (∃ u, body (s.start sel) = .done u ∧ t = u.respond .ok) ∨
        ∃ u, body (s.start sel) = .failed u ∧ t = u.respond .transactionFailure := by
  rw [runOp, onPanel_of_hasPanel h]; unfold finish
  cases body (s.start sel) <;> simp [eq_comm]

theorem runOp_fault_iff {sel : Byte} {body : State → Run} {s : State} {f : Fault} (h : HasPanel s) :
    runOp sel body s = .fault f ↔ body (s.start sel) = .hung ∧ f = .unanswered := by
  rw [runOp, onPanel_of_hasPanel h]; unfold finish
  cases body (s.start sel) <;> simp [eq_comm]

theorem runOp_ne_refused {sel : Byte} {body : State → Run} {s : State} {x : Refusal} (h : HasPanel s) :
    runOp sel body s ≠ .refused x := by
  rw [runOp, onPanel_of_hasPanel h]; unfold finish
  cases body (s.start sel) <;> simp

/-! Counting replies. -/

@[simp] theorem asked_nil : asked [] = 0 := rfl
@[simp] theorem asked_append (a b : List Event) : asked (a ++ b) = asked a + asked b := by simp [asked]
@[simp] theorem asked_sel (l : SelLevel) (es : List Event) : asked (.sel l :: es) = asked es + 1 := by simp [asked]
@[simp] theorem asked_ce (l : CeLevel) (es : List Event) : asked (.ce l :: es) = asked es + 1 := by simp [asked]
@[simp] theorem asked_rst (l : RstLevel) (es : List Event) : asked (.rst l :: es) = asked es + 1 := by simp [asked]
@[simp] theorem asked_bus (bs : List Byte) (es : List Event) : asked (.bus bs :: es) = asked es + 1 := by simp [asked]
@[simp] theorem asked_dly (k : Byte) (es : List Event) : asked (.dly k :: es) = asked es := by simp [asked]

@[simp] theorem allOk_nil : allOk [] = [] := rfl
@[simp] theorem allOk_cons (e : Event) (es : List Event) : allOk (e :: es) = (e, .ok) :: allOk es := rfl
@[simp] theorem allOk_append (a b : List Event) : allOk (a ++ b) = allOk a ++ allOk b := by simp [allOk]

@[simp] theorem Lines.replay_nil (l : Lines) : l.replay [] = l := rfl
@[simp] theorem Lines.replay_cons (l : Lines) (e : Event × Answer) (es : List (Event × Answer)) :
    l.replay (e :: es) = (l.after e).replay es := rfl
@[simp] theorem Lines.replay_append (l : Lines) (a b : List (Event × Answer)) :
    l.replay (a ++ b) = (l.replay a).replay b := by simp [Lines.replay]

@[simp] theorem State.answersOk_zero (s : State) : s.answersOk 0 = true := by simp [State.answersOk]

theorem State.answersOk_iff {s : State} {n : Nat} :
    s.answersOk n = true ↔ ∀ m, m < n → s.replyAt m = .answered .ok := by
  simp [State.answersOk]

theorem TookReplies.zero {s t : State} (h1 : t.replies = s.replies) (h2 : t.asks = s.asks) : TookReplies s t 0 :=
  ⟨by simpa using h1, h2⟩

theorem TookReplies.trans {s t u : State} {m n : Nat} (h : TookReplies s t m) (g : TookReplies t u n) :
    TookReplies s u (m + n) :=
  ⟨by rw [g.1, h.1, List.drop_drop], by rw [g.2, h.2, Nat.add_assoc]⟩

theorem State.replyAt_add {s t : State} {m : Nat} (h : TookReplies s t m) (n : Nat) : s.replyAt (m + n) = t.replyAt n := by
  simp [State.replyAt, h.1, h.2, Nat.add_assoc]

theorem State.answersOk_add {s t : State} {m : Nat} (h : TookReplies s t m) (n : Nat) :
    s.answersOk (m + n) = true ↔ s.answersOk m = true ∧ t.answersOk n = true := by
  simp only [State.answersOk_iff]
  refine ⟨fun g => ⟨fun k hk => g k (by omega), fun k hk => ?_⟩, fun ⟨g1, g2⟩ k hk => ?_⟩
  · rw [← State.replyAt_add h]; exact g _ (by omega)
  · by_cases hm : k < m
    · exact g1 k hm
    · have := g2 (k - m) (by omega)
      rwa [← State.replyAt_add h, Nat.add_sub_cancel' (by omega)] at this

theorem State.answersOk_mono {s : State} {m n : Nat} (h : s.answersOk n = true) (hm : m ≤ n) : s.answersOk m = true :=
  State.answersOk_iff.2 fun k hk => State.answersOk_iff.1 h k (by omega)

/-- A reply inside an all-ok stretch is ok. -/
theorem State.replyAt_of_answersOk {s : State} {m n : Nat} (h : s.answersOk n = true) (hm : m < n) :
    s.replyAt m = .answered .ok := State.answersOk_iff.1 h m hm

theorem State.nextReply_eq (s : State) : s.nextReply = s.replyAt 0 := by simp [State.nextReply, State.replyAt]

theorem State.answersOk_one {s : State} : s.answersOk 1 = true ↔ s.nextReply = .answered .ok := by
  rw [State.answersOk_iff, s.nextReply_eq]
  exact ⟨fun h => h 0 (by omega), fun h m hm => by rwa [show m = 0 by omega]⟩

/-! What does not change while the events of an operation are performed. -/

/-- The registers, the straps, the response standing on `RSP` and the requests to come are as before. -/
def SameCore (s t : State) : Prop := SameOffsets s t ∧ SameStraps s t ∧ t.rsp = s.rsp ∧ t.reqs = s.reqs

theorem SameCore.refl (s : State) : SameCore s s := by simp [SameCore, SameOffsets, SameStraps]

theorem SameCore.trans {s t u : State} (h : SameCore s t) (g : SameCore t u) : SameCore s u := by
  simp_all [SameCore, SameOffsets, SameStraps]

/-- The run performs these events in order and stops at the first that is not answered ok (00_scope R15, 60_exceptions
R195 to R197, R212). -/
def Obeys (es : List Event) (s : State) : Run → Prop
  | .done t =>
    t.trace = s.trace ++ allOk es ∧ t.lines = s.lines.replay (allOk es) ∧ TookReplies s t (asked es) ∧
      s.answersOk (asked es) = true ∧ SameCore s t
  | .failed t =>
    ∃ pre e post, es = pre ++ e :: post ∧ t.trace = s.trace ++ allOk pre ++ [(e, .fail)] ∧
      t.lines = s.lines.replay (allOk pre ++ [(e, .fail)]) ∧ TookReplies s t (asked pre + 1) ∧
      s.answersOk (asked pre) = true ∧ s.replyAt (asked pre) = .answered .fail ∧ SameCore s t ∧
      t.ctrl = .unknown ∧ t.sink.knowsNothing = true ∧ asked [e] = 1
  | .hung =>
    ∃ pre e post, es = pre ++ e :: post ∧ s.answersOk (asked pre) = true ∧ s.replyAt (asked pre) = .silent ∧
      asked [e] = 1

theorem Obeys.nil (s t : State) (h : SameCore s t) (ht : t.trace = s.trace) (hl : t.lines = s.lines)
    (hr : t.replies = s.replies) (ha : t.asks = s.asks) : Obeys [] s (.done t) := by
  simp [Obeys, ht, hl, TookReplies.zero hr ha, h]

theorem Obeys.andThen {es fs : List Event} {s : State} {r : Run} {f : State → Run} (h : Obeys es s r)
    (hf : ∀ t, r = .done t → Obeys fs t (f t)) : Obeys (es ++ fs) s (r.andThen f) := by
  cases r with
  | failed t =>
    obtain ⟨pre, e, post, rfl, h⟩ := h
    exact ⟨pre, e, post ++ fs, by simp, h⟩
  | hung =>
    obtain ⟨pre, e, post, rfl, h⟩ := h
    exact ⟨pre, e, post ++ fs, by simp, h⟩
  | done t =>
    obtain ⟨h1, h2, h3, h4, h5⟩ := h
    have g := hf t rfl
    simp only [Run.andThen_done]
    cases hu : f t with
    | done u =>
      rw [hu] at g
      obtain ⟨g1, g2, g3, g4, g5⟩ := g
      refine ⟨by rw [g1, h1]; simp, by rw [g2, h2]; simp, by rw [asked_append]; exact h3.trans g3, ?_, h5.trans g5⟩
      rw [asked_append]; exact (State.answersOk_add h3 _).2 ⟨h4, g4⟩
    | failed u =>
      rw [hu] at g
      obtain ⟨pre, e, post, rfl, g1, g2, g3, g4, g5, g6, g7⟩ := g
      refine ⟨es ++ pre, e, post, by simp, by rw [g1, h1]; simp, by rw [g2, h2]; simp, ?_, ?_, ?_, h5.trans g6, g7⟩
      · rw [asked_append, Nat.add_assoc]; exact h3.trans g3
      · rw [asked_append]; exact (State.answersOk_add h3 _).2 ⟨h4, g4⟩
      · rw [asked_append, State.replyAt_add h3, g5]
    | hung =>
      rw [hu] at g
      obtain ⟨pre, e, post, rfl, g4, g5, g6⟩ := g
      refine ⟨es ++ pre, e, post, by simp, ?_, ?_, g6⟩
      · rw [asked_append]; exact (State.answersOk_add h3 _).2 ⟨h4, g4⟩
      · rw [asked_append, State.replyAt_add h3, g5]

@[simp] theorem Sink.knowsNothing_forgetAll (k : Sink) : k.forgetAll.knowsNothing = true := rfl

/-- The one shared proof for the four primitives that ask for an answer. -/
theorem perform_obeys (e : Event) (onOk onFail : State → State) (s : State) (he : asked [e] = 1)
    (hok : ∀ t, SameCore t (onOk t) ∧ (onOk t).trace = t.trace ∧ TookReplies t (onOk t) 0 ∧
      (onOk t).lines = t.lines.after (e, .ok))
    (hfail : ∀ t, SameCore t (onFail t) ∧ (onFail t).trace = t.trace ∧ TookReplies t (onFail t) 0 ∧
      (onFail t).lines = t.lines.after (e, .fail)) : Obeys [e] s (perform e onOk onFail s) := by
  unfold perform
  split
  · rename_i hr
    obtain ⟨h1, h2, h3, h4⟩ := hok (s.popReply.record e .ok)
    refine ⟨by simpa using h2, by simpa using h4, ?_, by rw [he]; exact State.answersOk_one.2 hr, ?_⟩
    · rw [he]; simpa [TookReplies] using h3
    · simpa [SameCore, SameOffsets, SameStraps] using h1
  · rename_i hr
    obtain ⟨h1, h2, h3, h4⟩ := hfail (s.popReply.record e .fail)
    refine ⟨[], e, [], rfl, by simp [h2], by simpa using h4, by simpa [TookReplies] using h3, by simp, by
      rw [asked_nil, ← s.nextReply_eq, hr], ?_, rfl, rfl, he⟩
    simpa [SameCore, SameOffsets, SameStraps] using h1
  · rename_i hr
    exact ⟨[], e, [], rfl, by simp, by rw [asked_nil, ← s.nextReply_eq, hr], he⟩

theorem driveSel_obeys (l : SelLevel) (s : State) : Obeys [.sel l] s (driveSel l s) :=
  perform_obeys _ _ _ s rfl (by simp [SameCore, SameOffsets, SameStraps, TookReplies, Lines.after])
    (by simp [SameCore, SameOffsets, SameStraps, TookReplies, Lines.after])

theorem driveCe_obeys (l : CeLevel) (s : State) : Obeys [.ce l] s (driveCe l s) :=
  perform_obeys _ _ _ s rfl (by simp [SameCore, SameOffsets, SameStraps, TookReplies, Lines.after])
    (by simp [SameCore, SameOffsets, SameStraps, TookReplies, Lines.after])

theorem driveRst_obeys (l : RstLevel) (s : State) : Obeys [.rst l] s (driveRst l s) :=
  perform_obeys _ _ _ s rfl (by simp [SameCore, SameOffsets, SameStraps, TookReplies, Lines.after])
    (by simp [SameCore, SameOffsets, SameStraps, TookReplies, Lines.after])

theorem busWrite_obeys (bs : List Byte) (s : State) : Obeys [.bus bs] s (busWrite bs s) :=
  perform_obeys _ _ _ s rfl (by simp [SameCore, SameOffsets, SameStraps, TookReplies, Lines.after])
    (by simp [SameCore, SameOffsets, SameStraps, TookReplies, Lines.after])

theorem delay_obeys (k : Byte) (s : State) : Obeys [.dly k] s (delay k s) := by
  refine ⟨rfl, rfl, TookReplies.zero rfl rfl, by simp, ?_⟩
  simp [SameCore, SameOffsets, SameStraps]

theorem writeCommand_obeys (op : Byte) (ps : List Byte) (s : State) :
    Obeys (commandTransaction op ps) s (writeCommand op ps s) := by
  unfold commandTransaction writeCommand
  refine Obeys.andThen ?_ fun _ _ => driveCe_obeys _ _
  refine Obeys.andThen ?_ fun t _ => ?_
  · exact Obeys.andThen (es := [.ce .act, .sel .cmd]) (Obeys.andThen (es := [.ce .act]) (driveCe_obeys _ _)
      fun _ _ => driveSel_obeys _ _) fun _ _ => busWrite_obeys _ _
  · cases ps with
    | nil => exact Obeys.nil _ _ (SameCore.refl _) rfl rfl rfl rfl
    | cons p ps =>
      exact Obeys.andThen (es := [.sel .dat]) (driveSel_obeys _ _) fun _ _ => busWrite_obeys _ _

theorem writeData_obeys (bs : List Byte) (s : State) : Obeys (dataTransaction bs) s (writeData bs s) := by
  unfold writeData
  exact Obeys.andThen (es := [.ce .act, .sel .dat, .bus bs])
    (Obeys.andThen (es := [.ce .act, .sel .dat]) (Obeys.andThen (es := [.ce .act]) (driveCe_obeys _ _)
      fun _ _ => driveSel_obeys _ _) fun _ _ => busWrite_obeys _ _) fun _ _ => driveCe_obeys _ _

theorem forEach_obeys {α : Type} {f : α → State → Run} {g : α → List Event} (hf : ∀ x s, Obeys (g x) s (f x s))
    (xs : List α) (s : State) : Obeys (xs.flatMap g) s (forEach f xs s) := by
  induction xs generalizing s with
  | nil => exact Obeys.nil _ _ (SameCore.refl _) rfl rfl rfl rfl
  | cons x xs ih =>
    rw [List.flatMap_cons]
    exact Obeys.andThen (hf x s) fun t _ => ih t

/-- A done run leaves the parameters as they were. -/
theorem Obeys.params {es : List Event} {s t : State} (h : Obeys es s (.done t)) : t.params = s.params :=
  h.2.2.2.2.2.1.2.2.2

theorem sendWindow_obeys (win : Window) (s : State) : Obeys (windowEvents s.params win) s (sendWindow win s) := by
  unfold sendWindow windowEvents
  have h := writeCommand_obeys s.params.codes.caset (spanBytes win.cols) s
  refine Obeys.andThen h fun t ht => ?_
  rw [← (ht ▸ h : Obeys _ s (.done t)).params]
  exact writeCommand_obeys _ _ _

theorem memoryWrite_obeys (s : State) : Obeys (memoryWriteEvents s.params) s (memoryWrite s) :=
  writeCommand_obeys _ _ _

theorem writeWord_obeys (w : Word) (s : State) : Obeys (dataTransaction (be16 w)) s (writeWord w s) :=
  writeData_obeys _ _

theorem sendRow_obeys (row : List Byte) (s : State) : Obeys (dataRuns (chunks row)) s (sendRow row s) :=
  forEach_obeys writeData_obeys _ _

theorem setCtrl_obeys (c : Ctrl) (s : State) : Obeys [] s (.done (s.setCtrl c)) :=
  Obeys.nil _ _ (by simp [SameCore, SameOffsets, SameStraps]) rfl rfl rfl rfl

theorem hardReset_obeys (s : State) : Obeys resetPulse s (hardReset s) := by
  unfold hardReset
  rw [← List.append_nil resetPulse]
  refine Obeys.andThen ?_ fun t _ => setCtrl_obeys _ _
  exact Obeys.andThen (es := [.rst .hi, .dly tReset, .rst .lo, .dly tReset, .rst .hi])
    (Obeys.andThen (es := [.rst .hi, .dly tReset, .rst .lo, .dly tReset])
      (Obeys.andThen (es := [.rst .hi, .dly tReset, .rst .lo])
        (Obeys.andThen (es := [.rst .hi, .dly tReset])
          (Obeys.andThen (es := [.rst .hi]) (driveRst_obeys _ _) fun _ _ => delay_obeys _ _)
          fun _ _ => driveRst_obeys _ _)
        fun _ _ => delay_obeys _ _)
      fun _ _ => driveRst_obeys _ _)
    fun _ _ => delay_obeys _ _

theorem initSteps_obeys (s : State) :
    Obeys (resetPulse ++ (initEntries s.params).flatMap entryEvents ++ [.dly tInit]) s (initSteps s) := by
  unfold initSteps
  have h := hardReset_obeys s
  have h2 := Obeys.andThen (f := fun t => forEach sendEntry (initEntries t.params) t) h fun t ht => by
    rw [(ht ▸ h : Obeys _ s (.done t)).params]
    exact forEach_obeys (f := sendEntry) (fun e u => writeCommand_obeys e.code e.params u) _ t
  have h3 := Obeys.andThen h2 fun t _ => delay_obeys tInit t
  have h4 := Obeys.andThen h3 fun t _ => setCtrl_obeys .initialized t
  rwa [List.append_nil] at h4

end Sys2Proof.Machine
end

