-- ==== Sys2Proof/Laws/Chunks.lean ====
section
/-! SUPPORT. Chunks (30_encoding R99) and the staging buffer (40_transaction R118): what the loop flushes is the chunks of the words' bytes. -/

namespace Sys2Proof.Machine

@[simp] theorem length_be16 (w : Word) : (be16 w).length = 2 := rfl

@[simp] theorem chunks_nil : chunks [] = [] := by decide

theorem chunks_append_full {a : List Byte} (b : List Byte) (ha : a.length = 32) : chunks (a ++ b) = a :: chunks b := by
  have hn : ((a ++ b).length + 31) / 32 = (b.length + 31) / 32 + 1 := by simp only [List.length_append, ha]; omega
  simp only [chunks, chunkSize, Nat.reduceSub, hn, List.range_succ_eq_map, List.map_cons, List.map_map]
  refine List.cons_eq_cons.2 ⟨?_, List.map_congr_left fun k _ => ?_⟩
  · simp [← ha]
  · have h : 32 * Nat.succ k = a.length + 32 * k := by omega
    simp only [Function.comp, h, ← List.drop_drop, List.drop_left]

theorem chunks_short {l : List Byte} (h0 : l ≠ []) (h : l.length ≤ 32) : chunks l = [l] := by
  have hp : 0 < l.length := List.length_pos_iff.2 h0
  have hn : (l.length + 31) / 32 = 1 := by omega
  simp [chunks, chunkSize, hn, List.range_succ, List.take_of_length_le h]

/-- Every byte run is runs of 32 bytes and a remainder shorter than that. -/
theorem exists_full_split (bs : List Byte) :
    ∃ (fulls : List (List Byte)) (rem : List Byte), bs = fulls.flatten ++ rem ∧ (∀ f ∈ fulls, f.length = 32) ∧ rem.length < 32 := by
  induction h : bs.length / 32 generalizing bs with
  | zero => exact ⟨[], bs, by simp, by simp, by omega⟩
  | succ n ih =>
    obtain ⟨fs, rem, h1, h2, h3⟩ := ih (bs.drop 32) (by rw [List.length_drop]; omega)
    refine ⟨bs.take 32 :: fs, rem, ?_, ?_, h3⟩
    · rw [List.flatten_cons, List.append_assoc, ← h1, List.take_append_drop]
    · intro f hf
      rcases List.mem_cons.1 hf with rfl | hf
      · rw [List.length_take]; omega
      · exact h2 f hf

theorem chunks_of_split {fulls : List (List Byte)} {rem : List Byte} (hf : ∀ f ∈ fulls, f.length = 32)
    (hr : rem.length < 32) : chunks (fulls.flatten ++ rem) = fulls ++ (if rem = [] then [] else [rem]) := by
  induction fulls with
  | nil =>
    by_cases h : rem = []
    · simp [h]
    · simp [h, chunks_short h (by omega)]
  | cons f fs ih =>
    rw [List.flatten_cons, List.append_assoc, chunks_append_full _ (hf f (by simp)), ih fun g hg => hf g (by simp [hg])]
    rfl

theorem chunks_flatten (bs : List Byte) : (chunks bs).flatten = bs := by
  obtain ⟨fulls, rem, rfl, hf, hr⟩ := exists_full_split bs
  rw [chunks_of_split hf hr]
  by_cases h : rem = [] <;> simp [h]

/-! The staging buffer. -/

theorem State.staged_length {s : State} (h : s.fill ≤ 32) : s.staged.length = s.fill := by
  simp [State.staged, h]

@[simp] theorem State.staged_clearFill (s : State) : s.clearFill.staged = [] := by simp [State.staged]

theorem State.staged_stageWord {s : State} (w : Word) (h : s.fill + 2 ≤ 32) :
    (s.stageWord w).staged = s.staged ++ be16 w := by
  have h1 : s.fill < s.stage.toList.length := by simp; omega
  simp only [State.staged, State.stageWord_stage, State.stageWord_fill, be16]
  rw [Vector.toList_setIfInBounds, Vector.toList_setIfInBounds]
  apply List.ext_getElem?
  intro i
  simp only [List.getElem?_take, List.getElem?_set, List.getElem?_append, List.length_take, List.length_set,
    Vector.length_toList]
  rcases Nat.lt_trichotomy i s.fill with h2 | rfl | h2
  · simp [show i < s.fill + 2 by omega, show ¬ s.fill + 1 = i by omega, show ¬ s.fill = i by omega,
      show i < min s.fill 32 by omega, h2]
  · simp [show s.fill < 32 by omega, show min s.fill 32 = s.fill by omega]
  · by_cases h3 : i = s.fill + 1
    · subst h3
      simp [show s.fill + 1 < 32 by omega, show min s.fill 32 = s.fill by omega]
    · have h4 : ¬ i < s.fill + 2 := by omega
      have h5 : ¬ i < min s.fill 32 := by omega
      have h6 : 2 ≤ i - min s.fill 32 := by omega
      simp [h4, h5, List.getElem?_eq_none (l := [hi8 w, lo8 w]) (i := i - min s.fill 32) (by simpa using h6)]

/-- No event touches the staging buffer. -/
def KeepsStage (f : State → Run) : Prop := ∀ s, match f s with | .done t => SameStage s t | .failed t => SameStage s t | .hung => True

theorem KeepsStage.andThen {f g : State → Run} (hf : KeepsStage f) (hg : KeepsStage g) :
    KeepsStage fun s => (f s).andThen g := by
  intro s
  have h := hf s
  show match (f s).andThen g with | .done t => SameStage s t | .failed t => SameStage s t | .hung => True
  cases hr : f s with
  | done t =>
    rw [hr] at h
    have h2 := hg t
    rw [Run.andThen_done]
    cases hr2 : g t with
    | done u => rw [hr2] at h2; exact ⟨h2.1.trans h.1, h2.2.trans h.2⟩
    | failed u => rw [hr2] at h2; exact ⟨h2.1.trans h.1, h2.2.trans h.2⟩
    | hung => trivial
  | failed t => rw [hr] at h; exact h
  | hung => trivial

theorem perform_keepsStage (e : Event) (onOk onFail : State → State) (hok : ∀ t, SameStage t (onOk t))
    (hfail : ∀ t, SameStage t (onFail t)) : KeepsStage (perform e onOk onFail) := by
  intro s
  unfold perform
  cases s.nextReply with
  | silent => trivial
  | answered a =>
    cases a
    · have := hok (s.popReply.record e .ok); simpa [SameStage] using this
    · have := hfail (s.popReply.record e .fail); simpa [SameStage] using this

theorem driveSel_keepsStage (l : SelLevel) : KeepsStage (driveSel l) :=
  perform_keepsStage _ _ _ (by simp [SameStage]) (by simp [SameStage])

theorem driveCe_keepsStage (l : CeLevel) : KeepsStage (driveCe l) :=
  perform_keepsStage _ _ _ (by simp [SameStage]) (by simp [SameStage])

theorem driveRst_keepsStage (l : RstLevel) : KeepsStage (driveRst l) :=
  perform_keepsStage _ _ _ (by simp [SameStage]) (by simp [SameStage])

theorem busWrite_keepsStage (bs : List Byte) : KeepsStage (busWrite bs) :=
  perform_keepsStage _ _ _ (by simp [SameStage]) (by simp [SameStage])

theorem delay_keepsStage (k : Byte) : KeepsStage (delay k) := fun s => by simp [delay, SameStage]

theorem done_keepsStage : KeepsStage .done := fun s => by simp [SameStage]

theorem writeData_keepsStage (bs : List Byte) : KeepsStage (writeData bs) :=
  ((driveCe_keepsStage _).andThen (driveSel_keepsStage _)).andThen (busWrite_keepsStage _) |>.andThen (driveCe_keepsStage _)

theorem writeCommand_keepsStage (op : Byte) (ps : List Byte) : KeepsStage (writeCommand op ps) := by
  refine KeepsStage.andThen (KeepsStage.andThen ?_ ?_) (driveCe_keepsStage _)
  · exact ((driveCe_keepsStage _).andThen (driveSel_keepsStage _)).andThen (busWrite_keepsStage _)
  · intro s
    by_cases h : 0 < ps.length
    · simpa [h] using ((driveSel_keepsStage .dat).andThen (busWrite_keepsStage ps)) s
    · simp [h, SameStage]

/-- THE STAGING LOOP: what is staged and what the words add, cut into runs of 32 bytes, is flushed, and the remainder is
left staged. -/
theorem stageLoop_obeys (ws : List Word) (s : State) (fulls : List (List Byte)) (rem : List Byte)
    (hfill : s.fill < 32) (heven : s.fill % 2 = 0) (hsplit : s.staged ++ ws.flatMap be16 = fulls.flatten ++ rem)
    (hf : ∀ f ∈ fulls, f.length = 32) (hr : rem.length < 32) :
    Obeys (dataRuns fulls) s (stageLoop ws s) ∧
      ∀ t, stageLoop ws s = .done t → t.staged = rem ∧ t.fill = rem.length := by
  induction ws generalizing s fulls with
  | nil =>
    have hl := s.staged_length (by omega)
    simp only [List.flatMap_nil, List.append_nil] at hsplit
    have hnil : fulls = [] := by
      cases fulls with
      | nil => rfl
      | cons f fs =>
        have := congrArg List.length hsplit
        have := hf f (by simp)
        simp at *; omega
    subst hnil
    simp only [List.flatten_nil, List.nil_append] at hsplit
    refine ⟨Obeys.nil _ _ (SameCore.refl _) rfl rfl rfl rfl, ?_⟩
    intro t ht
    have : s = t := by simpa [stageLoop] using ht
    subst this
    exact ⟨hsplit, by rw [← hsplit, hl]⟩
  | cons w ws ih =>
    have hst : (s.stageWord w).staged = s.staged ++ be16 w := s.staged_stageWord w (by omega)
    have hl : (s.stageWord w).staged.length = s.fill + 2 := by simp [hst, s.staged_length (show s.fill ≤ 32 by omega)]
    have hsplit' : (s.stageWord w).staged ++ ws.flatMap be16 = fulls.flatten ++ rem := by
      rw [hst, ← hsplit]; simp
    have hsame : Obeys [] s (.done (s.stageWord w)) :=
      Obeys.nil _ _ (by simp [SameCore, SameOffsets, SameStraps]) rfl rfl rfl rfl
    unfold stageLoop
    by_cases hfull : (s.stageWord w).fill = bufCap
    · rw [if_pos hfull]
      have hfull' : s.fill + 2 = 32 := hfull
      cases fulls with
      | nil =>
        have := congrArg List.length hsplit'
        simp only [List.length_append, List.flatten_nil, List.nil_append, hl] at this
        omega
      | cons f fs =>
        rw [List.flatten_cons, List.append_assoc] at hsplit'
        obtain ⟨h1, h2⟩ := List.append_inj hsplit' (by rw [hl, hf f (by simp), hfull'])
        rw [h1]
        have hwd := writeData_obeys f (s.stageWord w)
        have key : ∀ t, writeData f (s.stageWord w) = .done t →
            Obeys (dataRuns fs) t (stageLoop ws t.clearFill) ∧
              ∀ u, stageLoop ws t.clearFill = .done u → u.staged = rem ∧ u.fill = rem.length := by
          intro t _
          obtain ⟨g1, g2⟩ := ih t.clearFill fs (by simp) (by simp) (by simpa using h2) fun g hg => hf g (by simp [hg])
          have hc : Obeys [] t (.done t.clearFill) :=
            Obeys.nil _ _ (by simp [SameCore, SameOffsets, SameStraps]) rfl rfl rfl rfl
          exact ⟨Obeys.andThen hc fun u hu => by cases hu; exact g1, g2⟩
        refine ⟨?_, fun t ht => ?_⟩
        · have h3 : Obeys (dataTransaction f ++ dataRuns fs) (s.stageWord w)
              ((writeData f (s.stageWord w)).andThen fun t => stageLoop ws t.clearFill) :=
            Obeys.andThen hwd fun t ht => (key t ht).1
          have h4 := Obeys.andThen hsame (fs := dataTransaction f ++ dataRuns fs)
            (f := fun u => (writeData f u).andThen fun t => stageLoop ws t.clearFill) fun u hu => by cases hu; exact h3
          simpa [dataRuns] using h4
        · cases hw : writeData f (s.stageWord w) with
          | done u => rw [hw] at ht; exact (key u hw).2 t ht
          | failed u => rw [hw] at ht; cases ht
          | hung => rw [hw] at ht; cases ht
    · rw [if_neg hfull]
      have hne : ¬ s.fill + 2 = 32 := hfull
      obtain ⟨g1, g2⟩ := ih (s.stageWord w) fulls (by simp; omega) (by simp; omega) hsplit' hf
      exact ⟨Obeys.andThen hsame fun u hu => by cases hu; exact g1, g2⟩

theorem flatMap_be16_length (ws : List Word) : (ws.flatMap be16).length = 2 * ws.length := by
  induction ws with
  | nil => rfl
  | cons w ws ih => rw [List.flatMap_cons, List.length_append, ih, length_be16, List.length_cons]; omega

/-- WRITE_WORDS_BUFFERED performs its flushes (40_transaction R118, R119). -/
theorem writeWordsBuffered_obeys (ws : List Word) (s : State) :
    Obeys (dataRuns (flushRuns s.params ws)) s (writeWordsBuffered ws s) := by
  obtain ⟨fulls, rem, hbs, hf, hr⟩ := exists_full_split (ws.flatMap be16)
  have hc : Obeys [] s (.done s.clearFill) :=
    Obeys.nil _ _ (by simp [SameCore, SameOffsets, SameStraps]) rfl rfl rfl rfl
  obtain ⟨g1, g2⟩ := stageLoop_obeys ws s.clearFill fulls rem (by simp) (by simp) (by simpa using hbs) hf hr
  have h1 : Obeys (dataRuns fulls) s (stageLoop ws s.clearFill) :=
    Obeys.andThen hc fun u hu => by cases hu; exact g1
  have hmod : ws.length % 16 = 0 ↔ rem = [] := by
    have hlen := congrArg List.length hbs
    have hfl : fulls.flatten.length = 32 * fulls.length := by
      clear hbs hlen g1 g2 h1
      induction fulls with
      | nil => rfl
      | cons f fs ih =>
        rw [List.flatten_cons, List.length_append, ih fun g hg => hf g (by simp [hg]), hf f (by simp), List.length_cons]
        omega
    rw [flatMap_be16_length, List.length_append, hfl] at hlen
    rw [← List.length_eq_zero_iff]; omega
  have hruns : flushRuns s.params ws =
      fulls ++ (if rem ≠ [] ∨ s.params.emptyFinalFlush = true then [rem] else []) := by
    rw [flushRuns, hbs, chunks_of_split hf hr, List.append_assoc]
    congr 1
    by_cases h : rem = []
    · simp [h, hmod.2 h]
    · have : ¬ ws.length % 16 = 0 := fun h' => h (hmod.1 h')
      simp [h, this]
  rw [hruns, dataRuns, List.flatMap_append]
  unfold writeWordsBuffered
  refine Obeys.andThen h1 fun t ht => ?_
  obtain ⟨e1, e2⟩ := g2 t ht
  have hp : t.params = s.params := (ht ▸ h1 : Obeys _ s (.done t)).params
  rw [e1, e2, hp]
  by_cases h : rem ≠ [] ∨ s.params.emptyFinalFlush = true
  · have h' : 0 < rem.length ∨ s.params.emptyFinalFlush = true := by
      rcases h with h | h
      · exact .inl (List.length_pos_iff.2 h)
      · exact .inr h
    rw [if_pos h', if_pos h]
    simpa using writeData_obeys rem t
  · have h' : ¬ (0 < rem.length ∨ s.params.emptyFinalFlush = true) := by
      rw [not_or] at h ⊢
      exact ⟨by simpa using h.1, h.2⟩
    rw [if_neg h', if_neg h]
    exact Obeys.nil _ _ (SameCore.refl _) rfl rfl rfl rfl

end Sys2Proof.Machine
end

