-- ==== Sys2Proof/Laws/Frame.lean ====
section
/-! SUPPORT. The laws of the frame memory: a read after a write, what a write and a forgetting leave alone, and that every operation keeps the canonical form. -/

namespace Sys2Proof.Machine

@[simp] theorem Memory.read_nil (a : Nat) : Memory.read [] a = none := rfl

@[simp] theorem Memory.read_cons (k a : Nat) (v : Byte) (m : Memory) :
    Memory.read ((k, v) :: m) a = if k = a then some v else Memory.read m a := rfl

theorem Memory.read_write (m : Memory) (a x : Nat) (b : Byte) :
    Memory.read (Memory.write m a b) x = if a = x then some b else Memory.read m x := by
  induction m with
  | nil => simp [Memory.write]
  | cons c m ih =>
    obtain ⟨k, v⟩ := c
    simp only [Memory.write]
    split
    · simp
    · split
      · subst_vars; simp only [Memory.read_cons]; split <;> rfl
      · simp only [Memory.read_cons, ih]; split <;> split <;> simp_all

theorem Memory.read_writePixel (m : Memory) (c r : Word) (h l : Byte) (x : Nat) :
    Memory.read (m.writePixel c r h l) x =
      if pixelAddr c r + 1 = x then some l else if pixelAddr c r = x then some h else Memory.read m x := by
  simp [Memory.writePixel, Memory.read_write]

theorem Memory.read_filter (p : Nat → Bool) (m : Memory) (x : Nat) :
    Memory.read (m.filter fun c => p c.1) x = if p x then Memory.read m x else none := by
  induction m with
  | nil => simp
  | cons c m ih =>
    obtain ⟨k, v⟩ := c
    by_cases hk : p k = true
    · simp only [List.filter_cons_of_pos (p := fun c : Host.Cell => p c.1) (a := (k, v)) hk, Memory.read_cons, ih]
      by_cases hx : k = x
      · subst hx; simp [hk]
      · simp [hx]
    · rw [List.filter_cons_of_neg (p := fun c : Host.Cell => p c.1) (a := (k, v)) hk, ih, Memory.read_cons]
      by_cases hx : k = x
      · subst hx; simp [hk]
      · simp [hx]

theorem Memory.read_forget (m : Memory) (win : Window) (x : Nat) :
    Memory.read (m.forget win) x = if inWindow win x then none else Memory.read m x := by
  rw [Memory.forget, Memory.read_filter fun a => !inWindow win a]
  cases inWindow win x <;> simp

theorem pixelAddr_lt (c r : Word) : pixelAddr c r + 1 < frameBytes := by
  have := c.isLt; have := r.isLt
  simp only [pixelAddr, frameBytes]; omega

theorem pixelAddr_inj {c r c' r' : Word} (h : pixelAddr c r = pixelAddr c' r') : c = c' ∧ r = r' := by
  have h1 := c.isLt; have h2 := c'.isLt
  simp only [pixelAddr] at h
  exact ⟨BitVec.eq_of_toNat_eq (by omega), BitVec.eq_of_toNat_eq (by omega)⟩

/-- A pixel just written is what was written; every other pixel is as before. -/
theorem Memory.pixel_writePixel (m : Memory) (c r c' r' : Word) (h l : Byte) :
    (m.writePixel c r h l).pixel c' r' = if c = c' ∧ r = r' then some (word16 h l) else m.pixel c' r' := by
  by_cases hp : c = c' ∧ r = r'
  · obtain ⟨rfl, rfl⟩ := hp
    simp [Memory.pixel, Memory.read_writePixel]
  · have hne : pixelAddr c r ≠ pixelAddr c' r' := fun h => hp (pixelAddr_inj h)
    have h1 : ¬ pixelAddr c r + 1 = pixelAddr c' r' := by simp only [pixelAddr]; omega
    have h2 : ¬ pixelAddr c r = pixelAddr c' r' + 1 := by simp only [pixelAddr]; omega
    simp [Memory.pixel, Memory.read_writePixel, hp, hne, h1, h2]

/-- A window of one pixel holds that pixel's two bytes. -/
theorem inWindow_single (c r : Word) (a : Nat) :
    inWindow { cols := { first := c, last := c }, rows := { first := r, last := r } } a = true ↔
      a = pixelAddr c r ∨ a = pixelAddr c r + 1 := by
  have := c.isLt
  simp only [inWindow, pixelAddr, Bool.and_eq_true, decide_eq_true_eq]
  omega

/-- Forgetting one pixel leaves every byte but its two. -/
theorem Memory.read_forgetPixel (m : Memory) (c r : Word) (x : Nat) :
    Memory.read (m.forget { cols := { first := c, last := c }, rows := { first := r, last := r } }) x =
      if x = pixelAddr c r ∨ x = pixelAddr c r + 1 then none else Memory.read m x := by
  rw [Memory.read_forget]
  simp only [inWindow_single]

theorem Memory.pixel_forgetPixel (m : Memory) (c r c' r' : Word) :
    (m.forget { cols := { first := c, last := c }, rows := { first := r, last := r } }).pixel c' r' =
      if c = c' ∧ r = r' then none else m.pixel c' r' := by
  by_cases hp : c = c' ∧ r = r'
  · obtain ⟨rfl, rfl⟩ := hp
    simp [Memory.pixel, Memory.read_forgetPixel]
  · have hne : ¬ pixelAddr c' r' = pixelAddr c r := fun h => hp (by obtain ⟨h1, h2⟩ := pixelAddr_inj h; exact ⟨h1.symm, h2.symm⟩)
    have h1 : ¬ pixelAddr c' r' = pixelAddr c r + 1 := by simp only [pixelAddr]; omega
    have h2 : ¬ pixelAddr c' r' + 1 = pixelAddr c r := by simp only [pixelAddr]; omega
    simp [Memory.pixel, Memory.read_forgetPixel, hp, hne, h1, h2]

/-- Forgotten and then written, a pixel is what was written; nothing else differs from writing it. -/
theorem Memory.read_rewritePixel (m : Memory) (c r : Word) (h l : Byte) (x : Nat) :
    Memory.read ((m.forget { cols := { first := c, last := c }, rows := { first := r, last := r } }).writePixel c r h l) x =
      Memory.read (m.writePixel c r h l) x := by
  rw [Memory.read_writePixel, Memory.read_writePixel, Memory.read_forgetPixel]
  split
  · rfl
  · split
    · rfl
    · rw [if_neg (by omega)]

theorem Memory.pixel_rewritePixel (m : Memory) (c r c' r' : Word) (h l : Byte) :
    ((m.forget { cols := { first := c, last := c }, rows := { first := r, last := r } }).writePixel c r h l).pixel c' r' =
      (m.writePixel c r h l).pixel c' r' := by
  simp only [Memory.pixel, Memory.read_rewritePixel]

theorem Memory.wf_iff (m : Memory) :
    m.wf = true ↔ (m.Pairwise fun a b => a.1 < b.1) ∧ ∀ c ∈ m, c.1 < frameBytes := by
  simp [Memory.wf]

theorem Memory.mem_write {m : Memory} {a : Nat} {b : Byte} {c : Host.Cell} (h : c ∈ Memory.write m a b) :
    c = (a, b) ∨ c ∈ m := by
  induction m with
  | nil => simpa [Memory.write] using h
  | cons d m ih =>
    obtain ⟨k, v⟩ := d
    simp only [Memory.write] at h
    split at h
    · simpa using h
    · split at h
      · simp only [List.mem_cons] at h ⊢; tauto
      · simp only [List.mem_cons] at h ⊢
        rcases h with h | h
        · exact .inr (.inl h)
        · rcases ih h with h | h <;> tauto

theorem Memory.write_wf {m : Memory} (hm : m.wf = true) {a : Nat} (ha : a < frameBytes) (b : Byte) :
    (Memory.write m a b).wf = true := by
  rw [Memory.wf_iff] at hm ⊢
  refine ⟨?_, fun c hc => ?_⟩
  · obtain ⟨hp, -⟩ := hm
    induction m with
    | nil => simp [Memory.write]
    | cons d m ih =>
      obtain ⟨k, v⟩ := d
      rw [List.pairwise_cons] at hp
      simp only [Memory.write]
      split
      · rename_i hlt
        refine List.pairwise_cons.2 ⟨fun c hc => ?_, List.pairwise_cons.2 hp⟩
        rcases List.mem_cons.1 hc with rfl | hc
        · exact hlt
        · exact lt_trans hlt (hp.1 c hc)
      · split
        · subst_vars
          exact List.pairwise_cons.2 hp
        · refine List.pairwise_cons.2 ⟨fun c hc => ?_, ih hp.2⟩
          rcases Memory.mem_write hc with rfl | hc
          · simp only; omega
          · exact hp.1 c hc
  · rcases Memory.mem_write hc with rfl | hc
    · exact ha
    · exact hm.2 c hc

theorem Memory.writePixel_wf {m : Memory} (hm : m.wf = true) (c r : Word) (h l : Byte) :
    (m.writePixel c r h l).wf = true :=
  Memory.write_wf (Memory.write_wf hm (by have := pixelAddr_lt c r; omega) h) (pixelAddr_lt c r) l

theorem Memory.forget_wf {m : Memory} (hm : m.wf = true) (win : Window) : (m.forget win).wf = true := by
  rw [Memory.wf_iff] at hm ⊢
  exact ⟨hm.1.filter _, fun c hc => hm.2 c (List.mem_filter.1 hc).1⟩

@[simp] theorem Memory.wf_nil : Memory.wf [] = true := rfl

/-! The sink keeps the canonical form. -/

theorem Sink.commandByte_wf (p : Params) {k : Sink} (hk : k.mem.wf = true) (b : Byte) :
    (k.commandByte p b).mem.wf = true := by
  unfold Sink.commandByte
  split; · exact hk
  split; · exact hk
  split
  · unfold Sink.startWrite
    split
    · exact Memory.forget_wf hk _
    · rfl
  split; · rfl
  split; · exact hk
  rfl

theorem Sink.dataByte_wf {k : Sink} (hk : k.mem.wf = true) (b : Byte) : (k.dataByte b).mem.wf = true := by
  unfold Sink.dataByte
  split <;> first | exact hk | exact Memory.writePixel_wf hk _ _ _ _ | exact Memory.forget_wf hk _ | rfl

theorem Sink.receive_wf (p : Params) (l : Lines) (bs : List Byte) {k : Sink} (hk : k.mem.wf = true) :
    (k.receive p l bs).mem.wf = true := by
  unfold Sink.receive
  split
  · induction bs generalizing k with
    | nil => exact hk
    | cons b bs ih => exact ih (Sink.commandByte_wf p hk b)
  · induction bs generalizing k with
    | nil => exact hk
    | cons b bs ih => exact ih (Sink.dataByte_wf hk b)
  · rfl

theorem Sink.take_wf (c : Ctrl) (p : Params) (l : Lines) (bs : List Byte) {k : Sink} (hk : k.mem.wf = true) :
    (k.take c p l bs).mem.wf = true := by
  have h : ∀ (bs : List Byte) {k : Sink}, k.mem.wf = true → (bs.foldl (fun k _ => Sink.forgetAll k) k).mem.wf = true := by
    intro bs
    induction bs with
    | nil => exact fun h => h
    | cons b bs ih => exact fun _ => ih rfl
  cases c
  · exact h bs hk
  · exact h bs hk
  · exact Sink.receive_wf p l bs hk

end Sys2Proof.Machine
end

