-- ==== Sys2Proof/Laws/Sink.lean ====
section
/-! SUPPORT. What the controller has heard after a run of events (20_memory R68 to R76): `Hears es s r`, closed under `andThen`, and what whole transactions and pixel streams do to the sink. -/

namespace Sys2Proof.Machine

/-- The sink after events all answered ok, with `ctrl` and the lines as they stand before them. -/
def hearEvents (x : Ctrl) (p : Params) : Lines → Sink → List Event → Sink
  | _, k, [] => k
  | l, k, .bus bs :: es => hearEvents x p l (k.take x p l bs) es
  | l, k, .sel v :: es => hearEvents x p (l.after (.sel v, .ok)) k es
  | l, k, .ce v :: es => hearEvents x p (l.after (.ce v, .ok)) k es
  | l, k, .rst v :: es => hearEvents x p (l.after (.rst v, .ok)) k es
  | l, k, .dly v :: es => hearEvents x p (l.after (.dly v, .ok)) k es

theorem hearEvents_append (x : Ctrl) (p : Params) (l : Lines) (k : Sink) (a b : List Event) :
    hearEvents x p l k (a ++ b) = hearEvents x p (l.replay (allOk a)) (hearEvents x p l k a) b := by
  induction a generalizing l k with
  | nil => rfl
  | cons e a ih => cases e <;> (simp [hearEvents, ih]; try rfl)

/-- A run that ends done leaves `ctrl` as it was and the controller having taken the events. -/
def Hears (es : List Event) (s : State) (r : Run) : Prop :=
  ∀ t, r = .done t → t.ctrl = s.ctrl ∧ t.sink = hearEvents s.ctrl s.params s.lines s.sink es

theorem Hears.nil (s t : State) (h1 : t.ctrl = s.ctrl) (h2 : t.sink = s.sink) : Hears [] s (.done t) := by
  intro u hu; cases hu; simp [h1, h2, hearEvents]

theorem Hears.andThen {es fs : List Event} {s : State} {r : Run} {f : State → Run} (h : Hears es s r)
    (ho : Obeys es s r) (hf : ∀ t, r = .done t → Hears fs t (f t)) : Hears (es ++ fs) s (r.andThen f) := by
  intro u hu
  cases r with
  | failed t => cases hu
  | hung => cases hu
  | done t =>
    obtain ⟨h1, h2⟩ := h t rfl
    obtain ⟨g1, g2⟩ := hf t rfl u hu
    refine ⟨g1.trans h1, ?_⟩
    rw [g2, h1, h2, ho.params, ho.2.1, hearEvents_append]

theorem perform_hears (e : Event) (onOk onFail : State → State) (s : State)
    (hok : ∀ t, (onOk t).ctrl = t.ctrl ∧
      (onOk t).sink = hearEvents t.ctrl t.params t.lines t.sink [e]) :
    Hears [e] s (perform e onOk onFail s) := by
  intro t ht
  unfold perform at ht
  split at ht
  · cases ht
    have h := hok (s.popReply.record e .ok)
    simp only [State.record_ctrl, State.popReply_ctrl, State.record_params, State.popReply_params, State.record_lines,
      State.popReply_lines, State.record_sink, State.popReply_sink] at h
    exact h
  · cases ht
  · cases ht

theorem driveSel_hears (l : SelLevel) (s : State) : Hears [.sel l] s (driveSel l s) :=
  perform_hears _ _ _ s (by simp [hearEvents])
theorem driveCe_hears (l : CeLevel) (s : State) : Hears [.ce l] s (driveCe l s) :=
  perform_hears _ _ _ s (by simp [hearEvents])
theorem driveRst_hears (l : RstLevel) (s : State) : Hears [.rst l] s (driveRst l s) :=
  perform_hears _ _ _ s (by simp [hearEvents])
theorem busWrite_hears (bs : List Byte) (s : State) : Hears [.bus bs] s (busWrite bs s) :=
  perform_hears _ _ _ s (by simp [hearEvents])

theorem writeData_hears (bs : List Byte) (s : State) : Hears (dataTransaction bs) s (writeData bs s) := by
  unfold writeData
  have o1 := driveCe_obeys .act s
  have h1 := driveCe_hears .act s
  have o2 := Obeys.andThen o1 fun t _ => driveSel_obeys .dat t
  have h2 := Hears.andThen h1 o1 fun t _ => driveSel_hears .dat t
  have o3 := Obeys.andThen o2 fun t _ => busWrite_obeys bs t
  have h3 := Hears.andThen h2 o2 fun t _ => busWrite_hears bs t
  exact Hears.andThen h3 o3 fun t _ => driveCe_hears .inact t

theorem writeCommand_hears (op : Byte) (ps : List Byte) (s : State) :
    Hears (commandTransaction op ps) s (writeCommand op ps s) := by
  unfold commandTransaction writeCommand
  have o1 := driveCe_obeys .act s
  have h1 := driveCe_hears .act s
  have o2 := Obeys.andThen o1 fun t _ => driveSel_obeys .cmd t
  have h2 := Hears.andThen h1 o1 fun t _ => driveSel_hears .cmd t
  have o3 := Obeys.andThen o2 fun t _ => busWrite_obeys [op] t
  have h3 := Hears.andThen h2 o2 fun t _ => busWrite_hears [op] t
  cases ps with
  | nil =>
    have o4 := Obeys.andThen o3 (fs := []) (f := .done) fun t _ => Obeys.nil t t (SameCore.refl t) rfl rfl rfl rfl
    have h4 := Hears.andThen h3 o3 (fs := []) (f := .done) fun t _ => Hears.nil t t rfl rfl
    exact Hears.andThen h4 o4 fun t _ => driveCe_hears .inact t
  | cons p ps =>
    have o4 := Obeys.andThen o3 (f := fun t => (driveSel .dat t).andThen (busWrite (p :: ps)))
      fun t _ => Obeys.andThen (driveSel_obeys .dat t) fun u _ => busWrite_obeys (p :: ps) u
    have h4 := Hears.andThen h3 o3 (f := fun t => (driveSel .dat t).andThen (busWrite (p :: ps)))
      fun t _ => Hears.andThen (driveSel_hears .dat t) (driveSel_obeys .dat t) fun u _ => busWrite_hears (p :: ps) u
    exact Hears.andThen h4 o4 fun t _ => driveCe_hears .inact t

theorem forEach_hears {α : Type} {f : α → State → Run} {g : α → List Event} (ho : ∀ x s, Obeys (g x) s (f x s))
    (hf : ∀ x s, Hears (g x) s (f x s)) (xs : List α) (s : State) : Hears (xs.flatMap g) s (forEach f xs s) := by
  induction xs generalizing s with
  | nil => exact Hears.nil _ _ rfl rfl
  | cons x xs ih =>
    rw [List.flatMap_cons]
    exact Hears.andThen (hf x s) (ho x s) fun t _ => ih t

theorem sendWindow_hears (win : Window) (s : State) : Hears (windowEvents s.params win) s (sendWindow win s) := by
  unfold sendWindow windowEvents
  have h := writeCommand_obeys s.params.codes.caset (spanBytes win.cols) s
  refine Hears.andThen (writeCommand_hears _ _ _) h fun t ht => ?_
  rw [← (ht ▸ h : Obeys _ s (.done t)).params]
  exact writeCommand_hears _ _ _

theorem memoryWrite_hears (s : State) : Hears (memoryWriteEvents s.params) s (memoryWrite s) := writeCommand_hears _ _ _

theorem writeWord_hears (w : Word) (s : State) : Hears (dataTransaction (be16 w)) s (writeWord w s) :=
  writeData_hears _ _

theorem sendRow_hears (row : List Byte) (s : State) : Hears (dataRuns (chunks row)) s (sendRow row s) :=
  forEach_hears writeData_obeys writeData_hears _ _

theorem allOk_inj {a b : List Event} (h : allOk a = allOk b) : a = b := by
  have h2 := congrArg (List.map Prod.fst) h
  rwa [allOk, allOk, List.map_map, List.map_map, show (Prod.fst ∘ fun e : Event => (e, Answer.ok)) = id from rfl,
    List.map_id, List.map_id] at h2

/-- The staging loop, heard. -/
theorem stageLoop_hears (ws : List Word) (s : State) (fulls : List (List Byte)) (rem : List Byte)
    (hfill : s.fill < 32) (heven : s.fill % 2 = 0) (hsplit : s.staged ++ ws.flatMap be16 = fulls.flatten ++ rem)
    (hf : ∀ f ∈ fulls, f.length = 32) (hr : rem.length < 32) : Hears (dataRuns fulls) s (stageLoop ws s) := by
  induction ws generalizing s fulls with
  | nil =>
    have hl := s.staged_length (by omega)
    simp only [List.flatMap_nil, List.append_nil] at hsplit
    have hnil : fulls = [] := by
      cases fulls with
      | nil => rfl
      | cons f fs =>
        have := congrArg List.length hsplit
        have := hf f (by simp)
        simp at *; omega
    subst hnil
    exact Hears.nil _ _ rfl rfl
  | cons w ws ih =>
    have hst : (s.stageWord w).staged = s.staged ++ be16 w := s.staged_stageWord w (by omega)
    have hl : (s.stageWord w).staged.length = s.fill + 2 := by simp [hst, s.staged_length (show s.fill ≤ 32 by omega)]
    have hsplit' : (s.stageWord w).staged ++ ws.flatMap be16 = fulls.flatten ++ rem := by
      rw [hst, ← hsplit]; simp
    have hsame : Obeys [] s (.done (s.stageWord w)) :=
      Obeys.nil _ _ (by simp [SameCore, SameOffsets, SameStraps]) rfl rfl rfl rfl
    have hsameh : Hears [] s (.done (s.stageWord w)) := Hears.nil _ _ rfl rfl
    unfold stageLoop
    by_cases hfull : (s.stageWord w).fill = bufCap
    · rw [if_pos hfull]
      have hfull' : s.fill + 2 = 32 := hfull
      cases fulls with
      | nil =>
        have := congrArg List.length hsplit'
        simp only [List.length_append, List.flatten_nil, List.nil_append, hl] at this
        omega
      | cons f fs =>
        rw [List.flatten_cons, List.append_assoc] at hsplit'
        obtain ⟨h1, h2⟩ := List.append_inj hsplit' (by rw [hl, hf f (by simp), hfull'])
        rw [h1]
        have h3 : Hears (dataTransaction f ++ dataRuns fs) (s.stageWord w)
            ((writeData f (s.stageWord w)).andThen fun t => stageLoop ws t.clearFill) := by
          refine Hears.andThen (writeData_hears _ _) (writeData_obeys _ _) fun t _ => ?_
          have g1 := ih t.clearFill fs (by simp) (by simp) (by simpa using h2) fun g hg => hf g (by simp [hg])
          have hc : Obeys [] t (.done t.clearFill) :=
            Obeys.nil _ _ (by simp [SameCore, SameOffsets, SameStraps]) rfl rfl rfl rfl
          exact Hears.andThen (es := []) (Hears.nil _ _ rfl rfl) hc fun u hu => by cases hu; exact g1
        have h4 := Hears.andThen hsameh hsame (fs := dataTransaction f ++ dataRuns fs)
          (f := fun u => (writeData f u).andThen fun t => stageLoop ws t.clearFill) fun u hu => by cases hu; exact h3
        simpa [dataRuns] using h4
    · rw [if_neg hfull]
      have hne : ¬ s.fill + 2 = 32 := hfull
      have g1 := ih (s.stageWord w) fulls (by simp; omega) (by simp; omega) hsplit' hf
      exact Hears.andThen hsameh hsame fun u hu => by cases hu; exact g1

theorem writeWordsBuffered_hears (ws : List Word) (s : State) :
    Hears (dataRuns (flushRuns s.params ws)) s (writeWordsBuffered ws s) := by
  obtain ⟨fulls, rem, hbs, hf, hr⟩ := exists_full_split (ws.flatMap be16)
  obtain ⟨g1, g2⟩ := stageLoop_obeys ws s.clearFill fulls rem (by simp) (by simp) (by simpa using hbs) hf hr
  have gh := stageLoop_hears ws s.clearFill fulls rem (by simp) (by simp) (by simpa using hbs) hf hr
  intro t ht
  have hall := writeWordsBuffered_obeys ws s
  rw [ht] at hall
  unfold writeWordsBuffered at ht
  cases hl : stageLoop ws s.clearFill with
  | failed u => rw [hl] at ht; cases ht
  | hung => rw [hl] at ht; cases ht
  | done u =>
    rw [hl] at ht gh g1
    obtain ⟨e1, e2⟩ := g2 u hl
    rw [Run.andThen_done] at ht
    obtain ⟨c1, c2⟩ := gh u rfl
    simp only [State.clearFill_ctrl, State.clearFill_params, State.clearFill_lines, State.clearFill_sink] at c1 c2
    split at ht
    · obtain ⟨d1, d2⟩ := writeData_hears _ u t ht
      have hw := writeData_obeys u.staged u
      rw [ht] at hw
      have htr : allOk (dataRuns (flushRuns s.params ws)) = allOk (dataRuns fulls ++ dataTransaction u.staged) := by
        have h3 := hall.1
        rw [hw.1, g1.1] at h3
        simpa using h3.symm
      have hev : dataRuns (flushRuns s.params ws) = dataRuns fulls ++ dataTransaction u.staged := allOk_inj htr
      refine ⟨d1.trans c1, ?_⟩
      rw [hev, d2, c1, c2, g1.params, g1.2.1]
      simp [hearEvents_append]
    · cases ht
      have htr : allOk (dataRuns (flushRuns s.params ws)) = allOk (dataRuns fulls) := by
        have h3 := hall.1
        rw [g1.1] at h3
        simpa using h3.symm
      have hev : dataRuns (flushRuns s.params ws) = dataRuns fulls := allOk_inj htr
      rw [hev]
      exact ⟨c1, c2⟩

/-! What whole transactions do to the sink. -/

/-- A byte taken at the data level with chip-enable active, whatever `ctrl` is. -/
def Sink.takeData (x : Ctrl) (k : Sink) (b : Byte) : Sink := if x = .initialized then k.dataByte b else k.forgetAll

/-- A byte taken at the command level with chip-enable active, whatever `ctrl` is. -/
def Sink.takeCode (x : Ctrl) (p : Params) (k : Sink) (b : Byte) : Sink :=
  if x = .initialized then k.commandByte p b else k.forgetAll

@[simp] theorem Sink.takeData_initialized : Sink.takeData .initialized = Sink.dataByte := rfl
@[simp] theorem Sink.takeCode_initialized : Sink.takeCode .initialized = fun p k b => Sink.commandByte p k b := rfl

/-- While `ctrl` is not Initialized one byte is enough, and nothing is known. -/
theorem Sink.takeData_knowsNothing {x : Ctrl} (h : x ≠ .initialized) {k : Sink} (hk : k.knowsNothing = true)
    (bs : List Byte) : (bs.foldl (Sink.takeData x) k).knowsNothing = true := by
  induction bs generalizing k with
  | nil => exact hk
  | cons b bs ih => exact ih (by rw [Sink.takeData, if_neg h]; rfl)

@[simp] theorem Sink.take_data (x : Ctrl) (p : Params) (l : Lines) (bs : List Byte) (k : Sink) (h1 : l.ce = .held .act)
    (h2 : l.sel = .held .dat) : k.take x p l bs = bs.foldl (Sink.takeData x) k := by
  cases x
  · rfl
  · rfl
  · simp [Sink.take, Sink.receive, h1, h2]

@[simp] theorem Sink.take_code (x : Ctrl) (p : Params) (l : Lines) (bs : List Byte) (k : Sink) (h1 : l.ce = .held .act)
    (h2 : l.sel = .held .cmd) : k.take x p l bs = bs.foldl (Sink.takeCode x p) k := by
  cases x
  · rfl
  · rfl
  · simp [Sink.take, Sink.receive, h1, h2]

@[simp] theorem hear_commandTransaction (x : Ctrl) (p : Params) (l : Lines) (k : Sink) (op : Byte) (ps : List Byte) :
    hearEvents x p l k (commandTransaction op ps) = ps.foldl (Sink.takeData x) (k.takeCode x p op) := by
  cases ps <;> simp [commandTransaction, hearEvents, Lines.after]

@[simp] theorem hear_dataTransaction (x : Ctrl) (p : Params) (l : Lines) (k : Sink) (bs : List Byte) :
    hearEvents x p l k (dataTransaction bs) = bs.foldl (Sink.takeData x) k := by
  simp [dataTransaction, hearEvents, Lines.after]

@[simp] theorem hear_dataRuns (x : Ctrl) (p : Params) (l : Lines) (k : Sink) (runs : List (List Byte)) :
    hearEvents x p l k (dataRuns runs) = runs.flatten.foldl (Sink.takeData x) k := by
  induction runs generalizing l k with
  | nil => rfl
  | cons r rs ih =>
    simp only [dataRuns, List.flatMap_cons, hearEvents_append, hear_dataTransaction, List.flatten_cons, List.foldl_append]
    exact ih _ _

theorem getLsbD_word16 (h l : Byte) (i : Nat) :
    (word16 h l).getLsbD i = if i < 8 then l.getLsbD i else h.getLsbD (i - 8) := by
  rw [word16]
  exact (BitVec.getLsbD_append ..).trans (by cases decide (i < 8) <;> simp_all)

theorem word16_be16 (w : Word) : word16 (hi8 w) (lo8 w) = w := by
  apply BitVec.eq_of_getLsbD_eq
  intro i hi
  rw [getLsbD_word16]
  simp only [hi8, lo8, BitVec.getLsbD_extractLsb']
  by_cases h : i < 8
  · simp [h]
  · have h1 : 8 + (i - 8) = i := by omega
    have h2 : i - 8 < 8 := by omega
    simp [h, h1, h2]

theorem hi8_word16 (h l : Byte) : hi8 (word16 h l) = h := by
  apply BitVec.eq_of_getLsbD_eq
  intro i hi
  rw [hi8, BitVec.getLsbD_extractLsb', getLsbD_word16]
  simp [hi]

theorem lo8_word16 (h l : Byte) : lo8 (word16 h l) = l := by
  apply BitVec.eq_of_getLsbD_eq
  intro i hi
  rw [lo8, BitVec.getLsbD_extractLsb', getLsbD_word16]
  simp [hi]

/-- The four bytes of a window command spell its span (10_state R29, 20_memory R69). -/
theorem spanOf_spanBytes (sp : Span) :
    spanOf (spanBytes sp) = if sp.first.toNat ≤ sp.last.toNat then .held sp else .unknown := by
  simp [spanBytes, be16, spanOf, word16_be16]

/-! A stream of pixels (20_memory R70). -/

theorem Window.upright_iff (win : Window) :
    win.upright = true ↔
      win.cols.first.toNat ≤ win.cols.last.toNat ∧ win.rows.first.toNat ≤ win.rows.last.toNat := by
  simp [Window.upright]

theorem Window.ncols_pos (win : Window) : 0 < win.ncols := by simp [Window.ncols]

theorem Window.colAt_toNat {win : Window} (h : win.upright = true) (n : Nat) :
    (win.colAt n).toNat = win.cols.first.toNat + n % win.ncols := by
  rw [Window.upright_iff] at h
  have h1 := win.cols.last.isLt
  have h2 := Nat.mod_lt n win.ncols_pos
  have h3 : win.ncols = win.cols.last.toNat - win.cols.first.toNat + 1 := rfl
  rw [Window.colAt, BitVec.toNat_add, BitVec.toNat_ofNat, Nat.mod_eq_of_lt (a := n % win.ncols) (by omega),
    Nat.mod_eq_of_lt (by omega)]

theorem Window.rowAt_toNat {win : Window} (h : win.upright = true) {n : Nat} (hn : n < win.count) :
    (win.rowAt n).toNat = win.rows.first.toNat + n / win.ncols := by
  rw [Window.upright_iff] at h
  have h1 := win.rows.last.isLt
  have h2 : n / win.ncols < win.nrows := Nat.div_lt_of_lt_mul hn
  have h3 : win.nrows = win.rows.last.toNat - win.rows.first.toNat + 1 := rfl
  rw [Window.rowAt, BitVec.toNat_add, BitVec.toNat_ofNat, Nat.mod_eq_of_lt (a := n / win.ncols) (by omega),
    Nat.mod_eq_of_lt (by omega)]

/-- The write position advances in row-major order (20_memory R70). -/
theorem nextPosition_at {win : Window} (h : win.upright = true) {n : Nat} (hn : n < win.count) :
    nextPosition win (win.colAt n) (win.rowAt n) =
      if n + 1 = win.count then .full else .writing win (win.colAt (n + 1)) (win.rowAt (n + 1)) none := by
  have hc := Window.colAt_toNat h n
  have hr := Window.rowAt_toNat h hn
  have hu := win.upright_iff.1 h
  have h3 : win.ncols = win.cols.last.toNat - win.cols.first.toNat + 1 := rfl
  have h4 : win.nrows = win.rows.last.toNat - win.rows.first.toNat + 1 := rfl
  have hpos := win.ncols_pos
  have hm := Nat.mod_lt n hpos
  have hd : n / win.ncols < win.nrows := Nat.div_lt_of_lt_mul hn
  have hdm := Nat.div_add_mod n win.ncols
  have hcount : win.count = win.ncols * win.nrows := rfl
  have hcl : win.colAt n = win.cols.last ↔ n % win.ncols + 1 = win.ncols := by
    rw [← BitVec.toNat_inj, hc]; omega
  have hrl : win.rowAt n = win.rows.last ↔ n / win.ncols + 1 = win.nrows := by
    rw [← BitVec.toNat_inj, hr]; omega
  unfold nextPosition
  by_cases h1 : n % win.ncols + 1 = win.ncols
  · have hn1 : n + 1 = win.ncols * (n / win.ncols + 1) := by rw [Nat.mul_add]; omega
    have hm1 : (n + 1) % win.ncols = 0 := by rw [hn1]; exact Nat.mul_mod_right _ _
    have hd1 : (n + 1) / win.ncols = n / win.ncols + 1 := by rw [hn1]; exact Nat.mul_div_cancel_left _ hpos
    rw [if_pos (hcl.2 h1)]
    by_cases h2 : n / win.ncols + 1 = win.nrows
    · rw [if_pos (hrl.2 h2), if_pos (by rw [hn1, h2, hcount])]
    · have h5 : ¬ n + 1 = win.count := by
        rw [hn1, hcount]
        intro h6
        exact h2 (Nat.eq_of_mul_eq_mul_left hpos h6)
      rw [if_neg fun h6 => h2 (hrl.1 h6), if_neg h5]
      congr 1
      · simp [Window.colAt, hm1]
      · rw [Window.rowAt, Window.rowAt, hd1, BitVec.ofNat_add, BitVec.add_assoc]; rfl
  · have hlt : n % win.ncols + 1 < win.ncols := by omega
    have hn1 : n + 1 = (n % win.ncols + 1) + win.ncols * (n / win.ncols) := by omega
    have hm1 : (n + 1) % win.ncols = n % win.ncols + 1 := by
      rw [hn1, Nat.add_mul_mod_self_left, Nat.mod_eq_of_lt hlt]
    have hd1 : (n + 1) / win.ncols = n / win.ncols := by
      rw [hn1, Nat.add_mul_div_left _ _ hpos, Nat.div_eq_of_lt hlt, Nat.zero_add]
    have h5 : ¬ n + 1 = win.count := by
      intro h6
      have : (n + 1) % win.ncols = 0 := by rw [h6, hcount]; exact Nat.mul_mod_right _ _
      omega
    rw [if_neg fun h6 => h1 (hcl.1 h6), if_neg h5]
    congr 1
    · rw [Window.colAt, Window.colAt, hm1, BitVec.ofNat_add, BitVec.add_assoc]; rfl
    · rw [Window.rowAt, Window.rowAt, hd1]

/-- Different pixels of a window stand at different places. -/
theorem Window.at_inj {win : Window} (h : win.upright = true) {m n : Nat} (hm : m < win.count) (hn : n < win.count)
    (hc : win.colAt m = win.colAt n) (hr : win.rowAt m = win.rowAt n) : m = n := by
  have h1 := congrArg BitVec.toNat hc
  have h2 := congrArg BitVec.toNat hr
  rw [Window.colAt_toNat h, Window.colAt_toNat h] at h1
  rw [Window.rowAt_toNat h hm, Window.rowAt_toNat h hn] at h2
  have h3 : m % win.ncols = n % win.ncols := by omega
  have h4 : m / win.ncols = n / win.ncols := by omega
  rw [← Nat.div_add_mod m win.ncols, ← Nat.div_add_mod n win.ncols, h3, h4]

theorem pixelAddr_div (c r : Word) : pixelAddr c r / 2 = r.toNat * 65536 + c.toNat ∧
    (pixelAddr c r + 1) / 2 = r.toNat * 65536 + c.toNat := by
  simp only [pixelAddr]; omega

theorem inWindow_pixel {win : Window} {c r : Word} {a : Nat} (ha : a = pixelAddr c r ∨ a = pixelAddr c r + 1) :
    inWindow win a =
      (decide (win.cols.first.toNat ≤ c.toNat) && decide (c.toNat ≤ win.cols.last.toNat) &&
        decide (win.rows.first.toNat ≤ r.toNat) && decide (r.toNat ≤ win.rows.last.toNat)) := by
  have hc := c.isLt
  have h2 : a / 2 = r.toNat * 65536 + c.toNat := by
    rcases ha with rfl | rfl
    · exact (pixelAddr_div c r).1
    · exact (pixelAddr_div c r).2
  have h3 : a / 2 % 65536 = c.toNat := by rw [h2]; omega
  have h4 : a / 2 / 65536 = r.toNat := by rw [h2]; omega
  rw [inWindow, h3, h4]

theorem Window.at_inWindow {win : Window} (h : win.upright = true) {n : Nat} (hn : n < win.count) {a : Nat}
    (ha : a = pixelAddr (win.colAt n) (win.rowAt n) ∨ a = pixelAddr (win.colAt n) (win.rowAt n) + 1) :
    inWindow win a = true := by
  rw [inWindow_pixel ha, Window.colAt_toNat h, Window.rowAt_toNat h hn]
  have hu := win.upright_iff.1 h
  have h3 : win.ncols = win.cols.last.toNat - win.cols.first.toNat + 1 := rfl
  have h4 : win.nrows = win.rows.last.toNat - win.rows.first.toNat + 1 := rfl
  have hm := Nat.mod_lt n win.ncols_pos
  have hd : n / win.ncols < win.nrows := Nat.div_lt_of_lt_mul hn
  simp; omega

/-- A STREAM OF PIXELS from the window's `n`-th on, no longer than what is left of it: each lands in its place, nothing
outside them changes, and the position is what the count says (20_memory R70). -/
theorem stream_pixels {win : Window} (h : win.upright = true) (ws : List Word) (k : Sink) (n : Nat)
    (hlen : n + ws.length ≤ win.count)
    (hcmd : k.cmd = if n = win.count then .full else .writing win (win.colAt n) (win.rowAt n) none) :
    ∃ m, (ws.flatMap be16).foldl Sink.dataByte k =
        { k with
          mem := m
          draws := k.draws + ws.length
          cmd := if n + ws.length = win.count then .full
            else .writing win (win.colAt (n + ws.length)) (win.rowAt (n + ws.length)) none } ∧
      (∀ j (hj : j < ws.length), m.pixel (win.colAt (n + j)) (win.rowAt (n + j)) = some ws[j]) ∧
      (∀ a, inWindow win a = false → m.read a = k.mem.read a) ∧
      ∀ q, q < win.count → (q < n ∨ n + ws.length ≤ q) →
        m.pixel (win.colAt q) (win.rowAt q) = k.mem.pixel (win.colAt q) (win.rowAt q) := by
  induction ws generalizing k n with
  | nil =>
    refine ⟨k.mem, ?_, by simp, by simp, by simp⟩
    cases k
    simp only at hcmd
    simp [hcmd]
  | cons w ws ih =>
    simp only [List.length_cons] at hlen
    have hn : n < win.count := by omega
    have hk : k.cmd = .writing win (win.colAt n) (win.rowAt n) none := by rw [hcmd, if_neg (by omega)]
    have hstep : [hi8 w, lo8 w].foldl Sink.dataByte k =
        { k.forgetPixel (win.colAt n) (win.rowAt n) with
          mem := (k.forgetPixel (win.colAt n) (win.rowAt n)).mem.writePixel (win.colAt n) (win.rowAt n) (hi8 w) (lo8 w)
          cmd := nextPosition win (win.colAt n) (win.rowAt n) } := by
      simp [Sink.dataByte, hk]
    obtain ⟨m, h1, h2, h3, h4⟩ := ih
      { k.forgetPixel (win.colAt n) (win.rowAt n) with
        mem := (k.forgetPixel (win.colAt n) (win.rowAt n)).mem.writePixel (win.colAt n) (win.rowAt n) (hi8 w) (lo8 w)
        cmd := nextPosition win (win.colAt n) (win.rowAt n) } (n + 1) (by omega) (nextPosition_at h hn)
    simp only [Sink.forgetPixel, Sink.forgetWindow] at h1 h2 h3 h4
    refine ⟨m, ?_, ?_, ?_, ?_⟩
    · rw [List.flatMap_cons, List.foldl_append, be16, hstep]
      simp only [Sink.forgetPixel, Sink.forgetWindow]
      rw [h1]
      simp only [List.length_cons, show n + 1 + ws.length = n + (ws.length + 1) by omega,
        show k.draws + 1 + ws.length = k.draws + (ws.length + 1) by omega]
    · intro j hj
      cases j with
      | zero =>
        have := h4 n hn (.inl (by omega))
        simp only [Nat.add_zero, List.getElem_cons_zero, this, Memory.pixel_writePixel]
        simp [word16_be16]
      | succ j =>
        have := h2 j (by simpa using hj)
        rw [show n + (j + 1) = n + 1 + j by omega]
        simpa using this
    · intro a ha
      rw [h3 a ha, Memory.read_rewritePixel, Memory.read_writePixel]
      have e1 : ¬ pixelAddr (win.colAt n) (win.rowAt n) + 1 = a := fun e => by
        rw [Window.at_inWindow h hn (.inr e.symm)] at ha; cases ha
      have e2 : ¬ pixelAddr (win.colAt n) (win.rowAt n) = a := fun e => by
        rw [Window.at_inWindow h hn (.inl e.symm)] at ha; cases ha
      simp [e1, e2]
    · intro q hq hcase
      rw [h4 q hq (by simp only [List.length_cons] at hcase; omega), Memory.pixel_rewritePixel, Memory.pixel_writePixel]
      have : ¬ (win.colAt n = win.colAt q ∧ win.rowAt n = win.rowAt q) := fun e => by
        have := Window.at_inj h hn hq e.1 e.2
        simp only [List.length_cons] at hcase
        omega
      simp [this]

/-- A stream of pixels leaves every byte of the frame memory but those of the pixels it writes (20_memory R70). -/
theorem stream_elsewhere {win : Window} (h : win.upright = true) (ws : List Word) (k : Sink) (n : Nat)
    (hlen : n + ws.length ≤ win.count)
    (hcmd : k.cmd = if n = win.count then .full else .writing win (win.colAt n) (win.rowAt n) none) (a : Nat)
    (ha : ∀ j, j < ws.length → a ≠ pixelAddr (win.colAt (n + j)) (win.rowAt (n + j)) ∧
      a ≠ pixelAddr (win.colAt (n + j)) (win.rowAt (n + j)) + 1) :
    ((ws.flatMap be16).foldl Sink.dataByte k).mem.read a = k.mem.read a := by
  induction ws generalizing k n with
  | nil => rfl
  | cons w ws ih =>
    simp only [List.length_cons] at hlen ha
    have hk : k.cmd = .writing win (win.colAt n) (win.rowAt n) none := by rw [hcmd, if_neg (by omega)]
    have hstep : [hi8 w, lo8 w].foldl Sink.dataByte k =
        { k.forgetPixel (win.colAt n) (win.rowAt n) with
          mem := (k.forgetPixel (win.colAt n) (win.rowAt n)).mem.writePixel (win.colAt n) (win.rowAt n) (hi8 w) (lo8 w)
          cmd := nextPosition win (win.colAt n) (win.rowAt n) } := by
      simp [Sink.dataByte, hk]
    rw [List.flatMap_cons, List.foldl_append, be16, hstep, ih _ (n + 1) (by omega) (nextPosition_at h (by omega))]
    · have := ha 0 (by omega)
      rw [Nat.add_zero] at this
      simp only [Sink.forgetPixel, Sink.forgetWindow]
      rw [Memory.read_rewritePixel, Memory.read_writePixel, if_neg (Ne.symm this.2), if_neg (Ne.symm this.1)]
    · intro j hj
      rw [show n + 1 + j = n + (j + 1) by omega]
      exact ha (j + 1) (by omega)

/-- The second byte of a pixel lands it and advances the position (20_memory R70). -/
theorem Sink.dataByte_half {win : Window} (h : win.upright = true) {n : Nat} (hn : n < win.count) {k : Sink} {x : Byte}
    (b : Byte) (hc : k.cmd = .writing win (win.colAt n) (win.rowAt n) (some x)) :
    k.dataByte b =
      { k with
        mem := k.mem.writePixel (win.colAt n) (win.rowAt n) x b
        cmd := if n + 1 = win.count then .full else .writing win (win.colAt (n + 1)) (win.rowAt (n + 1)) none } := by
  simp only [Sink.dataByte, hc, nextPosition_at h hn]

/-- Parameter bytes leave the frame memory (logs 19, 21). -/
theorem Sink.parameters_mem {k : Sink} (h : k.takesParameters = true) (bs : List Byte) :
    (bs.foldl Sink.dataByte k).mem = k.mem := by
  induction bs generalizing k with
  | nil => rfl
  | cons b bs ih =>
    have hb : (k.dataByte b).takesParameters = true ∧ (k.dataByte b).mem = k.mem := by
      unfold Sink.takesParameters at h
      cases hc : k.cmd <;> simp [hc] at h <;>
        simp [Sink.dataByte, hc, Sink.takesParameters, Sink.setCol, Sink.setRow, Sink.setAccess]
    rw [List.foldl_cons, ih hb.1, hb.2]

/-- Bytes beyond the window leave nothing known of the frame memory, and the registers as they are (20_memory R73). -/
theorem Sink.overrun {k : Sink} (h : k.cmd = .full ∨ k.cmd = .lost) (b : Byte) (bs : List Byte) :
    ∃ d, (b :: bs).foldl Sink.dataByte k = { k with mem := [], draws := d, cmd := .lost } := by
  induction bs generalizing k b with
  | nil => rcases h with h | h <;> exact ⟨k.draws + 1, by simp [Sink.dataByte, h, Sink.forgetFrame]⟩
  | cons c bs ih =>
    have hk : k.dataByte b = { k with mem := [], draws := k.draws + 1, cmd := .lost } := by
      rcases h with h | h <;> simp [Sink.dataByte, h, Sink.forgetFrame]
    rw [List.foldl_cons, hk]
    exact ih (.inr rfl) c

/-- A data byte of a command not known leaves nothing known of the controller (log 22). -/
theorem Sink.unknown_data {k : Sink} (h : k.cmd = .unknown) (b : Byte) (bs : List Byte) :
    ((b :: bs).foldl Sink.dataByte k).knowsNothing = true := by
  induction bs generalizing k b with
  | nil => simp [Sink.dataByte, h]
  | cons c bs ih => exact ih (k := k.dataByte b) (by simp [Sink.dataByte, h, Sink.forgetAll]) c

end Sys2Proof.Machine
end

