-- ==== Sys2Proof/Laws/Codec.lean ====
section
/-! SUPPORT. The operand fields of raw requests: each reader reads exactly what the encoder writes, and nothing else (30_encoding R82, R83; log 1). -/

namespace Sys2Proof

open Machine

theorem asU16_be16 (w : Word) : asU16 (be16 w) = some w := by simp [asU16, be16, word16_be16]

theorem asU16_iff {f : List Byte} {w : Word} : asU16 f = some w ↔ f = be16 w := by
  constructor
  · intro h
    match f, h with
    | [a, b], h => cases h; simp [be16, hi8_word16, lo8_word16]
  · rintro rfl; exact asU16_be16 w

theorem asU8_iff {f : List Byte} {w : Byte} : asU8 f = some w ↔ f = [w] := by
  constructor
  · intro h
    match f, h with
    | [a], h => cases h; rfl
  · rintro rfl; rfl

theorem asU16List_iff {f : List Byte} {ws : List Word} : asU16List f = some ws ↔ f = u16ListField ws := by
  induction ws generalizing f with
  | nil =>
    match f with
    | [] => simp [asU16List, u16ListField]
    | [_] => simp [asU16List, u16ListField]
    | a :: b :: rest => simp [asU16List, u16ListField]
  | cons w ws ih =>
    match f with
    | [] => simp [asU16List, u16ListField, be16]
    | [_] => simp [asU16List, u16ListField, be16]
    | a :: b :: rest =>
      simp only [asU16List, Option.map_eq_some_iff, List.cons.injEq]
      constructor
      · rintro ⟨x, hx, rfl, rfl⟩
        rw [ih] at hx
        simp [u16ListField, be16, hi8_word16, lo8_word16] at hx ⊢
        exact hx
      · intro h
        simp [u16ListField, be16] at h
        obtain ⟨rfl, rfl, h⟩ := h
        exact ⟨ws, by rw [ih]; simpa [u16ListField, be16] using h, word16_be16 w, rfl⟩

theorem asOrientation_iff {f : List Byte} {o : Orientation} : asOrientation f = some o ↔ f = orientationField o := by
  match f with
  | [] => cases o <;> simp [asOrientation, orientationField]
  | [b] =>
    simp only [asOrientation]
    split
    · subst_vars; cases o <;> simp [orientationField]
    split
    · subst_vars; cases o <;> simp [orientationField]
    split
    · subst_vars; cases o <;> simp [orientationField]
    split
    · subst_vars; cases o <;> simp [orientationField]
    cases o <;> simp_all [orientationField]
  | _ :: _ :: _ => cases o <;> simp [asOrientation, orientationField]

theorem asWindow_iff {a b c d : List Byte} {q : Word × Word × Word × Word} :
    asWindow a b c d = some q ↔ a = be16 q.1 ∧ b = be16 q.2.1 ∧ c = be16 q.2.2.1 ∧ d = be16 q.2.2.2 := by
  unfold asWindow
  constructor
  · intro h
    cases h1 : asU16 a <;> simp [h1] at h
    cases h2 : asU16 b <;> simp [h2] at h
    cases h3 : asU16 c <;> simp [h3] at h
    cases h4 : asU16 d <;> simp [h4] at h
    subst h
    rw [asU16_iff] at h1 h2 h3 h4
    exact ⟨h1, h2, h3, h4⟩
  · rintro ⟨rfl, rfl, rfl, rfl⟩; simp [asU16_be16]

theorem asSpan_iff {f : List Byte} {q : Word × Word} : asSpan f = some q ↔ f = be16 q.1 ++ be16 q.2 := by
  constructor
  · intro h
    match f, h with
    | [a, b, c, d], h => cases h; simp [be16, hi8_word16, lo8_word16]
  · rintro rfl; simp [asSpan, be16, word16_be16]


theorem asSpan_be16 (a b : Word) : asSpan (be16 a ++ be16 b) = some (a, b) := asSpan_iff.2 rfl

end Sys2Proof
end

