-- ==== Sys2Proof/Laws/Exec.lean ====
section
/-! SUPPORT. What `exec` can do, said once for every instruction: where it has a step list it is one run that obeys it, and keeps the staging buffer or has the controller hear the wire; where it has none it is refused. -/

namespace Sys2Proof.Machine

@[simp] theorem State.start_answersOk (s : State) (sel : Byte) (n : Nat) :
    (s.start sel).answersOk n = s.answersOk n := rfl

@[simp] theorem State.start_replyAt (s : State) (sel : Byte) (n : Nat) : (s.start sel).replyAt n = s.replyAt n := rfl

/-- Starting the sequencer changes nothing that `Obeys` speaks of. -/
theorem obeys_start {es : List Event} {s : State} {sel : Byte} {r : Run} : Obeys es (s.start sel) r ↔ Obeys es s r := by
  cases r <;> exact Iff.rfl

/-- Starting the sequencer changes nothing that `Hears` speaks of. -/
theorem hears_start {es : List Event} {s : State} {sel : Byte} {r : Run} : Hears es (s.start sel) r ↔ Hears es s r :=
  Iff.rfl

theorem windowOf_isSome_iff (s : State) (sx sy ex ey : Word) :
    (∃ win, windowOf s sx sy ex ey = some win) ↔
      sx.toNat + s.offsetX.toNat ≤ 65535 ∧ ex.toNat + s.offsetX.toNat ≤ 65535 ∧ sy.toNat + s.offsetY.toNat ≤ 65535 ∧
        ey.toNat + s.offsetY.toNat ≤ 65535 := by
  unfold windowOf addOffset
  by_cases h1 : sx.toNat + s.offsetX.toNat ≤ 65535 <;> by_cases h2 : ex.toNat + s.offsetX.toNat ≤ 65535 <;>
    by_cases h3 : sy.toNat + s.offsetY.toNat ≤ 65535 <;> by_cases h4 : ey.toNat + s.offsetY.toNat ≤ 65535 <;>
    simp [h1, h2, h3, h4]

theorem windowOf_eq_none_iff (s : State) (sx sy ex ey : Word) :
    windowOf s sx sy ex ey = none ↔
      65535 < sx.toNat + s.offsetX.toNat ∨ 65535 < ex.toNat + s.offsetX.toNat ∨ 65535 < sy.toNat + s.offsetY.toNat ∨
        65535 < ey.toNat + s.offsetY.toNat := by
  have h := windowOf_isSome_iff s sx sy ex ey
  rw [← not_iff_not, ← ne_eq, Option.ne_none_iff_exists', h]
  omega

theorem windowOf_eq_some {s : State} {sx sy ex ey : Word} {win : Window} (h : windowOf s sx sy ex ey = some win) :
    win = { cols := { first := sx + s.offsetX, last := ex + s.offsetX },
            rows := { first := sy + s.offsetY, last := ey + s.offsetY } } := by
  obtain ⟨h1, h2, h3, h4⟩ := (windowOf_isSome_iff s sx sy ex ey).1 ⟨win, h⟩
  simpa [windowOf, addOffset, h1, h2, h3, h4, eq_comm] using h

theorem eventsOf_eq_some {s : State} {i : Instr} {es : List Event} :
    eventsOf s i = some es ↔ HasPanel s ∧ stepList s i = some es := by
  by_cases h : s.width = 0 ∨ s.height = 0
  · rw [eventsOf, if_pos h, hasPanel_iff]
    exact ⟨nofun, fun hh => absurd h hh.1⟩
  · rw [eventsOf, if_neg h, hasPanel_iff]
    exact ⟨fun hh => ⟨h, hh⟩, And.right⟩

/-- On an instance with a panel the step list is the operation's own. -/
theorem eventsOf_of_hasPanel {s : State} (h : HasPanel s) (i : Instr) : eventsOf s i = stepList s i := if_neg h.not_zero

theorem eventsOf_eq_none {s : State} {i : Instr} :
    eventsOf s i = none ↔ (s.width = 0 ∨ s.height = 0) ∨ stepList s i = none := by
  by_cases h : s.width = 0 ∨ s.height = 0
  · rw [eventsOf, if_pos h]
    exact ⟨fun _ => .inl h, fun _ => rfl⟩
  · rw [eventsOf, if_neg h]
    exact ⟨.inr, fun hh => hh.resolve_left h⟩

theorem runInWindow_some {sel : Byte} {sx sy ex ey : Word} {body : State → Run} {s : State} {win : Window}
    (h : windowOf s sx sy ex ey = some win) :
    runInWindow sel sx sy ex ey body s = runOp sel (fun t => (sendWindow win t).andThen body) s := by
  simp [runInWindow, h]

/-- One operation as a run: its body obeys the step list, the controller hears it (but for the two that reset it), and
the staging buffer stays (but for the three that use it). -/
structure IsRun (i : Instr) (s : State) (es : List Event) (sel : Byte) (body : State → Run) : Prop where
  eq : exec i s = runOp sel body s
  obeys : Obeys es s (body (s.start sel))
  hears : i ≠ .hardReset → i ≠ .init → Hears es s (body (s.start sel))
  stage : (∀ ws, i ≠ .writeWordsBuffered ws) → (∀ cs, i ≠ .writePixelsBuffered cs) →
    (∀ sx sy ex ey cs, i ≠ .setPixelsBuffered sx sy ex ey cs) → KeepsStage body

theorem forEach_keepsStage {α : Type} {f : α → State → Run} (h : ∀ x, KeepsStage (f x)) (xs : List α) :
    KeepsStage (forEach f xs) := by
  induction xs with
  | nil => exact done_keepsStage
  | cons x xs ih => exact (h x).andThen ih

theorem writeCommandOf_keepsStage (op : State → Byte) (ps : State → List Byte) :
    KeepsStage fun t => writeCommand (op t) (ps t) t := fun s => writeCommand_keepsStage (op s) (ps s) s

theorem memoryWrite_keepsStage : KeepsStage memoryWrite := writeCommandOf_keepsStage _ _

theorem sendWindow_keepsStage (win : Window) : KeepsStage (sendWindow win) :=
  KeepsStage.andThen (writeCommandOf_keepsStage (·.params.codes.caset) fun _ => spanBytes win.cols)
    (writeCommandOf_keepsStage (·.params.codes.raset) fun _ => spanBytes win.rows)

theorem setCtrl_keepsStage (c : Ctrl) : KeepsStage fun t => .done (t.setCtrl c) := fun s => by simp [SameStage]

theorem hardReset_keepsStage : KeepsStage hardReset :=
  ((((((driveRst_keepsStage _).andThen (delay_keepsStage _)).andThen (driveRst_keepsStage _)).andThen
    (delay_keepsStage _)).andThen (driveRst_keepsStage _)).andThen (delay_keepsStage _)).andThen (setCtrl_keepsStage _)

theorem initSteps_keepsStage : KeepsStage initSteps := by
  refine (((hardReset_keepsStage).andThen ?_).andThen (delay_keepsStage _)).andThen (setCtrl_keepsStage _)
  intro s
  exact forEach_keepsStage (f := sendEntry) (fun e => writeCommand_keepsStage e.code e.params) (initEntries s.params) s

/-- The run of a command transaction. -/
theorem isRun_command {i : Instr} {s : State} {code : Byte} {ps : List Byte} (sel : Byte) (body : State → Run)
    (h : exec i s = runOp sel body s) (hb : ∀ t, body t = writeCommand code ps t) :
    IsRun i s (commandTransaction code ps) sel body := by
  have hb' : body = writeCommand code ps := funext hb
  subst hb'
  exact ⟨h, obeys_start.1 (writeCommand_obeys _ _ _), fun _ _ => hears_start.1 (writeCommand_hears _ _ _),
    fun _ _ _ => writeCommand_keepsStage _ _⟩

/-- The run of an operation that sets a window, issues a memory write and streams. -/
theorem obeys_inWindow (win : Window) {fs : List Event} {body : State → Run} (s : State)
    (hb : ∀ t, t.params = s.params → Obeys fs t (body t)) :
    Obeys (windowEvents s.params win ++ memoryWriteEvents s.params ++ fs) s
      ((sendWindow win s).andThen fun t => (memoryWrite t).andThen body) := by
  have h := sendWindow_obeys win s
  rw [List.append_assoc]
  refine Obeys.andThen h fun t ht => ?_
  have hp := (ht ▸ h : Obeys _ s (.done t)).params
  have h2 := memoryWrite_obeys t
  rw [hp] at h2
  exact Obeys.andThen h2 fun u hu => hb u ((hu ▸ h2 : Obeys _ t (.done u)).params.trans hp)

theorem hears_inWindow (win : Window) {fs : List Event} {body : State → Run} (s : State)
    (hb : ∀ t, t.params = s.params → Hears fs t (body t)) :
    Hears (windowEvents s.params win ++ memoryWriteEvents s.params ++ fs) s
      ((sendWindow win s).andThen fun t => (memoryWrite t).andThen body) := by
  have h := sendWindow_obeys win s
  rw [List.append_assoc]
  refine Hears.andThen (sendWindow_hears win s) h fun t ht => ?_
  have hp := (ht ▸ h : Obeys _ s (.done t)).params
  have h2 := memoryWrite_obeys t
  have h3 := memoryWrite_hears t
  rw [hp] at h2 h3
  exact Hears.andThen h3 h2 fun u hu => hb u ((hu ▸ h2 : Obeys _ t (.done u)).params.trans hp)

theorem keepsStage_inWindow (win : Window) {body : State → Run} (hb : KeepsStage body) :
    KeepsStage fun s => (sendWindow win s).andThen fun t => (memoryWrite t).andThen body :=
  (sendWindow_keepsStage win).andThen (memoryWrite_keepsStage.andThen hb)

theorem pixels_obeys (cs : List Word) (s : State) : Obeys (dataRuns (cs.map be16)) s (forEach writeWord cs s) := by
  rw [dataRuns, List.flatMap_map]
  exact forEach_obeys writeWord_obeys cs s

theorem pixels_hears (cs : List Word) (s : State) : Hears (dataRuns (cs.map be16)) s (forEach writeWord cs s) := by
  rw [dataRuns, List.flatMap_map]
  exact forEach_hears writeWord_obeys writeWord_hears cs s

theorem chunks_obeys (bs : List Byte) (s : State) :
    Obeys (dataRuns (chunks bs)) s (forEach writeData (chunks bs) s) := forEach_obeys writeData_obeys _ s

theorem chunks_hears (bs : List Byte) (s : State) :
    Hears (dataRuns (chunks bs)) s (forEach writeData (chunks bs) s) := forEach_hears writeData_obeys writeData_hears _ s

theorem rows_obeys (rows : List (List Byte)) (s : State) :
    Obeys (dataRuns (rows.flatMap chunks)) s (forEach sendRow rows s) := by
  rw [dataRuns, List.flatMap_assoc]
  exact forEach_obeys sendRow_obeys rows s

theorem rows_hears (rows : List (List Byte)) (s : State) :
    Hears (dataRuns (rows.flatMap chunks)) s (forEach sendRow rows s) := by
  rw [dataRuns, List.flatMap_assoc]
  exact forEach_hears sendRow_obeys sendRow_hears rows s

theorem sendRow_keepsStage (row : List Byte) : KeepsStage (sendRow row) := forEach_keepsStage writeData_keepsStage _

theorem showSteps_obeys (bs : List Byte) (s : State) :
    Obeys (windowEvents s.params { cols := { first := 0, last := showLast }, rows := { first := 0, last := showLast } } ++
      memoryWriteEvents s.params ++ dataTransaction bs) s (showSteps bs s) := by
  unfold showSteps
  rw [Run.andThen_assoc]
  exact obeys_inWindow { cols := { first := 0, last := showLast }, rows := { first := 0, last := showLast } } s
    fun t _ => writeData_obeys bs t

theorem showSteps_hears (bs : List Byte) (s : State) :
    Hears (windowEvents s.params { cols := { first := 0, last := showLast }, rows := { first := 0, last := showLast } } ++
      memoryWriteEvents s.params ++ dataTransaction bs) s (showSteps bs s) := by
  unfold showSteps
  rw [Run.andThen_assoc]
  exact hears_inWindow { cols := { first := 0, last := showLast }, rows := { first := 0, last := showLast } } s
    fun t _ => writeData_hears bs t

theorem showSteps_keepsStage (bs : List Byte) : KeepsStage (showSteps bs) :=
  (((writeCommandOf_keepsStage (·.params.codes.caset) fun _ => showBytes).andThen
    (writeCommandOf_keepsStage (·.params.codes.raset) fun _ => showBytes)).andThen memoryWrite_keepsStage).andThen
    (writeData_keepsStage bs)

/-- WHAT AN OPERATION DOES, for every instruction that is not refused: it is one run of a body that performs its step list
(20_memory R62 (a), 60_exceptions R195, R196). -/
theorem exec_isRun {i : Instr} {s : State} {es : List Event} (h : eventsOf s i = some es)
    (hi : ∀ dx dy, i ≠ .setOffset dx dy) :
    ∃ sel body, IsRun i s es sel body := by
  obtain ⟨hp, h⟩ := eventsOf_eq_some.1 h
  cases i with
  | writeCommand op ps => cases h; exact ⟨_, _, isRun_command _ _ rfl fun _ => rfl⟩
  | beginData =>
    cases h
    exact ⟨_, _, rfl, obeys_start.1 (driveSel_obeys _ _), fun _ _ => hears_start.1 (driveSel_hears _ _),
      fun _ _ _ => driveSel_keepsStage _⟩
  | writeData bs =>
    cases h
    exact ⟨_, _, rfl, obeys_start.1 (writeData_obeys _ _), fun _ _ => hears_start.1 (writeData_hears _ _),
      fun _ _ _ => writeData_keepsStage _⟩
  | writeWord w =>
    cases h
    exact ⟨_, _, rfl, obeys_start.1 (writeWord_obeys _ _), fun _ _ => hears_start.1 (writeWord_hears _ _),
      fun _ _ _ => writeData_keepsStage _⟩
  | writeWordsBuffered ws =>
    cases h
    exact ⟨_, _, rfl, obeys_start.1 (writeWordsBuffered_obeys ws (s.start 0x04)),
      fun _ _ => hears_start.1 (writeWordsBuffered_hears ws (s.start 0x04)), fun h => absurd rfl (h ws)⟩
  | setOffset dx dy => exact absurd rfl (hi dx dy)
  | setAddressWindow sx sy ex ey =>
    simp only [stepList, windowSet, Option.map_eq_some_iff] at h
    obtain ⟨win, hw, rfl⟩ := h
    refine ⟨_, _, runInWindow_some hw, ?_, fun _ _ => ?_, fun _ _ _ => (sendWindow_keepsStage win).andThen done_keepsStage⟩
    · have := Obeys.andThen (f := .done) (fs := []) (sendWindow_obeys win (s.start 0x06)) fun t _ =>
        Obeys.nil t t (SameCore.refl t) rfl rfl rfl rfl
      rw [List.append_nil] at this
      exact obeys_start.1 this
    · have := Hears.andThen (f := .done) (fs := []) (sendWindow_hears win (s.start 0x06)) (sendWindow_obeys win _)
        fun t _ => Hears.nil t t rfl rfl
      rw [List.append_nil] at this
      exact hears_start.1 this
  | setOrientation o =>
    cases h
    exact ⟨_, _, rfl, obeys_start.1 (writeCommand_obeys _ _ _), fun _ _ => hears_start.1 (writeCommand_hears _ _ _),
      fun _ _ _ => writeCommandOf_keepsStage (·.params.codes.madctl) fun t => [madctlByte t o]⟩
  | hardReset =>
    cases h
    exact ⟨_, _, rfl, obeys_start.1 (hardReset_obeys _), fun h => absurd rfl h, fun _ _ _ => hardReset_keepsStage⟩
  | init =>
    cases h
    exact ⟨_, _, rfl, obeys_start.1 (initSteps_obeys (s.start 0x09)), fun _ h => absurd rfl h,
      fun _ _ _ => initSteps_keepsStage⟩
  | setPixel x y c =>
    simp only [stepList, windowSet, Option.map_eq_some_iff] at h
    obtain ⟨win, hw, rfl⟩ := h
    exact ⟨_, _, runInWindow_some hw, obeys_start.1 (obeys_inWindow win (s.start 0x0A) fun t _ => writeWord_obeys c t),
      fun _ _ => hears_start.1 (hears_inWindow win (s.start 0x0A) fun t _ => writeWord_hears c t),
      fun _ _ _ => keepsStage_inWindow win (writeData_keepsStage _)⟩
  | writePixels cs =>
    cases h
    exact ⟨_, _, rfl,
      obeys_start.1 (Obeys.andThen (memoryWrite_obeys (s.start 0x0B)) fun t _ => pixels_obeys cs t),
      fun _ _ => hears_start.1 (Hears.andThen (memoryWrite_hears (s.start 0x0B)) (memoryWrite_obeys _)
        fun t _ => pixels_hears cs t),
      fun _ _ _ => memoryWrite_keepsStage.andThen (forEach_keepsStage (fun w => writeData_keepsStage (be16 w)) cs)⟩
  | writePixelsBuffered cs =>
    cases h
    have ho := memoryWrite_obeys (s.start 0x0C)
    refine ⟨_, _, rfl, obeys_start.1 (Obeys.andThen ho fun t ht => ?_),
      fun _ _ => hears_start.1 (Hears.andThen (memoryWrite_hears (s.start 0x0C)) ho fun t ht => ?_),
      fun _ h => absurd rfl (h cs)⟩
    · have hp : t.params = s.params := (ht ▸ ho : Obeys _ (s.start 0x0C) (.done t)).params
      rw [← hp]
      exact writeWordsBuffered_obeys cs t
    · have hp : t.params = s.params := (ht ▸ ho : Obeys _ (s.start 0x0C) (.done t)).params
      rw [← hp]
      exact writeWordsBuffered_hears cs t
  | setPixels sx sy ex ey cs =>
    simp only [stepList, windowSet, Option.map_eq_some_iff] at h
    obtain ⟨win, hw, rfl⟩ := h
    exact ⟨_, _, runInWindow_some hw, obeys_start.1 (obeys_inWindow win (s.start 0x0D) fun t _ => pixels_obeys cs t),
      fun _ _ => hears_start.1 (hears_inWindow win (s.start 0x0D) fun t _ => pixels_hears cs t),
      fun _ _ _ => keepsStage_inWindow win (forEach_keepsStage (fun w => writeData_keepsStage (be16 w)) cs)⟩
  | setPixelsBuffered sx sy ex ey cs =>
    simp only [stepList, windowSet, Option.map_eq_some_iff] at h
    obtain ⟨win, hw, rfl⟩ := h
    exact ⟨_, _, runInWindow_some hw,
      obeys_start.1 (obeys_inWindow win (s.start 0x0E) fun t ht => by
        have := writeWordsBuffered_obeys cs t; rwa [ht] at this),
      fun _ _ => hears_start.1 (hears_inWindow win (s.start 0x0E) fun t ht => by
        have := writeWordsBuffered_hears cs t; rwa [ht] at this),
      fun _ _ h => absurd rfl (h sx sy ex ey cs)⟩
  | drawImage bs =>
    simp only [stepList, windowSet, Option.map_eq_some_iff] at h
    obtain ⟨win, hw, rfl⟩ := h
    exact ⟨_, _, runInWindow_some hw,
      obeys_start.1 (obeys_inWindow win (s.start 0x0F) fun t _ => chunks_obeys bs t),
      fun _ _ => hears_start.1 (hears_inWindow win (s.start 0x0F) fun t _ => chunks_hears bs t),
      fun _ _ _ => keepsStage_inWindow win (forEach_keepsStage writeData_keepsStage _)⟩
  | showFrame bs =>
    cases h
    exact ⟨_, _, rfl, obeys_start.1 (showSteps_obeys bs _), fun _ _ => hears_start.1 (showSteps_hears bs _),
      fun _ _ _ => showSteps_keepsStage bs⟩
  | showRegion bs x y w h' =>
    dsimp only [stepList, windowSet] at h
    cases hr : regionRows s.width bs x y w h' with
    | none => rw [hr] at h; cases h
    | some rows =>
      rw [hr] at h
      by_cases hc : regionShapeOk x y w h' = false
      · rw [if_pos hc] at h; cases h
      · rw [if_neg hc] at h
        cases hw : windowOf s x y (x + w - 1) (y + h' - 1) with
        | none => rw [hw] at h; cases h
        | some win =>
          rw [hw] at h
          cases h
          have he : exec (.showRegion bs x y w h') s =
              runOp 0x11 (fun t => (sendWindow win t).andThen fun t => (memoryWrite t).andThen (forEach sendRow rows)) s := by
            dsimp only [exec, execShowRegion]
            rw [onPanel_of_hasPanel hp, if_neg hc, hr]
            exact runInWindow_some hw
          exact ⟨_, _, he, obeys_start.1 (obeys_inWindow win (s.start 0x11) fun t _ => rows_obeys rows t),
            fun _ _ => hears_start.1 (hears_inWindow win (s.start 0x11) fun t _ => rows_hears rows t),
            fun _ _ _ => keepsStage_inWindow win (forEach_keepsStage sendRow_keepsStage _)⟩
  | caset a b => cases h; exact ⟨_, _, isRun_command _ _ rfl fun _ => rfl⟩
  | raset a b => cases h; exact ⟨_, _, isRun_command _ _ rfl fun _ => rfl⟩
  | ramwr => cases h; exact ⟨_, _, isRun_command _ _ rfl fun _ => rfl⟩
  | madctl v => cases h; exact ⟨_, _, isRun_command _ _ rfl fun _ => rfl⟩
  | colmod ps => cases h; exact ⟨_, _, isRun_command _ _ rfl fun _ => rfl⟩
  | slpout ps => cases h; exact ⟨_, _, isRun_command _ _ rfl fun _ => rfl⟩
  | dispon ps => cases h; exact ⟨_, _, isRun_command _ _ rfl fun _ => rfl⟩
  | rddid => cases h; exact ⟨_, _, isRun_command _ _ rfl fun _ => rfl⟩
  | rddst => cases h; exact ⟨_, _, isRun_command _ _ rfl fun _ => rfl⟩
  | ramrd => cases h; exact ⟨_, _, isRun_command _ _ rfl fun _ => rfl⟩
  | rdid1 => cases h; exact ⟨_, _, isRun_command _ _ rfl fun _ => rfl⟩
  | rdid2 => cases h; exact ⟨_, _, isRun_command _ _ rfl fun _ => rfl⟩
  | rdid3 => cases h; exact ⟨_, _, isRun_command _ _ rfl fun _ => rfl⟩
  | rdid4 => cases h; exact ⟨_, _, isRun_command _ _ rfl fun _ => rfl⟩

/-- WHERE A RUN ENDS: done, after its whole step list answered ok, or failed, at the first event answered fail. -/
theorem exec_next {i : Instr} {s t : State} {es : List Event} (h : eventsOf s i = some es)
    (hi : ∀ dx dy, i ≠ .setOffset dx dy) (ht : exec i s = .next t) :
    SameOffsets s t ∧ SameStraps s t ∧ t.seq = .idle ∧ t.reqs = s.reqs ∧
      ((t.rsp = some .ok ∧ t.trace = s.trace ++ allOk es ∧ t.lines = s.lines.replay (allOk es) ∧
          TookReplies s t (asked es) ∧ s.answersOk (asked es) = true) ∨
        t.rsp = some .transactionFailure ∧ t.ctrl = .unknown ∧ t.sink.knowsNothing = true ∧
          ∃ pre e post, es = pre ++ e :: post ∧ t.trace = s.trace ++ (allOk pre ++ [(e, .fail)]) ∧
            t.lines = s.lines.replay (allOk pre ++ [(e, .fail)]) ∧ TookReplies s t (asked pre + 1) ∧
            s.answersOk (asked pre) = true ∧ s.replyAt (asked pre) = .answered .fail ∧ asked [e] = 1) := by
  obtain ⟨sel, body, hr⟩ := exec_isRun h hi
  have ho := hr.obeys
  rw [hr.eq, runOp_next_iff (eventsOf_eq_some.1 h).1] at ht
  rcases ht with ⟨u, hu, rfl⟩ | ⟨u, hu, rfl⟩
  · rw [hu] at ho
    obtain ⟨h1, h2, h3, h4, h5, h6, -, h7⟩ := ho
    exact ⟨h5, h6, rfl, h7, .inl ⟨rfl, h1, h2, h3, h4⟩⟩
  · rw [hu] at ho
    obtain ⟨pre, e, post, h0, h1, h2, h3, h4, h5, ⟨h6, h7, -, h8⟩, h9, h10, h11⟩ := ho
    exact ⟨h6, h7, rfl, h8, .inr ⟨rfl, h9, h10, pre, e, post, h0, by rw [← List.append_assoc]; exact h1, h2, h3, h4, h5, h11⟩⟩

/-- WHEN A RUN ENDS OK: with every event answered ok it completes. -/
theorem exec_completes {i : Instr} {s : State} {es : List Event} (h : eventsOf s i = some es)
    (hi : ∀ dx dy, i ≠ .setOffset dx dy) (hok : s.answersOk (asked es) = true) :
    ∃ t, exec i s = .next t ∧ Completed s t es ∧ t.lines = s.lines.replay (allOk es) ∧ SameOffsets s t ∧
      SameStraps s t := by
  obtain ⟨sel, body, hr⟩ := exec_isRun h hi
  have ho := hr.obeys
  have hno : ∀ pre e post, es = pre ++ e :: post → asked [e] = 1 → s.replyAt (asked pre) = .answered .ok := by
    intro pre e post he h1
    refine State.replyAt_of_answersOk hok ?_
    rw [he, ← List.singleton_append, asked_append, asked_append, h1]; omega
  cases hu : body (s.start sel) with
  | done u =>
    rw [hu] at ho
    obtain ⟨h1, h2, h3, h4, h5, h6, -, h7⟩ := ho
    exact ⟨u.respond .ok, by rw [hr.eq, runOp_next_iff (eventsOf_eq_some.1 h).1]; exact .inl ⟨u, hu, rfl⟩, ⟨rfl, rfl, h1, h3, h7⟩, h2, h5, h6⟩
  | failed u =>
    rw [hu] at ho
    obtain ⟨pre, e, post, h0, -, -, -, -, h5, -, -, -, h11⟩ := ho
    rw [hno pre e post h0 h11] at h5; cases h5
  | hung =>
    rw [hu] at ho
    obtain ⟨pre, e, post, h0, -, h5, h11⟩ := ho
    rw [hno pre e post h0 h11] at h5; cases h5

/-- `set_offset` is the one operation that writes a register, and its step list is empty (41_window R130). -/
theorem exec_setOffset (dx dy : Word) {s : State} (h : HasPanel s) :
    exec (.setOffset dx dy) s = .next { s with offsetX := dx, offsetY := dy, rsp := some .ok, seq := .idle } :=
  onPanel_of_hasPanel h _

/-- The staging buffer stays, but for the operations that use it (10_state R30). -/
theorem exec_sameStage {i : Instr} {s t : State} {es : List Event} (h : eventsOf s i = some es)
    (h1 : ∀ ws, i ≠ .writeWordsBuffered ws) (h2 : ∀ cs, i ≠ .writePixelsBuffered cs)
    (h3 : ∀ sx sy ex ey cs, i ≠ .setPixelsBuffered sx sy ex ey cs) (ht : exec i s = .next t) : SameStage s t := by
  by_cases hi : ∃ dx dy, i = .setOffset dx dy
  · obtain ⟨dx, dy, rfl⟩ := hi
    rw [exec_setOffset dx dy (eventsOf_eq_some.1 h).1] at ht
    cases ht; exact ⟨rfl, rfl⟩
  · obtain ⟨sel, body, hr⟩ := exec_isRun h fun dx dy hh => hi ⟨dx, dy, hh⟩
    have hk := hr.stage h1 h2 h3 (s.start sel)
    rw [hr.eq, runOp_next_iff (eventsOf_eq_some.1 h).1] at ht
    rcases ht with ⟨u, hu, rfl⟩ | ⟨u, hu, rfl⟩ <;> (rw [hu] at hk; exact hk)

/-- What the controller has heard when an operation ends ok (20_memory R68). -/
theorem exec_hears {i : Instr} {s t : State} {es : List Event} (h : eventsOf s i = some es) (h1 : i ≠ .hardReset)
    (h2 : i ≠ .init) (ht : exec i s = .next t) (hok : t.rsp = some .ok) :
    t.ctrl = s.ctrl ∧ t.sink = hearEvents s.ctrl s.params s.lines s.sink es := by
  by_cases hi : ∃ dx dy, i = .setOffset dx dy
  · obtain ⟨dx, dy, rfl⟩ := hi
    obtain ⟨hp, h⟩ := eventsOf_eq_some.1 h
    rw [exec_setOffset dx dy hp] at ht
    cases ht; cases h
    exact ⟨rfl, rfl⟩
  · obtain ⟨sel, body, hr⟩ := exec_isRun h fun dx dy hh => hi ⟨dx, dy, hh⟩
    have hk := hr.hears h1 h2
    rw [hr.eq, runOp_next_iff (eventsOf_eq_some.1 h).1] at ht
    rcases ht with ⟨u, hu, rfl⟩ | ⟨u, hu, rfl⟩
    · exact hk u hu
    · cases hok

/-- Every request to an instance without a panel is refused (00_scope R7, 60_exceptions R193). -/
theorem exec_of_zero {s : State} (h : s.width = 0 ∨ s.height = 0) (i : Instr) : exec i s = .refused .zeroDimension := by
  have hw : ∀ sel sx sy ex ey body, runInWindow sel sx sy ex ey body s = .refused .zeroDimension := by
    intro sel sx sy ex ey body
    unfold runInWindow
    split
    · exact onPanel_of_zero h _
    · exact onPanel_of_zero h _
  cases i
  case setAddressWindow => exact hw _ _ _ _ _ _
  case setPixel => exact hw _ _ _ _ _ _
  case setPixels => exact hw _ _ _ _ _ _
  case setPixelsBuffered => exact hw _ _ _ _ _ _
  case drawImage => exact hw _ _ _ _ _ _
  all_goals exact onPanel_of_zero h _

theorem runInWindow_none {sel : Byte} {sx sy ex ey : Word} {body : State → Run} {s : State} (hp : HasPanel s)
    (h : windowOf s sx sy ex ey = none) : runInWindow sel sx sy ex ey body s = .refused .offsetOverflow := by
  simp [runInWindow, h, onPanel_of_hasPanel hp]

/-- An operation without a step list is refused (60_exceptions R193). -/
theorem exec_refused {i : Instr} {s : State} (h : eventsOf s i = none) : ∃ r, exec i s = .refused r := by
  by_cases hz : s.width = 0 ∨ s.height = 0
  · exact ⟨_, exec_of_zero hz i⟩
  have hp : HasPanel s := hasPanel_iff.2 hz
  rw [eventsOf_of_hasPanel hp] at h
  cases i with
  | setAddressWindow sx sy ex ey =>
    simp only [stepList, windowSet, Option.map_eq_none_iff] at h
    exact ⟨_, runInWindow_none hp h⟩
  | setPixel x y c =>
    simp only [stepList, windowSet, Option.map_eq_none_iff] at h
    exact ⟨_, runInWindow_none hp h⟩
  | setPixels sx sy ex ey cs =>
    simp only [stepList, windowSet, Option.map_eq_none_iff] at h
    exact ⟨_, runInWindow_none hp h⟩
  | setPixelsBuffered sx sy ex ey cs =>
    simp only [stepList, windowSet, Option.map_eq_none_iff] at h
    exact ⟨_, runInWindow_none hp h⟩
  | drawImage bs =>
    simp only [stepList, windowSet, Option.map_eq_none_iff] at h
    exact ⟨_, runInWindow_none hp h⟩
  | showRegion bs x y w h' =>
    dsimp only [exec, execShowRegion]
    rw [onPanel_of_hasPanel hp]
    by_cases h2 : regionShapeOk x y w h' = false
    · exact ⟨_, by rw [if_pos h2]⟩
    · rw [if_neg h2]
      cases hr : regionRows s.width bs x y w h' with
      | none => exact ⟨_, rfl⟩
      | some rows =>
        dsimp only [stepList, windowSet] at h
        rw [hr, if_neg h2] at h
        cases hw : windowOf s x y (x + w - 1) (y + h' - 1) with
        | none => exact ⟨_, runInWindow_none hp hw⟩
        | some win => rw [hw] at h; cases h
  | writeCommand op ps => cases h
  | beginData => cases h
  | writeData bs => cases h
  | writeWord w => cases h
  | writeWordsBuffered ws => cases h
  | setOffset dx dy => cases h
  | setOrientation o => cases h
  | hardReset => cases h
  | init => cases h
  | writePixels cs => cases h
  | writePixelsBuffered cs => cases h
  | showFrame bs => cases h
  | caset a b => cases h
  | raset a b => cases h
  | ramwr => cases h
  | madctl v => cases h
  | colmod ps => cases h
  | slpout ps => cases h
  | dispon ps => cases h
  | rddid => cases h
  | rddst => cases h
  | ramrd => cases h
  | rdid1 => cases h
  | rdid2 => cases h
  | rdid3 => cases h
  | rdid4 => cases h

end Sys2Proof.Machine
end

