-- ==== Sys2Proof/Laws/PerInstr.lean ====
section
/-! SUPPORT. Statements made per instruction, about its encoding: the family `Encoded` (30_encoding R81, R83, R90, R92). -/

namespace Sys2Proof.Laws.Encoded

open Sys2Proof.Machine

/-- The encoding of an instruction stands in the tables of 30_encoding: it is a request with one of the 18 selectors of
R81, whose operand fields are read back as exactly that instruction, or a command with one of the codes R90 and R92
name. -/
def Statement (i : Instr) : Prop :=
  ∀ p : Params,
    (∃ sel fields, encode p i = .request sel fields ∧ sel.toNat < 0x12 ∧ decodeRequest sel fields = .ok i) ∨
      ∃ code ps, encode p i = .command code ps ∧ isNamedCode p code = true

theorem writeCommand (opcode : Byte) (params : List Byte) : Statement (.writeCommand opcode params) := by
  intro _
  refine .inl ⟨_, _, rfl, by decide, ?_⟩
  simp [decodeRequest, decodeOperands, asU8]

theorem beginData : Statement .beginData := by
  intro _
  refine .inl ⟨_, _, rfl, by decide, ?_⟩
  simp [decodeRequest, decodeOperands]

theorem writeData (bytes : List Byte) : Statement (.writeData bytes) := by
  intro _
  refine .inl ⟨_, _, rfl, by decide, ?_⟩
  simp [decodeRequest, decodeOperands]

theorem writeWord (w : Word) : Statement (.writeWord w) := by
  intro _
  refine .inl ⟨_, _, rfl, by decide, ?_⟩
  simp [decodeRequest, decodeOperands, asU16_be16]

theorem writeWordsBuffered (ws : List Word) : Statement (.writeWordsBuffered ws) := by
  intro _
  refine .inl ⟨_, _, rfl, by decide, ?_⟩
  simp [decodeRequest, decodeOperands, asU16List_iff.2 rfl]

theorem setOffset (dx dy : Word) : Statement (.setOffset dx dy) := by
  intro _
  refine .inl ⟨_, _, rfl, by decide, ?_⟩
  simp [decodeRequest, decodeOperands, asU16_be16]

theorem setAddressWindow (sx sy ex ey : Word) : Statement (.setAddressWindow sx sy ex ey) := by
  intro _
  refine .inl ⟨_, _, rfl, by decide, ?_⟩
  simp [decodeRequest, decodeOperands, asU16_be16, asWindow]

theorem setOrientation (o : Orientation) : Statement (.setOrientation o) := by
  intro _
  cases o <;> exact .inl ⟨_, _, rfl, by decide, rfl⟩

theorem hardReset : Statement .hardReset := by
  intro _
  refine .inl ⟨_, _, rfl, by decide, ?_⟩
  simp [decodeRequest, decodeOperands]

theorem init : Statement .init := by
  intro _
  refine .inl ⟨_, _, rfl, by decide, ?_⟩
  simp [decodeRequest, decodeOperands]

theorem setPixel (x y color : Word) : Statement (.setPixel x y color) := by
  intro _
  refine .inl ⟨_, _, rfl, by decide, ?_⟩
  simp [decodeRequest, decodeOperands, asU16_be16]

theorem writePixels (colors : List Word) : Statement (.writePixels colors) := by
  intro _
  refine .inl ⟨_, _, rfl, by decide, ?_⟩
  simp [decodeRequest, decodeOperands, asU16List_iff.2 rfl]

theorem writePixelsBuffered (colors : List Word) : Statement (.writePixelsBuffered colors) := by
  intro _
  refine .inl ⟨_, _, rfl, by decide, ?_⟩
  simp [decodeRequest, decodeOperands, asU16List_iff.2 rfl]

theorem setPixels (sx sy ex ey : Word) (colors : List Word) : Statement (.setPixels sx sy ex ey colors) := by
  intro _
  refine .inl ⟨_, _, rfl, by decide, ?_⟩
  simp [decodeRequest, decodeOperands, asU16_be16, asWindow, asU16List_iff.2 rfl]

theorem setPixelsBuffered (sx sy ex ey : Word) (colors : List Word) : Statement (.setPixelsBuffered sx sy ex ey colors) := by
  intro _
  refine .inl ⟨_, _, rfl, by decide, ?_⟩
  simp [decodeRequest, decodeOperands, asU16_be16, asWindow, asU16List_iff.2 rfl]

theorem drawImage (bytes : List Byte) : Statement (.drawImage bytes) := by
  intro _
  refine .inl ⟨_, _, rfl, by decide, ?_⟩
  simp [decodeRequest, decodeOperands]

theorem showFrame (buffer : List Byte) : Statement (.showFrame buffer) := by
  intro _
  refine .inl ⟨_, _, rfl, by decide, ?_⟩
  simp [decodeRequest, decodeOperands]

theorem showRegion (buffer : List Byte) (x y w h : Word) : Statement (.showRegion buffer x y w h) := by
  intro _
  refine .inl ⟨_, _, rfl, by decide, ?_⟩
  simp [decodeRequest, decodeOperands, asU16_be16, asWindow]

theorem caset (start stop : Word) : Statement (.caset start stop) :=
  fun _ => .inr ⟨_, _, rfl, by simp [isNamedCode, opCodeList, readCodeList]⟩

theorem raset (start stop : Word) : Statement (.raset start stop) :=
  fun _ => .inr ⟨_, _, rfl, by simp [isNamedCode, opCodeList, readCodeList]⟩

theorem ramwr : Statement .ramwr :=
  fun _ => .inr ⟨_, _, rfl, by simp [isNamedCode, opCodeList, readCodeList]⟩

theorem madctl (value : Byte) : Statement (.madctl value) :=
  fun _ => .inr ⟨_, _, rfl, by simp [isNamedCode, opCodeList, readCodeList]⟩

theorem colmod (params : List Byte) : Statement (.colmod params) :=
  fun _ => .inr ⟨_, _, rfl, by simp [isNamedCode, opCodeList, readCodeList]⟩

theorem slpout (params : List Byte) : Statement (.slpout params) :=
  fun _ => .inr ⟨_, _, rfl, by simp [isNamedCode, opCodeList, readCodeList]⟩

theorem dispon (params : List Byte) : Statement (.dispon params) :=
  fun _ => .inr ⟨_, _, rfl, by simp [isNamedCode, opCodeList, readCodeList]⟩

theorem rddid : Statement .rddid :=
  fun _ => .inr ⟨_, _, rfl, by simp [isNamedCode, opCodeList, readCodeList]⟩

theorem rddst : Statement .rddst :=
  fun _ => .inr ⟨_, _, rfl, by simp [isNamedCode, opCodeList, readCodeList]⟩

theorem ramrd : Statement .ramrd :=
  fun _ => .inr ⟨_, _, rfl, by simp [isNamedCode, opCodeList, readCodeList]⟩

theorem rdid1 : Statement .rdid1 :=
  fun _ => .inr ⟨_, _, rfl, by simp [isNamedCode, opCodeList, readCodeList]⟩

theorem rdid2 : Statement .rdid2 :=
  fun _ => .inr ⟨_, _, rfl, by simp [isNamedCode, opCodeList, readCodeList]⟩

theorem rdid3 : Statement .rdid3 :=
  fun _ => .inr ⟨_, _, rfl, by simp [isNamedCode, opCodeList, readCodeList]⟩

theorem rdid4 : Statement .rdid4 :=
  fun _ => .inr ⟨_, _, rfl, by simp [isNamedCode, opCodeList, readCodeList]⟩

end Sys2Proof.Laws.Encoded
end

