-- ==== Sys2Proof/Laws/Wire.lean ====
section
/-! SUPPORT. The laws of the wire formats: for each, how many replies it asks for, what it leaves on the lines, and what is on the wire (00_scope R12, 30_encoding R84, R85); and what the window commands leave in the controller (20_memory R69). -/

namespace Sys2Proof.Machine

@[simp] theorem spanBytes_ne_nil (sp : Span) : spanBytes sp ≠ [] := by simp [spanBytes, be16]

@[simp] theorem asked_commandTransaction (c : Byte) (ps : List Byte) :
    asked (commandTransaction c ps) = if ps = [] then 4 else 6 := by
  by_cases h : ps = [] <;> simp [commandTransaction, h]

@[simp] theorem asked_dataTransaction (bs : List Byte) : asked (dataTransaction bs) = 4 := by simp [dataTransaction]

@[simp] theorem asked_dataRuns (rs : List (List Byte)) : asked (dataRuns rs) = 4 * rs.length := by
  induction rs with
  | nil => rfl
  | cons r rs ih =>
    simp only [dataRuns, List.flatMap_cons, asked_append, asked_dataTransaction] at *
    rw [ih, List.length_cons]; omega

@[simp] theorem asked_windowEvents (p : Params) (w : Window) : asked (windowEvents p w) = 12 := by simp [windowEvents]

@[simp] theorem asked_memoryWriteEvents (p : Params) : asked (memoryWriteEvents p) = 4 := by simp [memoryWriteEvents]

@[simp] theorem replay_commandTransaction (l : Lines) (c : Byte) (ps : List Byte) :
    l.replay (allOk (commandTransaction c ps)) =
      { l with ce := .held .inact, sel := if ps = [] then .held .cmd else .held .dat } := by
  by_cases h : ps = [] <;> simp [commandTransaction, h, Lines.after]

@[simp] theorem replay_dataTransaction (l : Lines) (bs : List Byte) :
    l.replay (allOk (dataTransaction bs)) = { l with ce := .held .inact, sel := .held .dat } := by
  simp [dataTransaction, Lines.after]

theorem replay_dataRuns (l : Lines) (rs : List (List Byte)) :
    l.replay (allOk (dataRuns rs)) = if rs = [] then l else { l with ce := .held .inact, sel := .held .dat } := by
  induction rs generalizing l with
  | nil => rfl
  | cons r rs ih =>
    rw [show dataRuns (r :: rs) = dataTransaction r ++ dataRuns rs from rfl, allOk_append, Lines.replay_append,
      replay_dataTransaction, ih]
    by_cases h : rs = [] <;> simp [h]

@[simp] theorem replay_windowEvents (l : Lines) (p : Params) (w : Window) :
    l.replay (allOk (windowEvents p w)) = { l with ce := .held .inact, sel := .held .dat } := by simp [windowEvents]

@[simp] theorem replay_memoryWriteEvents (l : Lines) (p : Params) :
    l.replay (allOk (memoryWriteEvents p)) = { l with ce := .held .inact, sel := .held .cmd } := by
  simp [memoryWriteEvents]

theorem wireView_append (l : Lines) (a b : List (Event × Answer)) :
    wireView l (a ++ b) = wireView l a ++ wireView (l.replay a) b := by
  induction a generalizing l with
  | nil => rfl
  | cons x a ih =>
    obtain ⟨e, r⟩ := x
    cases e <;> cases r <;> simp [wireView, ih, Lines.after]

theorem wireView_dataTransaction (l : Lines) (bs : List Byte) :
    wireView l (allOk (dataTransaction bs)) = dataOnWire bs := by
  simp [dataTransaction, wireView, Lines.after, dataOnWire]

theorem wireView_commandTransaction (l : Lines) (c : Byte) (bs : List Byte) :
    wireView l (allOk (commandTransaction c bs)) = codeOnWire c ++ dataOnWire bs := by
  by_cases h : bs = [] <;> simp [commandTransaction, h, wireView, Lines.after, dataOnWire, codeOnWire]

theorem wireView_dataRuns (l : Lines) (rs : List (List Byte)) :
    wireView l (allOk (dataRuns rs)) = dataOnWire rs.flatten := by
  induction rs generalizing l with
  | nil => rfl
  | cons r rs ih =>
    rw [show dataRuns (r :: rs) = dataTransaction r ++ dataRuns rs from rfl, allOk_append, wireView_append,
      wireView_dataTransaction, ih]
    simp [dataOnWire]

theorem Completed.wireSince {s t : State} {es : List Event} (h : Completed s t es) :
    wireSince s t = wireView s.lines (allOk es) := by
  simp [Machine.wireSince, eventsSince, h.2.2.1]

/-- The window commands leave the latches of 20_memory R69 and a row command with its four bytes, and nothing else. -/
theorem hear_windowEvents (p : Params) (l : Lines) (k : Sink) (win : Window) (hp : p.wf = true) :
    hearEvents .initialized p l k (windowEvents p win) =
      { k with
        col := if win.cols.first.toNat ≤ win.cols.last.toNat then .held win.cols else .unknown
        row := if win.rows.first.toNat ≤ win.rows.last.toNat then .held win.rows else .unknown
        cmd := .rowParams (spanBytes win.rows)
        draws := k.draws + 10 } := by
  have hn : (opCodeList p.codes).Nodup := by
    simp only [Params.wf, Bool.and_eq_true, decide_eq_true_eq] at hp; exact hp.1
  have h1 : p.codes.raset ≠ p.codes.caset := by
    intro h; simp [opCodeList, h] at hn
  rw [windowEvents, hearEvents_append, hear_commandTransaction, hear_commandTransaction,
    Sink.takeData_initialized, Sink.takeCode_initialized]
  dsimp only
  rw [Sink.commandByte, if_pos rfl]
  rw [Sink.commandByte, if_neg h1, if_pos rfl]
  rw [← spanOf_spanBytes, ← spanOf_spanBytes]
  simp [spanBytes, be16, Sink.dataByte, Sink.setCol, Sink.setRow]

end Sys2Proof.Machine
end

