-- ==== Sys2Proof/Tests/Slice0.lean ====
section
/-! SUPPORT. The model's own tests: well-formedness, decoding, one step of each instruction against the vectors of 95_test_vectors (named in each test), and a witness for every obligation that has hypotheses. -/

namespace Sys2Proof.Tests

open Sys2Proof.Machine

/-! Helpers. -/

/-- The fixture table `T_FIX` of 43_init R177: `[(FE, []), (B6, [00, 00]), (3A, [05]), (11, []), (29, [])]`. -/
def fixTable : InitTable :=
  { lead := [{ code := 0xFE, params := [] }, { code := 0xB6, params := [0, 0] }]
    colmodParams := [0x05]
    slpoutParams := []
    disponParams := [] }

/-- The parameters at reset with the fixture table. -/
def fixParams : Params := { defaultParams with init := fixTable }

/-- Just constructed, 240 by 240, RGB, with the fixture table; the environment answers the next 64 events ok. -/
def fixed : State := { State.construct fixParams .rgb 240 240 with replies := List.replicate 64 (.answered .ok) }

/-- The same with `ctrl` Initialized, the premise of the reference sink (20_memory R68). -/
def ready : State := { fixed with ctrl := .initialized }

/-- Initialized, receiving a command whose data bytes are parameters. -/
def idling : State := { ready with sink := { Sink.start with cmd := .idle } }

/-- With a memory write in progress at the first pixel of the 2 by 2 window (3, 4, 4, 5), all four pixels known. -/
def writing : State :=
  { ready with
    sink :=
      { Sink.start with
        col := .held { first := 3, last := 4 }
        row := .held { first := 4, last := 5 }
        cmd := .writing { cols := { first := 3, last := 4 }, rows := { first := 4, last := 5 } } 3 4 none
        mem := [(524294, 1), (524295, 2), (524298, 9)] } }

/-- With these offsets. -/
def withOffsets (dx dy : Word) (s : State) : State := { s with offsetX := dx, offsetY := dy }

/-- With a panel of this size. -/
def withPanel (w h : Word) (s : State) : State := { s with width := w, height := h }

/-- The environment answers the first `n` events ok and the next one fail. -/
def failAt (n : Nat) (s : State) : State :=
  { s with replies := List.replicate n (.answered .ok) ++ [.answered .fail] }

/-- The bytes 0, 1, 2, and so on. -/
def ramp (n : Nat) : List Byte := (List.range n).map (BitVec.ofNat 8)

/-- The words 0, 1, 2, and so on. -/
def wordRamp (n : Nat) : List Word := (List.range n).map (BitVec.ofNat 16)

/-- The next state of an outcome. -/
def nextOf : Host.Outcome State Fault Refusal → Option State
  | .next s => some s
  | .fault _ => none
  | .refused _ => none

/-- The refusal of an outcome. -/
def refusalOf : Host.Outcome State Fault Refusal → Option Refusal
  | .next _ => none
  | .fault _ => none
  | .refused r => some r

/-- The trace an operation leaves. -/
def traceOf (i : Instr) (s : State) : Option (List (Event × Answer)) := (nextOf (exec i s)).map (·.trace)

/-- The response an operation gives. -/
def responseOf (i : Instr) (s : State) : Option Response := (nextOf (exec i s)).bind (·.rsp)

/-- The sizes of the byte runs an operation writes. -/
def runSizes (i : Instr) (s : State) : List Nat :=
  ((traceOf i s).getD []).filterMap fun e => match e.1 with
    | .bus bs => some bs.length
    | _ => none

/-- What is known of a pixel after an operation. -/
def pixelAfter (i : Instr) (s : State) (c r : Word) : Option (Option Word) :=
  (nextOf (exec i s)).map fun t => t.sink.mem.pixel c r

/-- Command transactions and data transactions as 95_test_vectors abbreviates them. -/
def cmd (c : Byte) (ps : List Byte) : List Event := commandTransaction c ps
def dat (bs : List Byte) : List Event := dataTransaction bs

/-- An operation that answers Ok does so in a next state. -/
theorem next_of_response {i : Instr} {s : State} {r : Response} (h : responseOf i s = some r) :
    ∃ t, exec i s = .next t ∧ t.rsp = some r := by
  unfold responseOf nextOf at h
  cases hx : exec i s with
  | next t => rw [hx] at h; exact ⟨t, rfl, h⟩
  | fault f => rw [hx] at h; cases h
  | refused x => rw [hx] at h; cases h

/-! Well-formedness: an ill-formed term for each check. -/

theorem test_wf_region_no_column : Instr.wf (.showRegion [] 0 0 0 1) = false := by decide
theorem test_wf_region_no_row : Instr.wf (.showRegion [] 0 0 1 0) = false := by decide
theorem test_wf_region_last_column : Instr.wf (.showRegion [] 0xFFFF 0 2 1) = false := by decide
theorem test_wf_region_last_row : Instr.wf (.showRegion [] 0 0xFFFF 1 2) = false := by decide
theorem test_wf_region_edge : Instr.wf (.showRegion [] 0xFFFF 0xFFFF 1 1) = true := by decide
theorem test_wf_params : Params.wf fixParams = true := by decide
theorem test_wf_codes_equal :
    Params.wf { fixParams with codes := { defaultCodes with raset := 0x2A } } = false := by decide
theorem test_wf_table_read_code :
    Params.wf { fixParams with init := { fixTable with lead := [{ code := 0x2E, params := [] }] } } = false := by decide
theorem test_codesApart : Params.codesApart fixParams = true := by decide
theorem test_codesApart_clash :
    Params.codesApart { fixParams with reads := { defaultReads with rdid4 := 0x2A } } = false := by decide

/-! Decoding: words written out from 30_encoding. R81: the selector of each request, operands as their own fields. R90,
R92: the command code of each row. -/

/-- 95_test_vectors T2: op 00; opcode 36, params 08. -/
theorem test_decode_writeCommand :
    decode fixParams (.request 0x00 [[0x36], [0x08]]) = .ok (.writeCommand 0x36 [0x08]) := by decide
theorem test_decode_beginData : decode fixParams (.request 0x01 []) = .ok .beginData := by decide
theorem test_decode_writeData :
    decode fixParams (.request 0x02 [[0xF8, 0x00]]) = .ok (.writeData [0xF8, 0x00]) := by decide
theorem test_decode_writeWord : decode fixParams (.request 0x03 [[0x12, 0x34]]) = .ok (.writeWord 0x1234) := by decide
theorem test_decode_writeWordsBuffered :
    decode fixParams (.request 0x04 [[0x12, 0x34, 0xAB, 0xCD]]) = .ok (.writeWordsBuffered [0x1234, 0xABCD]) := by decide
/-- 95_test_vectors PRG5: op 05; dx = 000A; dy = 0000. -/
theorem test_decode_setOffset :
    decode fixParams (.request 0x05 [[0x00, 0x0A], [0x00, 0x00]]) = .ok (.setOffset 0x000A 0x0000) := by decide
theorem test_decode_setAddressWindow :
    decode fixParams (.request 0x06 [[0, 1], [0, 2], [0, 3], [1, 4]]) = .ok (.setAddressWindow 1 2 3 0x104) := by decide
/-- 95_test_vectors PRG3: op 07; o = O2. -/
theorem test_decode_setOrientation : decode fixParams (.request 0x07 [[2]]) = .ok (.setOrientation .o2) := by decide
theorem test_decode_hardReset : decode fixParams (.request 0x08 []) = .ok .hardReset := by decide
theorem test_decode_init : decode fixParams (.request 0x09 []) = .ok .init := by decide
/-- 95_test_vectors PRG1: op 0A; x = 000A; y = 0014; color = F800. -/
theorem test_decode_setPixel :
    decode fixParams (.request 0x0A [[0x00, 0x0A], [0x00, 0x14], [0xF8, 0x00]]) = .ok (.setPixel 0x0A 0x14 0xF800) := by
  decide
theorem test_decode_writePixels :
    decode fixParams (.request 0x0B [[0xF8, 0x00, 0x07, 0xE0]]) = .ok (.writePixels [0xF800, 0x07E0]) := by decide
theorem test_decode_writePixelsBuffered :
    decode fixParams (.request 0x0C [[0xF8, 0x00]]) = .ok (.writePixelsBuffered [0xF800]) := by decide
theorem test_decode_setPixels :
    decode fixParams (.request 0x0D [[0, 1], [0, 2], [0, 3], [0, 4], [0x11, 0x22]]) = .ok (.setPixels 1 2 3 4 [0x1122]) := by
  decide
/-- 95_test_vectors PRG2: op 0E; sx = 0000; sy = 0000; ex = 0003; ey = 0004. -/
theorem test_decode_setPixelsBuffered :
    decode fixParams (.request 0x0E [[0, 0], [0, 0], [0, 3], [0, 4], [0, 0, 0, 1]]) =
      .ok (.setPixelsBuffered 0 0 3 4 [0, 1]) := by decide
theorem test_decode_drawImage : decode fixParams (.request 0x0F [[0xAB, 0xCD]]) = .ok (.drawImage [0xAB, 0xCD]) := by decide
theorem test_decode_showFrame : decode fixParams (.request 0x10 [[0xAA]]) = .ok (.showFrame [0xAA]) := by decide
/-- 95_test_vectors PRG3: op 11; buffer; x = 0001; y = 0002; w = 0002; h = 0003 (there 0002). -/
theorem test_decode_showRegion :
    decode fixParams (.request 0x11 [[7], [0, 1], [0, 2], [0, 2], [0, 3]]) = .ok (.showRegion [7] 1 2 2 3) := by decide
/-- 95_test_vectors W3's column command: 2A; 01 FF 02 FF. -/
theorem test_decode_caset :
    decode fixParams (.command 0x2A [0x01, 0xFF, 0x02, 0xFF]) = .ok (.caset 0x01FF 0x02FF) := by decide
/-- 95_test_vectors W3's row command: 2B; 00 03 00 05. -/
theorem test_decode_raset :
    decode fixParams (.command 0x2B [0x00, 0x03, 0x00, 0x05]) = .ok (.raset 0x0003 0x0005) := by decide
theorem test_decode_ramwr : decode fixParams (.command 0x2C []) = .ok .ramwr := by decide
theorem test_decode_madctl : decode fixParams (.command 0x36 [0xC8]) = .ok (.madctl 0xC8) := by decide
theorem test_decode_colmod : decode fixParams (.command 0x3A [0x05]) = .ok (.colmod [0x05]) := by decide
theorem test_decode_slpout : decode fixParams (.command 0x11 []) = .ok (.slpout []) := by decide
theorem test_decode_dispon : decode fixParams (.command 0x29 []) = .ok (.dispon []) := by decide
theorem test_decode_rddid : decode fixParams (.command 0x04 []) = .ok .rddid := by decide
theorem test_decode_rddst : decode fixParams (.command 0x09 []) = .ok .rddst := by decide
theorem test_decode_ramrd : decode fixParams (.command 0x2E []) = .ok .ramrd := by decide
theorem test_decode_rdid1 : decode fixParams (.command 0xDA []) = .ok .rdid1 := by decide
theorem test_decode_rdid2 : decode fixParams (.command 0xDB []) = .ok .rdid2 := by decide
theorem test_decode_rdid3 : decode fixParams (.command 0xDC []) = .ok .rdid3 := by decide
theorem test_decode_rdid4 : decode fixParams (.command 0xDD []) = .ok .rdid4 := by decide
/-- 30_encoding R83: selectors from 0x12 on, and an orientation that is not one of the four, are refused. -/
theorem test_decode_first_unknown : decode fixParams (.request 0x12 []) = .error (.unknownSelector 0x12) := by decide
theorem test_decode_last_unknown : decode fixParams (.request 0xFF []) = .error (.unknownSelector 0xFF) := by decide
theorem test_decode_orientation_four : decode fixParams (.request 0x07 [[4]]) = .error (.badOperands 0x07) := by decide
theorem test_decode_missing_operand : decode fixParams (.request 0x05 [[0, 1]]) = .error (.badOperands 0x05) := by decide
theorem test_decode_odd_list : decode fixParams (.request 0x0B [[1, 2, 3]]) = .error (.badOperands 0x0B) := by decide
theorem test_decode_unknown_command : decode fixParams (.command 0x00 []) = .error (.unknownCommand 0x00) := by decide
theorem test_decodeTableWord_size : decodeTableWord 16 0x00 = none := by decide

/-! One step of each instruction. -/

/-- T3: `CMD(00; FF FF FF)`, the code unchecked. -/
theorem test_writeCommand_params :
    traceOf (.writeCommand 0x00 [0xFF, 0xFF, 0xFF]) fixed =
      some (allOk [.ce .act, .sel .cmd, .bus [0x00], .sel .dat, .bus [0xFF, 0xFF, 0xFF], .ce .inact]) := by decide
/-- F4: the fourth event fails; `CE` is left active, `SEL` unknown. -/
theorem test_writeCommand_failure :
    (nextOf (exec (.writeCommand 0x2A [0x00, 0x0A, 0x00, 0x0A]) (failAt 3 fixed))).map (fun t => (t.trace, t.lines, t.rsp, t.ctrl)) =
      some ([(.ce .act, .ok), (.sel .cmd, .ok), (.bus [0x2A], .ok), (.sel .dat, .fail)],
        { sel := .unknown, ce := .held .act, rst := .unknown }, some .transactionFailure, .unknown) := by decide
/-- T4: `CE` unchanged, `SEL` at the data level. -/
theorem test_beginData :
    (nextOf (exec .beginData fixed)).map (fun t => (t.trace, t.lines)) =
      some ([(.sel .dat, .ok)], { sel := .held .dat, ce := .unknown, rst := .unknown }) := by decide
/-- F8. -/
theorem test_beginData_failure : responseOf .beginData (failAt 0 fixed) = some .transactionFailure := by decide
/-- T5: an empty run is one bus event too. -/
theorem test_writeData_empty :
    traceOf (.writeData []) fixed = some (allOk [.ce .act, .sel .dat, .bus [], .ce .inact]) := by decide
/-- T6: no chunking. -/
theorem test_writeData_33 : runSizes (.writeData (ramp 33)) fixed = [33] := by decide
/-- T7: high byte first, even when it is 0. -/
theorem test_writeWord :
    traceOf (.writeWord 0x00FF) fixed = some (allOk [.ce .act, .sel .dat, .bus [0x00, 0xFF], .ce .inact]) := by decide
set_option maxRecDepth 20000 in
/-- T13: 17 words, sizes 32 and 2. -/
theorem test_writeWordsBuffered_17 : runSizes (.writeWordsBuffered (wordRamp 17)) fixed = [32, 2] := by decide
set_option maxRecDepth 20000 in
/-- T12: 16 words with `P_EMPTY_FINAL_FLUSH`, sizes 32 and 0. -/
theorem test_writeWordsBuffered_empty_flush :
    runSizes (.writeWordsBuffered (wordRamp 16)) { fixed with params := { fixParams with emptyFinalFlush := true } } = [32, 0] := by
  decide
/-- W8: it overwrites, it does not add. -/
theorem test_setOffset :
    (nextOf (exec (.setOffset 1 0) (withOffsets 7 9 fixed))).map (fun t => (t.offsetX, t.offsetY, t.trace, t.rsp)) =
      some (1, 0, [], some .ok) := by decide
/-- W4: a sum of exactly 0xFFFF is accepted. -/
theorem test_setAddressWindow_edge :
    traceOf (.setAddressWindow 0x00FF 0 0x00FF 0) (withOffsets 0xFF00 0 fixed) =
      some (allOk (cmd 0x2A [0xFF, 0xFF, 0xFF, 0xFF] ++ cmd 0x2B [0, 0, 0, 0])) := by decide
/-- W5: one more is refused. -/
theorem test_setAddressWindow_overflow :
    refusalOf (exec (.setAddressWindow 0x00FF 0 0x0100 0) (withOffsets 0xFF00 0 fixed)) = some .offsetOverflow := by decide
/-- W9: O1 on an RGB panel sends 60. -/
theorem test_setOrientation_rgb : traceOf (.setOrientation .o1) fixed = some (allOk (cmd 0x36 [0x60])) := by decide
/-- W10: O2 on a BGR panel sends C8. -/
theorem test_setOrientation_bgr :
    traceOf (.setOrientation .o2) { fixed with colorOrder := .bgr } = some (allOk (cmd 0x36 [0xC8])) := by decide
/-- I1. -/
theorem test_hardReset :
    (nextOf (exec .hardReset fixed)).map (fun t => (t.trace, t.lines.rst, t.ctrl)) =
      some (allOk [.rst .hi, .dly 10, .rst .lo, .dly 10, .rst .hi, .dly 10], .held .hi, .reset) := by decide
/-- I4: the second drive fails. -/
theorem test_hardReset_failure :
    traceOf .hardReset (failAt 1 fixed) = some [(.rst .hi, .ok), (.dly 10, .ok), (.rst .lo, .fail)] := by decide
/-- I2. -/
theorem test_init :
    (nextOf (exec .init fixed)).map (fun t => (t.trace, t.lines, t.ctrl)) =
      some (allOk (resetPulse ++ cmd 0xFE [] ++ cmd 0xB6 [0, 0] ++ cmd 0x3A [0x05] ++ cmd 0x11 [] ++ cmd 0x29 [] ++ [.dly 200]),
        { sel := .held .cmd, ce := .held .inact, rst := .held .hi }, .initialized) := by decide
/-- I6: `BUS([05])` fails, the eighteenth event that asks for an answer; 21 events. -/
theorem test_init_failure : ((traceOf .init (failAt 17 fixed)).map fun e => (e.length, e.getLast?)) =
    some (21, some (.bus [0x05], .fail)) := by decide
/-- P1. -/
theorem test_setPixel :
    traceOf (.setPixel 239 239 0x001F) fixed =
      some (allOk (cmd 0x2A [0, 0xEF, 0, 0xEF] ++ cmd 0x2B [0, 0xEF, 0, 0xEF] ++ cmd 0x2C [] ++ dat [0x00, 0x1F])) := by decide
/-- S6: the red pixel, in the controller. -/
theorem test_setPixel_sink : pixelAfter (.setPixel 10 20 0xF800) ready 10 20 = some (some 0xF800) := by decide
/-- P3. -/
theorem test_writePixels :
    traceOf (.writePixels [0xF800, 0x07E0, 0x001F]) fixed =
      some (allOk (cmd 0x2C [] ++ dat [0xF8, 0] ++ dat [0x07, 0xE0] ++ dat [0, 0x1F])) := by decide
/-- P17: the second color's bus write fails; 11 events. -/
theorem test_writePixels_failure :
    ((traceOf (.writePixels [0xAAAA, 0xBBBB]) (failAt 10 fixed)).map fun e => (e.length, e.getLast?)) =
      some (11, some (.bus [0xBB, 0xBB], .fail)) := by decide
/-- P4. -/
theorem test_writePixelsBuffered :
    traceOf (.writePixelsBuffered [0xF800, 0x07E0, 0x001F]) fixed =
      some (allOk (cmd 0x2C [] ++ dat [0xF8, 0, 0x07, 0xE0, 0, 0x1F])) := by decide
set_option maxRecDepth 20000 in
/-- P5: 16 colors, one transaction of 32 bytes. -/
theorem test_writePixelsBuffered_16 : runSizes (.writePixelsBuffered (wordRamp 16)) fixed = [1, 32] := by decide
/-- P15. -/
theorem test_setPixels :
    traceOf (.setPixels 0 0 1 1 [0x1111, 0x2222, 0x3333, 0x4444]) (withOffsets 3 4 fixed) =
      some (allOk (cmd 0x2A [0, 3, 0, 4] ++ cmd 0x2B [0, 4, 0, 5] ++ cmd 0x2C [] ++ dat [0x11, 0x11] ++ dat [0x22, 0x22] ++
        dat [0x33, 0x33] ++ dat [0x44, 0x44])) := by decide
/-- The reference sink after P15: (3, 5) = 3333, the first pixel of the second row. -/
theorem test_setPixels_sink :
    pixelAfter (.setPixels 0 0 1 1 [0x1111, 0x2222, 0x3333, 0x4444]) (withOffsets 3 4 ready) 3 5 = some (some 0x3333) := by
  decide
/-- P16. -/
theorem test_setPixelsBuffered :
    traceOf (.setPixelsBuffered 0 0 1 1 [0x1111, 0x2222, 0x3333, 0x4444]) (withOffsets 3 4 fixed) =
      some (allOk (cmd 0x2A [0, 3, 0, 4] ++ cmd 0x2B [0, 4, 0, 5] ++ cmd 0x2C [] ++
        dat [0x11, 0x11, 0x22, 0x22, 0x33, 0x33, 0x44, 0x44])) := by decide
/-- A long stream, `set_pixels_buffered(0, 0, 0, 0, [1111, 2222])`: the whole frame memory holds any value. -/
theorem test_setPixelsBuffered_long :
    pixelAfter (.setPixelsBuffered 0 0 0 0 [0x1111, 0x2222]) ready 0 0 = some none := by decide
/-- P6: 33 bytes, sizes 32 and 1 after the five of the commands. -/
theorem test_drawImage_33 : runSizes (.drawImage (ramp 33)) (withPanel 2 2 fixed) = [1, 4, 1, 4, 1, 32, 1] := by decide
/-- P8: the offset is added. -/
theorem test_drawImage_offset :
    ((traceOf (.drawImage (ramp 64)) (withOffsets 10 0 fixed)).map (·.take 12)) =
      some (allOk (cmd 0x2A [0, 0x0A, 0, 0xF9] ++ cmd 0x2B [0, 0, 0, 0xEF])) := by decide
/-- P10. -/
theorem test_showFrame_empty :
    traceOf (.showFrame []) fixed =
      some (allOk (cmd 0x2A [0, 0, 0, 0xEF] ++ cmd 0x2B [0, 0, 0, 0xEF] ++ cmd 0x2C [] ++ dat [])) := by decide
set_option maxRecDepth 20000 in
/-- P9: the offset is not applied, and the buffer is one bus event. -/
theorem test_showFrame_offset :
    traceOf (.showFrame (ramp 64)) (withOffsets 10 0 fixed) =
      some (allOk (cmd 0x2A [0, 0, 0, 0xEF] ++ cmd 0x2B [0, 0, 0, 0xEF] ++ cmd 0x2C [] ++ dat (ramp 64))) := by decide
/-- P11. -/
theorem test_showRegion :
    traceOf (.showRegion (ramp 32) 1 2 2 2) (withPanel 4 4 fixed) =
      some (allOk (cmd 0x2A [0, 1, 0, 2] ++ cmd 0x2B [0, 2, 0, 3] ++ cmd 0x2C [] ++ dat [0x12, 0x13, 0x14, 0x15] ++
        dat [0x1A, 0x1B, 0x1C, 0x1D])) := by decide
/-- P13: a buffer of 29 bytes is one short. -/
theorem test_showRegion_short :
    refusalOf (exec (.showRegion (ramp 29) 1 2 2 2) (withPanel 4 4 fixed)) = some .regionOutsideBuffer := by decide
/-- W3's column command: columns 0x01FF to 0x02FF are latched (20_memory R69). -/
theorem test_caset :
    (nextOf (exec (.caset 0x01FF 0x02FF) ready)).map (fun t => (t.trace, t.sink.col)) =
      some (allOk (cmd 0x2A [0x01, 0xFF, 0x02, 0xFF]), .held { first := 0x01FF, last := 0x02FF }) := by decide
/-- W3's row command. -/
theorem test_raset :
    (nextOf (exec (.raset 0x0003 0x0005) ready)).map (fun t => (t.trace, t.sink.row)) =
      some (allOk (cmd 0x2B [0x00, 0x03, 0x00, 0x05]), .held { first := 0x0003, last := 0x0005 }) := by decide
/-- T1: `CMD(2C)`. -/
theorem test_ramwr : traceOf .ramwr fixed = some (allOk [.ce .act, .sel .cmd, .bus [0x2C], .ce .inact]) := by decide
/-- T2: `CMD(36; 08)`. -/
theorem test_madctl :
    (nextOf (exec (.madctl 0x08) ready)).map (fun t => (t.trace, t.sink.access)) =
      some (allOk (cmd 0x36 [0x08]), .held 0x08) := by decide
/-- I2's `CMD(3A; 05)`. -/
theorem test_colmod : traceOf (.colmod [0x05]) fixed = some (allOk (cmd 0x3A [0x05])) := by decide
/-- I2's `CMD(11)`. -/
theorem test_slpout : traceOf (.slpout []) fixed = some (allOk (cmd 0x11 [])) := by decide
/-- I2's `CMD(29)`. -/
theorem test_dispon : traceOf (.dispon []) fixed = some (allOk (cmd 0x29 [])) := by decide
/-- 30_encoding R93: a read code is framed like any byte (as T1). -/
theorem test_rddid : traceOf .rddid fixed = some (allOk (cmd 0x04 [])) := by decide
theorem test_rddst : traceOf .rddst fixed = some (allOk (cmd 0x09 [])) := by decide
theorem test_ramrd : traceOf .ramrd fixed = some (allOk (cmd 0x2E [])) := by decide
theorem test_rdid1 : traceOf .rdid1 fixed = some (allOk (cmd 0xDA [])) := by decide
theorem test_rdid2 : traceOf .rdid2 fixed = some (allOk (cmd 0xDB [])) := by decide
theorem test_rdid3 : traceOf .rdid3 fixed = some (allOk (cmd 0xDC [])) := by decide
theorem test_rdid4 : traceOf .rdid4 fixed = some (allOk (cmd 0xDD [])) := by decide

/-! The step. -/

/-- 30_encoding R81: op 05 with dx = 0005, dy = 0006, placed in front of an idle block, is what the next step runs. -/
theorem test_step_runs :
    (nextOf (step (fixed.withRequest (.request 0x05 [[0, 5], [0, 6]])))).map (fun t => (t.offsetX, t.offsetY, t.reqs)) =
      some (5, 6, []) := by decide
/-- 70_reset R212's hang: an event never answered. -/
theorem test_step_unanswered :
    exec .beginData { fixed with replies := [.silent] } = .fault .unanswered := rfl
/-- The first step from reset with a table word placed. -/
theorem test_withFetchWord :
    (nextOf (step (State.reset.withFetchWord 8 0x01))).map (fun t => (t.trace, t.rsp)) =
      some ([(.sel .dat, .ok)], some .ok) := by decide
/-- 60_exceptions R193: with a zero dimension an operation that uses neither strap is refused too. -/
theorem test_zeroDimension : refusalOf (exec .beginData (withPanel 4 0 fixed)) = some .zeroDimension := by decide
/-- 20_memory R75: after the first byte of a pixel nothing is known of it; after the second, both bytes are. -/
theorem test_writeData_odd :
    pixelAfter (.writeData [0x11]) writing 3 4 = some none ∧
      pixelAfter (.writeData [0x11, 0x22]) writing 3 4 = some (some 0x1122) := by decide
/-- 20_memory R73: the byte after the window's last leaves nothing known, of a pixel written before it neither. -/
theorem test_writeData_overrun : pixelAfter (.writeData [1, 2, 3, 4, 5, 6, 7, 8, 9]) writing 3 4 = some none := by decide
/-- The frame memory at reset is in canonical form. -/
theorem test_reset_mem_wf : State.reset.sink.mem.wf = true := by decide

/-! Witnesses: a state and operands that meet each obligation's hypotheses together. -/

/-- What is read off the next state of an outcome is read off some next state. -/
theorem next_of_map {α : Type} {f : State → α} {o : Host.Outcome State Fault Refusal} {y : α}
    (h : (nextOf o).map f = some y) : ∃ t, o = .next t ∧ f t = y := by
  unfold nextOf at h
  cases o with
  | next t => exact ⟨t, rfl, by simpa using h⟩
  | fault f => cases h
  | refused x => cases h

/-- The command transaction the failure witnesses use (95_test_vectors F1 to F6). -/
def failing : List Event := commandTransaction 0x2A [0x00, 0x0A, 0x00, 0x0A]

/-- The window (3, 4, 4, 5) of `writing`. -/
def win22 : Window := { cols := { first := 3, last := 4 }, rows := { first := 4, last := 5 } }

/-- `writing`, standing at another pixel. -/
def writingAt (c r : Word) : State := { writing with sink := { writing.sink with cmd := .writing win22 c r none } }

theorem witness_DecodeReadsBackEncode : fixParams.codesApart = true := by decide

theorem witness_UnknownAndIllTypedRequestsRefused :
    0x12 ≤ (0x12 : Byte).toNat ∧ (0x11 : Byte).toNat < 0x12 ∧ (¬ ∃ i, encode fixParams i = .request 0x11 []) ∧
      decode fixParams (.request 0x01 []) = .ok .beginData := by
  refine ⟨by decide, by decide, ?_, by decide⟩
  rintro ⟨i, h⟩
  cases i <;> simp [encode] at h

theorem witness_StepRunsDecodedRequest :
    (fixed.withRequest (.request 0x01 [])).seq = .idle ∧
      (fixed.withRequest (.request 0x01 [])).reqs = .request 0x01 [] :: [] ∧
      decode (fixed.withRequest (.request 0x01 [])).params (.request 0x01 []) = .ok .beginData := by decide

theorem witness_StepWaitsOrRefuses :
    (fixed.seq = .idle ∧ fixed.reqs = []) ∧
      ((fixed.withRequest (.request 0x12 [])).reqs = .request 0x12 [] :: [] ∧
        decode fixParams (.request 0x12 []) = .error (.unknownSelector 0x12)) ∧
      { fixed with seq := .running 0x09 3 }.seq = .running 0x09 3 := by decide

theorem witness_WriteCommandSendsCommandTransaction :
    HasPanel ready ∧ ready.answersOk (asked (commandTransaction 0x3A [0x05])) = true ∧
      ready.answersOk (asked (commandTransaction 0x29 [])) = true ∧
      ready.ctrl = .initialized ∧ isNamedCode ready.params 0x3A = true ∧ (0x3A : Byte) ≠ ready.params.codes.ramwr ∧
      (0x3A : Byte) ≠ ready.params.codes.madctl ∧ (0x3A : Byte) ≠ ready.params.codes.caset ∧
      (0x3A : Byte) ≠ ready.params.codes.raset ∧ isNamedCode ready.params 0x01 = false ∧ fixed.ctrl ≠ .initialized ∧
      HasPanel fixed ∧ fixed.answersOk (asked (commandTransaction 0x3A [0x05])) = true := by
  unfold HasPanel; decide

/-- Each of the six events as the failing one (F1 to F6), and the last of a code's without parameters. -/
theorem witness_WriteCommandFailureStopsAtOnce :
    (∀ k, k < 6 → HasPanel (failAt k fixed) ∧ failing[k]? = some (failing.getD k (.dly 0)) ∧
        (failAt k fixed).answersOk k = true ∧ (failAt k fixed).replyAt k = .answered .fail) ∧
      (commandTransaction 0x2C [])[3]? = some (.ce .inact) ∧ 3 + 1 = (commandTransaction 0x2C []).length := by
  unfold HasPanel; decide

theorem witness_BeginDataSwitchesSelect :
    HasPanel fixed ∧ fixed.answersOk 1 = true ∧ HasPanel (failAt 0 fixed) ∧ (failAt 0 fixed).replyAt 0 = .answered .fail := by
  unfold HasPanel; decide

theorem witness_WriteDataSendsDataTransaction :
    HasPanel idling ∧ idling.answersOk 4 = true ∧ idling.ctrl = .initialized ∧ idling.sink.takesParameters = true := by
  unfold HasPanel; decide

theorem witness_WriteWordSendsHighByteFirst :
    HasPanel idling ∧ idling.answersOk 4 = true ∧ idling.ctrl = .initialized ∧ idling.sink.takesParameters = true :=
  witness_WriteDataSendsDataTransaction

/-- With words to flush and with none (T13, T9). -/
theorem witness_WriteWordsBufferedFlushes :
    HasPanel idling ∧ idling.answersOk (asked (dataRuns (flushRuns idling.params (wordRamp 17)))) = true ∧
      flushRuns idling.params (wordRamp 17) ≠ [] ∧ flushRuns idling.params [] = [] ∧ idling.ctrl = .initialized ∧
      idling.sink.takesParameters = true := by
  unfold HasPanel; decide

theorem witness_BufferedWordsEqualWordByWord :
    HasPanel fixed ∧ fixed.answersOk (4 * (wordRamp 3).length) = true ∧
      fixed.answersOk (asked (dataRuns (flushRuns fixed.params (wordRamp 3)))) = true := by
  unfold HasPanel; decide

theorem witness_SetOffsetOverwritesBoth : HasPanel fixed := by unfold HasPanel; decide

/-- Sums of exactly 65535 (W4), and one more (W5). -/
theorem witness_SetAddressWindowSendsOffsetWindow :
    HasPanel (withOffsets 0xFF00 0 ready) ∧ ((0x00FF : Word).toNat + (withOffsets 0xFF00 0 ready).offsetX.toNat ≤ 65535 ∧
        (0xFFFF : Word).toNat + (withOffsets 0xFF00 0 ready).offsetY.toNat ≤ 65535 ∧
        (withOffsets 0xFF00 0 ready).answersOk 12 = true ∧ (withOffsets 0xFF00 0 ready).ctrl = .initialized ∧
        (withOffsets 0xFF00 0 ready).params.wf = true) ∧
      65535 < (0x0100 : Word).toNat + (withOffsets 0xFF00 0 ready).offsetX.toNat := by
  unfold HasPanel; decide

/-- `draw_image` on a panel of 240 columns with offset_x 0xFF11; a region of one pixel at column 1 with offset_x 0xFFFF. -/
theorem witness_OffsetOverflowRefused :
    (65535 < (239 : Word).toNat + (withOffsets 0xFF11 0 fixed).offsetX.toNat ∧
        HasPanel (withOffsets 0xFF11 0 fixed) ∧
        (239 : Word) = (withOffsets 0xFF11 0 fixed).width - 1 ∧ (239 : Word) = (withOffsets 0xFF11 0 fixed).height - 1) ∧
      (65535 < (1 : Word).toNat + (withOffsets 0xFFFF 0 fixed).offsetX.toNat ∧
        HasPanel (withPanel 1 1 (withOffsets 0xFFFF 0 fixed)) ∧ regionShapeOk 1 0 1 1 = true ∧
        (1 : Word) = 1 + 1 - 1 ∧ (0 : Word) = 0 + 1 - 1 ∧
        regionRows (withPanel 1 1 (withOffsets 0xFFFF 0 fixed)).width (ramp 4) 1 0 1 1 = some [[2, 3]]) := by
  unfold HasPanel; decide

theorem witness_OffsetThenWindowTransmitsSums :
    HasPanel fixed ∧ (0x00FF : Word).toNat + (0xFF00 : Word).toNat ≤ 65535 ∧ (0 : Word).toNat + (0 : Word).toNat ≤ 65535 ∧
      fixed.answersOk 12 = true := by
  unfold HasPanel; decide

theorem witness_SetOrientationSendsPattern : HasPanel fixed ∧ fixed.answersOk 6 = true := by
  unfold HasPanel; decide

theorem witness_OrientationBgrBit : fixed.colorOrder = .rgb ∧ { fixed with colorOrder := .bgr }.colorOrder = .bgr := by decide

theorem witness_HardResetPulses : HasPanel fixed ∧ fixed.answersOk 3 = true := by
  unfold HasPanel; decide

theorem witness_InitSendsTable :
    HasPanel fixed ∧
      fixed.answersOk (asked (resetPulse ++ (initEntries fixed.params).flatMap entryEvents ++ [.dly 200])) = true := by
  unfold HasPanel; decide

/-- An `init` that answers Ok, with a bus write after the six events of the pulse (I2). -/
theorem witness_InitOrder :
    ∃ t, exec .init fixed = .next t ∧
      (t.rsp, (eventsSince fixed t)[8]?, (eventsSince fixed t)[5]?) =
        (some .ok, some (.bus [0xFE], .ok), some (.dly 10, .ok)) := next_of_map (by decide)

/-- I6. -/
theorem witness_FailedInitSkipsFinalWait :
    ∃ t, exec .init (failAt 17 fixed) = .next t ∧ t.rsp = some .transactionFailure := next_of_response (by decide)

theorem witness_OnlyResetOperationsDelayOrDriveReset :
    ∃ t, exec .beginData fixed = .next t ∧ eventsSince fixed t = [(.sel .dat, .ok)] := next_of_map (by decide)

/-- P1. -/
theorem witness_SetPixelSendsWindowAndColor :
    HasPanel fixed ∧ windowOf fixed 239 239 239 239 = some { cols := { first := 239, last := 239 }, rows := { first := 239, last := 239 } } ∧
      fixed.answersOk 20 = true := by
  unfold HasPanel; decide

theorem witness_WritePixelsSendsOneTransactionPerColor :
    HasPanel fixed ∧ fixed.answersOk (4 + 4 * (wordRamp 3).length) = true := by unfold HasPanel; decide

theorem witness_WritePixelsBufferedSendsFlushes :
    HasPanel fixed ∧
      fixed.answersOk (asked (memoryWriteEvents fixed.params ++ dataRuns (flushRuns fixed.params (wordRamp 16)))) = true := by
  unfold HasPanel; decide

/-- P15: offsets (3, 4), window (0, 0, 1, 1). -/
theorem witness_SetPixelsSendsWindowAndColors :
    HasPanel (withOffsets 3 4 fixed) ∧ windowOf (withOffsets 3 4 fixed) 0 0 1 1 = some win22 ∧
      (withOffsets 3 4 fixed).answersOk (16 + 4 * (wordRamp 4).length) = true := by
  unfold HasPanel; decide

/-- P16. -/
theorem witness_SetPixelsBufferedSendsWindowAndFlushes :
    HasPanel (withOffsets 3 4 fixed) ∧ windowOf (withOffsets 3 4 fixed) 0 0 1 1 = some win22 ∧
      (withOffsets 3 4 fixed).answersOk (16 + 4 * (flushRuns (withOffsets 3 4 fixed).params (wordRamp 4)).length) = true := by
  unfold HasPanel; decide

/-- A panel that with the offset ends at column 65535. -/
theorem witness_DrawImageSendsChunks :
    HasPanel (withOffsets 0xFF10 0 fixed) ∧
      windowOf (withOffsets 0xFF10 0 fixed) 0 0 239 239 =
        some { cols := { first := 0xFF10, last := 0xFFFF }, rows := { first := 0, last := 239 } } ∧
      (withOffsets 0xFF10 0 fixed).width - 1 = 239 ∧ (withOffsets 0xFF10 0 fixed).height - 1 = 239 ∧
      (withOffsets 0xFF10 0 fixed).answersOk (16 + 4 * (((ramp 33).length + 31) / 32)) = true := by
  unfold HasPanel; decide

theorem witness_ShowSendsLiteralWindow : HasPanel fixed ∧ fixed.answersOk 20 = true := by
  unfold HasPanel; decide

/-- P13 at its edge: a buffer of exactly 30 bytes. -/
theorem witness_ShowRegionSendsRows :
    HasPanel (withPanel 4 4 fixed) ∧ 1 ≤ (2 : Word).toNat ∧
      (1 : Word).toNat + (2 : Word).toNat - 1 ≤ 65535 ∧ (2 : Word).toNat + (2 : Word).toNat - 1 ≤ 65535 ∧
      (∀ r, r < (2 : Word).toNat →
        (((2 : Word).toNat + r) * (withPanel 4 4 fixed).width.toNat + (1 : Word).toNat) * 2 + 2 * (2 : Word).toNat ≤
          (ramp 30).length) ∧
      windowOf (withPanel 4 4 fixed) 1 2 (1 + 2 - 1) (2 + 2 - 1) =
        some { cols := { first := 1, last := 2 }, rows := { first := 2, last := 3 } } ∧
      (withPanel 4 4 fixed).answersOk (16 + 4 * ((2 : Word).toNat * ((2 * (2 : Word).toNat + 31) / 32))) = true := by
  unfold HasPanel; decide

/-- Shapes: no column, no row, a last column of 65536; and P13's 29 bytes with a well-shaped region, the last column of
another at exactly 65535. -/
theorem witness_ShowRegionRefusals :
    HasPanel (withPanel 4 4 fixed) ∧
      65535 < (0xFFFF : Word).toNat + (2 : Word).toNat - 1 ∧ (0xFFFF : Word).toNat + (1 : Word).toNat - 1 ≤ 65535 ∧
      ((2 : Word) ≠ 0 ∧ (1 : Word).toNat + (2 : Word).toNat - 1 ≤ 65535 ∧ (2 : Word).toNat + (2 : Word).toNat - 1 ≤ 65535 ∧
        1 < (2 : Word).toNat ∧
        (ramp 29).length <
          (((2 : Word).toNat + 1) * (withPanel 4 4 fixed).width.toNat + (1 : Word).toNat) * 2 + 2 * (2 : Word).toNat) := by
  unfold HasPanel; decide

theorem witness_BufferedPixelsEqualUnbuffered :
    HasPanel (withOffsets 3 4 ready) ∧ (withOffsets 3 4 ready).answersOk (16 + 4 * (wordRamp 4).length) = true ∧
      (withOffsets 3 4 ready).answersOk (16 + 4 * (flushRuns (withOffsets 3 4 ready).params (wordRamp 4)).length) = true ∧
      windowOf (withOffsets 3 4 ready) 0 0 1 1 = some win22 := by
  unfold HasPanel; decide

/-- P12: a 20 by 2 panel and 80 bytes. -/
theorem witness_WholePanelRegionEqualsDrawImage :
    HasPanel (withPanel 20 2 ready) ∧
      (ramp 80).length = (withPanel 20 2 ready).width.toNat * (withPanel 20 2 ready).height.toNat * 2 ∧
      windowOf (withPanel 20 2 ready) 0 0 ((withPanel 20 2 ready).width - 1) ((withPanel 20 2 ready).height - 1) =
        some { cols := { first := 0, last := 19 }, rows := { first := 0, last := 1 } } ∧
      (withPanel 20 2 ready).answersOk (16 + 4 * ((2 : Word).toNat * ((2 * (20 : Word).toNat + 31) / 32))) = true ∧
      (withPanel 20 2 ready).height = 2 ∧ (withPanel 20 2 ready).width = 20 ∧
      (withPanel 20 2 ready).answersOk (16 + 4 * (((ramp 80).length + 31) / 32)) = true := by
  unfold HasPanel; decide

/-- Both sides of the equivalence: offsets (0, 0), and PRG5's (10, 0). -/
theorem witness_ShowEqualsDrawImageOnlyAtOrigin :
    HasPanel fixed ∧
      windowOf fixed 0 0 (fixed.width - 1) (fixed.height - 1) =
        some { cols := { first := 0, last := 239 }, rows := { first := 0, last := 239 } } ∧
      windowOf (withOffsets 10 0 fixed) 0 0 (fixed.width - 1) (fixed.height - 1) =
        some { cols := { first := 10, last := 249 }, rows := { first := 0, last := 239 } } ∧
      (withOffsets 10 0 fixed).answersOk 20 = true ∧
      (withOffsets 10 0 fixed).answersOk (16 + 4 * (((ramp 64).length + 31) / 32)) = true := by
  unfold HasPanel; decide

theorem witness_ComposedOperationsEqualExpansions :
    ∃ es, eventsOf fixed (.setPixel 10 20 0xF800) = some es ∧ fixed.answersOk (asked es) = true :=
  ⟨_, rfl, by decide⟩

theorem witness_CommandRowsSendTheirCode :
    HasPanel fixed ∧ commandRow fixed.params (.caset 0x01FF 0x02FF) = some (0x2A, [0x01, 0xFF, 0x02, 0xFF]) ∧
      fixed.answersOk (asked (commandTransaction 0x2A [0x01, 0xFF, 0x02, 0xFF])) = true ∧
      commandRow fixed.params .rdid4 = some (0xDD, []) ∧ fixed.answersOk (asked (commandTransaction 0xDD [])) = true := by
  unfold HasPanel; decide

/-- RAMWR puts its code on the wire at the command level. -/
theorem witness_ReadCodesNeverIssued :
    fixed.params.wf = true ∧ fixed.params.codesApart = true ∧
      (∃ t, exec .ramwr fixed = .next t ∧ wireSince fixed t = [{ byte := 0x2C, sel := .held .cmd, ce := .held .act }]) ∧
      (∀ op ps, Instr.ramwr ≠ .writeCommand op ps) ∧
      Instr.ramwr ∉ [Instr.rddid, .rddst, .ramrd, .rdid1, .rdid2, .rdid3, .rdid4] :=
  ⟨by decide, by decide, next_of_map (by decide), by simp, by decide⟩

theorem witness_EveryRunFollowsItsStepList :
    (eventsOf fixed .ramwr = some (commandTransaction 0x2C [])) ∧ (∃ t, exec .ramwr fixed = .next t ∧ t.rsp = some .ok) ∧
      ∃ t, exec .ramwr (failAt 2 fixed) = .next t ∧ t.rsp = some .transactionFailure :=
  ⟨by decide, next_of_response (by decide), next_of_response (by decide)⟩

/-- All ok; the last of four events answered fail; the last never answered. -/
theorem witness_AnswersDecideTheEnd :
    eventsOf fixed .ramwr = some (commandTransaction 0x2C []) ∧
      fixed.answersOk (asked (commandTransaction 0x2C [])) = true ∧ 3 < asked (commandTransaction 0x2C []) ∧
      (failAt 3 fixed).answersOk 3 = true ∧ (failAt 3 fixed).replyAt 3 = .answered .fail ∧
      { fixed with replies := [.silent] }.answersOk 0 = true ∧ { fixed with replies := [.silent] }.replyAt 0 = .silent := by
  decide

theorem witness_RefusedExactlyWhereTheRulesSay :
    eventsOf (withOffsets 0xFF00 0 fixed) (.setAddressWindow 0x00FF 0 0x0100 0) = none ∧
      (withPanel 0 4 fixed).width = 0 ∧ (withPanel 4 0 fixed).height = 0 ∧ HasPanel (withPanel 4 4 fixed) ∧
      eventsOf (withPanel 4 4 fixed) (.showRegion (ramp 29) 1 2 2 2) = none ∧
      windowOf (withOffsets 0xFF11 0 fixed) 0 0 239 239 = none ∧ HasPanel (withOffsets 0xFF11 0 fixed) := by
  unfold HasPanel; decide

theorem witness_RegistersWrittenOnlyByTheirOperations :
    ∃ t, exec (.setPixel 1 2 3) fixed = .next t ∧ t.rsp = some .ok := next_of_response (by decide)

theorem witness_LinesDrivenOnlyByTheirOperations :
    (∃ t, exec .hardReset fixed = .next t ∧ t.rsp = some .ok) ∧ (∃ t, exec .beginData fixed = .next t ∧ t.rsp = some .ok) ∧
      ∃ t, exec (.setOffset 1 2) fixed = .next t ∧ t.rsp = some .ok :=
  ⟨next_of_response (by decide), next_of_response (by decide), next_of_response (by decide)⟩

theorem witness_CtrlTransitions :
    (∃ t, exec .beginData (failAt 0 ready) = .next t ∧ t.rsp = some .transactionFailure) ∧
      (∃ t, exec .hardReset ready = .next t ∧ t.rsp = some .ok) ∧ (∃ t, exec .init fixed = .next t ∧ t.rsp = some .ok) ∧
      ∃ t, exec .ramwr ready = .next t ∧ t.rsp = some .ok :=
  ⟨next_of_response (by decide), next_of_response (by decide), next_of_response (by decide),
    next_of_response (by decide)⟩

/-- Two states that differ in the lines, the staging buffer, `ctrl` and the controller; and each of the three ends. -/
theorem witness_NothingReadsLatchesOrGhosts :
    (SameOffsets fixed { writing with fill := 7, lines := { sel := .held .cmd, ce := .held .act, rst := .held .lo } } ∧
        SameStraps fixed { writing with fill := 7, lines := { sel := .held .cmd, ce := .held .act, rst := .held .lo } }) ∧
      (∃ t, exec .ramwr fixed = .next t ∧ t.rsp = some .ok) ∧
      exec .beginData { fixed with replies := [.silent] } = .fault .unanswered ∧
      exec (.drawImage []) (withPanel 0 4 fixed) = .refused .zeroDimension ∧ writing.replies = fixed.replies ∧
      writing.asks = fixed.asks :=
  ⟨by simp [SameOffsets, SameStraps, fixed, writing, ready, State.construct], next_of_response (by decide), rfl, rfl,
    rfl, rfl⟩

/-- A one-byte write at the command level, in a run that ends ok. -/
theorem witness_EveryByteUnderChipEnable :
    ∃ t, exec .ramwr fixed = .next t ∧
      eventsSince fixed t = [(.ce .act, .ok), (.sel .cmd, .ok)] ++ (.bus [0x2C], .ok) :: [(.ce .inact, .ok)] ∧
      (fixed.lines.replay [(.ce .act, .ok), (.sel .cmd, .ok)]).sel = .held .cmd := by
  obtain ⟨t, h1, h2⟩ := next_of_map (o := exec .ramwr fixed) (f := eventsSince fixed)
    (y := [(.ce .act, .ok), (.sel .cmd, .ok)] ++ (.bus [0x2C], .ok) :: [(.ce .inact, .ok)]) (by decide)
  exact ⟨t, h1, h2, rfl⟩

theorem witness_InvariantAtReset : fixParams.wf = true ∧ (1 : Word) ≠ 0 ∧ (0xFFFF : Word) ≠ 0 := by decide

/-- The invariant holds of an Initialized block in the middle of a memory write, from which a step leads on. -/
theorem witness_StepKeepsInvariant :
    Inv (writing.withRequest (.request 0x03 [[0x12, 0x34]])) ∧
      ∃ t, step (writing.withRequest (.request 0x03 [[0x12, 0x34]])) = .next t ∧ t.rsp = some .ok := by
  refine ⟨⟨rfl, rfl, by decide, by decide, ⟨?_, ?_, ?_⟩, fun h => absurd rfl h, by decide, by decide, by decide⟩,
    next_of_map (f := (·.rsp)) (by decide)⟩
  · show (3 : Word).toNat ≤ (4 : Word).toNat
    decide
  · show (4 : Word).toNat ≤ (5 : Word).toNat
    decide
  · exact ⟨rfl, by decide, 0, by decide, by decide, by decide⟩

theorem witness_ControllerHearsTheWireView :
    Instr.ramwr ≠ .hardReset ∧ Instr.ramwr ≠ .init ∧ (∃ t, exec .ramwr ready = .next t ∧ t.rsp = some .ok) ∧
      ∃ t, exec .ramwr fixed = .next t ∧ t.rsp = some .ok :=
  ⟨by decide, by decide, next_of_response (by decide), next_of_response (by decide)⟩

/-- A window that is not inverted, one that is (W6), and each command alone. -/
theorem witness_WindowCommandsLatch :
    ready.ctrl = .initialized ∧ ready.params.wf = true ∧ (windowOf ready 0 0 0 0).isSome = true ∧
      (∃ t, exec (.setAddressWindow 0 0 0 0) ready = .next t ∧ t.rsp = some .ok) ∧ (windowOf ready 5 5 2 2).isSome = true ∧
      (∃ t, exec (.setAddressWindow 5 5 2 2) ready = .next t ∧ t.rsp = some .ok) ∧
      (∃ t, exec (.caset 1 2) ready = .next t ∧ t.rsp = some .ok) ∧
      ∃ t, exec (.raset 2 1) ready = .next t ∧ t.rsp = some .ok :=
  ⟨by decide, by decide, by decide, next_of_response (by decide), by decide, next_of_response (by decide),
    next_of_response (by decide), next_of_response (by decide)⟩

theorem witness_MemoryWriteStartsAtWindow :
    writing.ctrl = .initialized ∧ writing.params.wf = true ∧ writing.sink.window = some win22 ∧
      ∃ t, exec .ramwr writing = .next t ∧ t.rsp = some .ok :=
  ⟨by decide, by decide, by decide, next_of_response (by decide)⟩

/-- In the middle of a row, at its end, and at the window's last pixel. -/
theorem witness_WriteWordWritesOnePixel :
    writing.ctrl = .initialized ∧ (writingAt 3 4).sink.cmd = .writing win22 3 4 none ∧
      (writingAt 4 4).sink.cmd = .writing win22 4 4 none ∧ (writingAt 4 5).sink.cmd = .writing win22 4 5 none ∧
      (4 : Word) = win22.cols.last ∧ (5 : Word) = win22.rows.last ∧
      (∃ t, exec (.writeWord 0x1234) (writingAt 3 4) = .next t ∧ t.rsp = some .ok) ∧
      (∃ t, exec (.writeWord 0x1234) (writingAt 4 4) = .next t ∧ t.rsp = some .ok) ∧
      ∃ t, exec (.writeWord 0x1234) (writingAt 4 5) = .next t ∧ t.rsp = some .ok :=
  ⟨by decide, by decide, by decide, by decide, by decide, by decide, next_of_response (by decide),
    next_of_response (by decide), next_of_response (by decide)⟩

/-- `writing`, in another place. -/
def inPlace (c : SinkCmd) : State := { writing with sink := { writing.sink with cmd := c } }

/-- Standing at the window's second pixel: three words fill the window; after its high byte, three bytes more end the next
pixel's; one byte too many; a full window; a place lost; a command not known. -/
theorem witness_DataContinuesMemoryWrite :
    (∀ c, (inPlace c).ctrl = .initialized) ∧ win22.upright = true ∧ 1 < win22.count ∧
      win22.colAt 1 = 4 ∧ win22.rowAt 1 = 4 ∧ dataBytes (.writeWordsBuffered (wordRamp 3)) = some ((wordRamp 3).flatMap be16) ∧
      1 + (wordRamp 3).length + 0 = win22.count ∧
      (some (0x11 : Byte)).toList ++ [0x22, 0x33, 0x44, 0x55] = [0x1122, 0x3344].flatMap be16 ++ [0x55] ∧
      1 + 2 + 1 = win22.count ∧ 2 * (win22.count - 1) < (none : Option Byte).toList.length + (ramp 7).length ∧
      2 * (win22.count - 1) < (some (0x11 : Byte)).toList.length + (ramp 6).length ∧
      (∃ t, exec (.writeWordsBuffered (wordRamp 3)) (inPlace (.writing win22 4 4 none)) = .next t ∧ t.rsp = some .ok) ∧
      (∃ t, exec (.writeData [0x22, 0x33, 0x44, 0x55]) (inPlace (.writing win22 4 4 (some 0x11))) = .next t ∧
        t.rsp = some .ok) ∧
      (∃ t, exec (.writeData (ramp 7)) (inPlace (.writing win22 4 4 none)) = .next t ∧ t.rsp = some .ok) ∧
      (∃ t, exec (.writeData (ramp 6)) (inPlace (.writing win22 4 4 (some 0x11))) = .next t ∧ t.rsp = some .ok) ∧
      (∃ t, exec (.writeWord 0x1234) (inPlace .full) = .next t ∧ t.rsp = some .ok) ∧
      (∃ t, exec (.writeWord 0x1234) (inPlace .lost) = .next t ∧ t.rsp = some .ok) ∧
      ∃ t, exec (.writeWord 0x1234) (inPlace .unknown) = .next t ∧ t.rsp = some .ok :=
  ⟨fun _ => rfl, by decide, by decide, by decide, by decide, by decide, by decide, by decide, by decide, by decide, by decide,
    next_of_response (by decide), next_of_response (by decide), next_of_response (by decide),
    next_of_response (by decide), next_of_response (by decide), next_of_response (by decide),
    next_of_response (by decide)⟩

/-- P15 exactly filled; a short odd `draw_image` of three bytes on a 2 by 2 panel; `write_pixels` into a latched window. -/
theorem witness_StreamFillsWindowRowMajor :
    ready.params.wf = true ∧
      (windowWritten (withOffsets 3 4 ready) (.setPixels 0 0 1 1 (wordRamp 4)) = some win22 ∧ win22.upright = true ∧
        streamed (withOffsets 3 4 ready) (.setPixels 0 0 1 1 (wordRamp 4)) = some ((wordRamp 4).flatMap be16 ++ []) ∧
        (wordRamp 4).length + 0 ≤ win22.count ∧
        ∃ t, exec (.setPixels 0 0 1 1 (wordRamp 4)) (withOffsets 3 4 ready) = .next t ∧ t.rsp = some .ok) ∧
      ((windowWritten (withPanel 2 2 ready) (.drawImage [1, 2, 3])).map (·.upright) = some true ∧
        streamed (withPanel 2 2 ready) (.drawImage [1, 2, 3]) = some ([0x0102].flatMap be16 ++ [3]) ∧
        (windowWritten (withPanel 2 2 ready) (.drawImage [1, 2, 3])).map (·.count) = some 4 ∧
        ∃ t, exec (.drawImage [1, 2, 3]) (withPanel 2 2 ready) = .next t ∧ t.rsp = some .ok) ∧
      (windowWritten writing (.writePixels (wordRamp 2)) = some win22 ∧
        streamed writing (.writePixels (wordRamp 2)) = some ((wordRamp 2).flatMap be16 ++ []) ∧
        ∃ t, exec (.writePixels (wordRamp 2)) writing = .next t ∧ t.rsp = some .ok) :=
  ⟨by decide, ⟨by decide, by decide, by decide, by decide, next_of_response (by decide)⟩,
    ⟨by decide, by decide, by decide, next_of_response (by decide)⟩, by decide, by decide, next_of_response (by decide)⟩

/-- One byte too many (a 1 by 1 window); an inverted window; no window known. -/
theorem witness_BadStreamLosesFrame :
    ready.ctrl = .initialized ∧ ready.params.wf = true ∧
      ((windowWritten (withPanel 1 1 ready) (.drawImage [1, 2, 3])).map (fun w => (w.upright, w.count)) = some (true, 1) ∧
        streamed (withPanel 1 1 ready) (.drawImage [1, 2, 3]) = some [1, 2, 3] ∧
        ∃ t, exec (.drawImage [1, 2, 3]) (withPanel 1 1 ready) = .next t ∧ t.rsp = some .ok) ∧
      ((windowSet ready (.setPixels 5 5 2 2 [1])).map (·.upright) = some false ∧
        ∃ t, exec (.setPixels 5 5 2 2 [1]) ready = .next t ∧ t.rsp = some .ok) ∧
      (windowWritten ready (.writePixels [1]) = none ∧ ∃ t, exec (.writePixels [1]) ready = .next t ∧ t.rsp = some .ok) :=
  ⟨by decide, by decide, ⟨by decide, by decide, next_of_response (by decide)⟩, ⟨by decide, next_of_response (by decide)⟩,
    by decide, next_of_response (by decide)⟩

theorem witness_OrientationForgetsFrame :
    writing.ctrl = .initialized ∧ writing.params.wf = true ∧ (0xC0 : Byte) = madctlByte writing .o2 ∧
      (∃ t, exec (.setOrientation .o2) writing = .next t ∧ t.rsp = some .ok) ∧
      ∃ t, exec (.madctl 0x48) writing = .next t ∧ t.rsp = some .ok :=
  ⟨by decide, by decide, by decide, next_of_response (by decide), next_of_response (by decide)⟩

theorem witness_OffsetDoesNotMoveLatchedWindow :
    HasPanel writing ∧ writing.answersOk (4 + 4 * (wordRamp 2).length) = true := by
  unfold HasPanel; decide

end Sys2Proof.Tests
end

/-! Proofs of the family `state`: what a request leaves of the registers, the lines, the ghosts and the invariant. -/

namespace Sys2Proof.Machine

/-! What one request does, for every operation that responds. -/

/-- A request that responds is not refused, so it has a step list (60_exceptions R193). -/
theorem eventsOf_of_next {i : Instr} {s t : State} (ht : exec i s = .next t) : ∃ es, eventsOf s i = some es := by
  cases h : eventsOf s i with
  | some es => exact ⟨es, rfl⟩
  | none =>
    obtain ⟨r, hr⟩ := exec_refused h
    rw [hr] at ht; cases ht

theorem hasPanel_of_next {i : Instr} {s t : State} (ht : exec i s = .next t) : HasPanel s :=
  let ⟨_, h⟩ := eventsOf_of_next ht
  (eventsOf_eq_some.1 h).1

/-- Either the operation is `set_offset`, which has its one outcome, or `exec_next` speaks of it. -/
theorem setOffset_or_not {i : Instr} {s t : State} (ht : exec i s = .next t) :
    (∃ dx dy, i = .setOffset dx dy ∧ t = { s with offsetX := dx, offsetY := dy, rsp := some .ok, seq := .idle }) ∨
      ∀ dx dy, i ≠ .setOffset dx dy := by
  by_cases hi : ∃ dx dy, i = .setOffset dx dy
  · obtain ⟨dx, dy, rfl⟩ := hi
    have hx := exec_setOffset dx dy (hasPanel_of_next ht)
    rw [ht] at hx
    cases hx; exact .inl ⟨dx, dy, rfl, rfl⟩
  · exact .inr fun dx dy h => hi ⟨dx, dy, h⟩

/-- No operation writes a strap, a parameter or the requests to come, and each leaves the sequencer idle (10_state R24,
R26, R27). -/
theorem exec_sameStraps {i : Instr} {s t : State} (ht : exec i s = .next t) :
    SameStraps s t ∧ t.seq = .idle ∧ t.reqs = s.reqs := by
  obtain ⟨es, h⟩ := eventsOf_of_next ht
  rcases setOffset_or_not ht with ⟨dx, dy, -, rfl⟩ | hi
  · exact ⟨⟨rfl, rfl, rfl, rfl⟩, rfl, rfl⟩
  · obtain ⟨-, hstraps, hseq, hreqs, -⟩ := exec_next h hi ht
    exact ⟨hstraps, hseq, hreqs⟩

/-- The events recorded are some of the step list's, and the lines are what they leave (10_state R32). -/
theorem exec_events {i : Instr} {s t : State} {es : List Event} (h : eventsOf s i = some es) (ht : exec i s = .next t) :
    ∃ evs, t.trace = s.trace ++ evs ∧ t.lines = s.lines.replay evs ∧ ∀ x ∈ evs, x.1 ∈ es := by
  rcases setOffset_or_not ht with ⟨dx, dy, -, rfl⟩ | hi
  · exact ⟨[], by simp, rfl, by simp⟩
  · obtain ⟨-, -, -, -, ⟨-, htr, hl, -⟩ | ⟨-, -, -, pre, e, post, rfl, htr, hl, -⟩⟩ := exec_next h hi ht
    · exact ⟨allOk es, htr, hl, by simp [allOk]⟩
    · exact ⟨allOk pre ++ [(e, .fail)], htr, hl, by simp +contextual [allOk, or_imp]⟩

/-- A TransactionFailure leaves `ctrl` Unknown and nothing known of the controller (60_exceptions R197, R198). -/
theorem exec_failure {i : Instr} {s t : State} (ht : exec i s = .next t) (hf : t.rsp = some .transactionFailure) :
    t.ctrl = .unknown ∧ t.sink.knowsNothing = true := by
  obtain ⟨es, h⟩ := eventsOf_of_next ht
  rcases setOffset_or_not ht with ⟨dx, dy, -, rfl⟩ | hi
  · cases hf
  · obtain ⟨-, -, -, -, ⟨hok, -⟩ | ⟨-, hctrl, hsink, -⟩⟩ := exec_next h hi ht
    · rw [hok] at hf; cases hf
    · exact ⟨hctrl, hsink⟩

/-- An operation that responds answers Ok or TransactionFailure (10_state R25). -/
theorem exec_response {i : Instr} {s t : State} (ht : exec i s = .next t) :
    t.rsp = some .ok ∨ t.rsp = some .transactionFailure := by
  obtain ⟨es, h⟩ := eventsOf_of_next ht
  rcases setOffset_or_not ht with ⟨dx, dy, -, rfl⟩ | hi
  · exact .inl rfl
  · obtain ⟨-, -, -, -, ⟨hok, -⟩ | ⟨hf, -⟩⟩ := exec_next h hi ht
    · exact .inl hok
    · exact .inr hf

/-- An operation that answers Ok has performed its whole body. -/
theorem runOp_ok {sel : Byte} {body : State → Run} {s t : State} (hp : HasPanel s) (ht : runOp sel body s = .next t)
    (hok : t.rsp = some .ok) : ∃ u, body (s.start sel) = .done u ∧ t = u.respond .ok := by
  rcases (runOp_next_iff hp).1 ht with hdone | ⟨u, -, rfl⟩
  · exact hdone
  · cases hok

/-- A body whose last step sets `ctrl` leaves it so, and nothing known of the controller (log 22). -/
theorem andThen_setCtrl_done {r : Run} {c : Ctrl} {v : State} (h : (r.andThen fun u => .done (u.setCtrl c)) = .done v) :
    v.ctrl = c ∧ v.sink.knowsNothing = true := by
  cases r with
  | done u => cases h; exact ⟨rfl, rfl⟩
  | failed u => cases h
  | hung => cases h

theorem exec_hardReset_ok {s t : State} (ht : exec .hardReset s = .next t) (hok : t.rsp = some .ok) :
    t.ctrl = .reset ∧ t.sink.knowsNothing = true := by
  obtain ⟨u, hu, rfl⟩ := runOp_ok (hasPanel_of_next ht) ht hok
  have hset := andThen_setCtrl_done hu
  exact hset

theorem exec_init_ok {s t : State} (ht : exec .init s = .next t) (hok : t.rsp = some .ok) :
    t.ctrl = .initialized ∧ t.sink.knowsNothing = true := by
  obtain ⟨u, hu, rfl⟩ := runOp_ok (hasPanel_of_next ht) ht hok
  have hset := andThen_setCtrl_done hu
  exact hset

/-! The registers (10_state R20, R21, R26, R27). -/

/-- Settles O45: `exec_next` and `exec_sameStage` say of every operation but `set_offset` what stays. -/
theorem registersWrittenOnlyByTheirOperations : Obligations.RegistersWrittenOnlyByTheirOperations := by
  intro i s t ht
  obtain ⟨es, h⟩ := eventsOf_of_next ht
  obtain ⟨hstraps, -, hreqs⟩ := exec_sameStraps ht
  refine ⟨hstraps, hreqs, fun hi => (exec_next h hi ht).1, fun h1 h2 h3 => exec_sameStage h h1 h2 h3 ht⟩

/-! The lines (10_state R34). -/

@[simp] theorem Lines.after_bus (m : Lines) (bs : List Byte) (a : Answer) : m.after (.bus bs, a) = m := by cases a <;> rfl
@[simp] theorem Lines.after_dly (m : Lines) (k : Byte) (a : Answer) : m.after (.dly k, a) = m := by cases a <;> rfl
@[simp] theorem Lines.after_rst_sel (m : Lines) (v : RstLevel) (a : Answer) : (m.after (.rst v, a)).sel = m.sel := by
  cases a <;> rfl
@[simp] theorem Lines.after_rst_ce (m : Lines) (v : RstLevel) (a : Answer) : (m.after (.rst v, a)).ce = m.ce := by
  cases a <;> rfl
@[simp] theorem Lines.after_sel_ce (m : Lines) (v : SelLevel) (a : Answer) : (m.after (.sel v, a)).ce = m.ce := by
  cases a <;> rfl
@[simp] theorem Lines.after_sel_rst (m : Lines) (v : SelLevel) (a : Answer) : (m.after (.sel v, a)).rst = m.rst := by
  cases a <;> rfl
@[simp] theorem Lines.after_ce_rst (m : Lines) (v : CeLevel) (a : Answer) : (m.after (.ce v, a)).rst = m.rst := by
  cases a <;> rfl

/-- What no event of a stretch changes in the lines, the stretch does not change. -/
theorem Lines.replay_unchanged {α : Type} (f : Lines → α) (l : Lines) {evs : List (Event × Answer)}
    (h : ∀ x ∈ evs, ∀ m : Lines, f (m.after x) = f m) : f (l.replay evs) = f l := by
  induction evs generalizing l with
  | nil => rfl
  | cons x evs ih =>
    rw [Lines.replay_cons, ih (l.after x) fun y hy => h y (.tail x hy), h x (.head evs)]

/-- What no event of an operation's step list changes in the lines, the operation leaves alone, whatever the answers
(10_state R34). -/
theorem exec_lines_unchanged {α : Type} (f : Lines → α) {i : Instr} {s t : State} {es : List Event}
    (h : eventsOf s i = some es) (ht : exec i s = .next t)
    (hf : ∀ e ∈ es, ∀ (a : Answer) (m : Lines), f (m.after (e, a)) = f m) : f t.lines = f s.lines := by
  obtain ⟨evs, -, hl, hmem⟩ := exec_events h ht
  rw [hl]
  exact Lines.replay_unchanged f s.lines fun x hx m => hf x.1 (hmem x hx) x.2 m

/-- An event on the select line, the chip-enable line or the bus: neither a reset drive nor a delay. -/
def Event.onBus : Event → Prop
  | .sel _ => True
  | .ce _ => True
  | .bus _ => True
  | .rst _ => False
  | .dly _ => False

theorem Event.onBus_rst {e : Event} (h : e.onBus) (a : Answer) (m : Lines) : (m.after (e, a)).rst = m.rst := by
  cases e with
  | sel l => exact m.after_sel_rst l a
  | ce l => exact m.after_ce_rst l a
  | bus bs => rw [m.after_bus]
  | rst l => exact h.elim
  | dly k => exact h.elim

theorem commandTransaction_onBus (c : Byte) (ps : List Byte) : ∀ e ∈ commandTransaction c ps, e.onBus := by
  by_cases h : ps = [] <;> simp [commandTransaction, h, Event.onBus]

theorem dataTransaction_onBus (bs : List Byte) : ∀ e ∈ dataTransaction bs, e.onBus := by
  simp [dataTransaction, Event.onBus]

theorem dataRuns_onBus (rs : List (List Byte)) : ∀ e ∈ dataRuns rs, e.onBus := by
  intro e he
  obtain ⟨bs, -, he⟩ := List.mem_flatMap.1 he
  exact dataTransaction_onBus bs e he

theorem windowEvents_onBus (p : Params) (win : Window) : ∀ e ∈ windowEvents p win, e.onBus :=
  List.forall_mem_append.2 ⟨commandTransaction_onBus _ _, commandTransaction_onBus _ _⟩

theorem memoryWriteEvents_onBus (p : Params) : ∀ e ∈ memoryWriteEvents p, e.onBus := commandTransaction_onBus _ _

/-- The events of an operation that sets a window, issues a memory write and streams. -/
theorem streamEvents_onBus (p : Params) (win : Window) {fs : List Event} (h : ∀ e ∈ fs, e.onBus) :
    ∀ e ∈ windowEvents p win ++ memoryWriteEvents p ++ fs, e.onBus :=
  List.forall_mem_append.2
    ⟨List.forall_mem_append.2 ⟨windowEvents_onBus p win, memoryWriteEvents_onBus p⟩, h⟩

/-- Only `hard_reset` and `init` drive the reset line or wait (10_state R34, 43_init R181). -/
theorem stepList_onBus {i : Instr} {s : State} {es : List Event} (h : stepList s i = some es) (h1 : i ≠ .hardReset)
    (h2 : i ≠ .init) : ∀ e ∈ es, e.onBus := by
  cases i with
  | hardReset => exact absurd rfl h1
  | init => exact absurd rfl h2
  | beginData => cases h; simp [selectSwitch, Event.onBus]
  | writeData bs => cases h; exact dataTransaction_onBus _
  | writeWord w => cases h; exact dataTransaction_onBus _
  | writeWordsBuffered ws => cases h; exact dataRuns_onBus _
  | setOffset dx dy => cases h; simp
  | setAddressWindow sx sy ex ey =>
    obtain ⟨win, -, rfl⟩ := Option.map_eq_some_iff.1 h
    exact windowEvents_onBus _ _
  | setPixel x y c =>
    obtain ⟨win, -, rfl⟩ := Option.map_eq_some_iff.1 h
    exact streamEvents_onBus _ _ (dataTransaction_onBus _)
  | writePixels cs => cases h; exact List.forall_mem_append.2 ⟨memoryWriteEvents_onBus _, dataRuns_onBus _⟩
  | writePixelsBuffered cs => cases h; exact List.forall_mem_append.2 ⟨memoryWriteEvents_onBus _, dataRuns_onBus _⟩
  | setPixels sx sy ex ey cs =>
    obtain ⟨win, -, rfl⟩ := Option.map_eq_some_iff.1 h
    exact streamEvents_onBus _ _ (dataRuns_onBus _)
  | setPixelsBuffered sx sy ex ey cs =>
    obtain ⟨win, -, rfl⟩ := Option.map_eq_some_iff.1 h
    exact streamEvents_onBus _ _ (dataRuns_onBus _)
  | drawImage bs =>
    obtain ⟨win, -, rfl⟩ := Option.map_eq_some_iff.1 h
    exact streamEvents_onBus _ _ (dataRuns_onBus _)
  | showFrame bs =>
    cases h
    exact streamEvents_onBus _ _ (dataTransaction_onBus _)
  | showRegion bs x y w h' =>
    dsimp only [stepList] at h
    split at h
    · cases h; exact streamEvents_onBus _ _ (dataRuns_onBus _)
    · cases h
  | _ => cases h; exact commandTransaction_onBus _ _

/-- Settles O46: each line an operation leaves alone is driven by no event of its step list. -/
theorem linesDrivenOnlyByTheirOperations : Obligations.LinesDrivenOnlyByTheirOperations := by
  intro i s t ht
  obtain ⟨es, h⟩ := eventsOf_of_next ht
  have hsteps := (eventsOf_eq_some.1 h).2
  refine ⟨fun h1 h2 => ?_, ?_, ?_, ?_⟩
  · exact exec_lines_unchanged Lines.rst h ht fun e he a m => Event.onBus_rst (stepList_onBus hsteps h1 h2 e he) a m
  · rintro rfl
    cases hsteps
    exact ⟨exec_lines_unchanged Lines.sel h ht (by simp [resetPulse]),
      exec_lines_unchanged Lines.ce h ht (by simp [resetPulse])⟩
  · rintro rfl
    cases hsteps
    exact exec_lines_unchanged Lines.ce h ht (by simp [selectSwitch])
  · rintro ⟨dx, dy, rfl⟩
    cases hsteps
    exact exec_lines_unchanged id h ht (by simp)

/-! The ghost `ctrl` (10_state R40). -/

theorem Sink.knowsNothing_iff {k : Sink} :
    k.knowsNothing = true ↔ k.col = .unknown ∧ k.row = .unknown ∧ k.access = .unknown ∧ k.cmd = .unknown ∧ k.mem = [] := by
  simp [Sink.knowsNothing, and_assoc]

/-- Settles O47: a failed run has taken the exception, and the two resets end by setting `ctrl`. -/
theorem ctrlTransitions : Obligations.CtrlTransitions := by
  intro i s t ht
  obtain ⟨es, h⟩ := eventsOf_of_next ht
  refine ⟨fun hf => ?_, fun hok => ?_, fun hi => ?_⟩
  · obtain ⟨hctrl, hsink⟩ := exec_failure ht hf
    obtain ⟨-, -, -, -, hmem⟩ := Sink.knowsNothing_iff.1 hsink
    exact ⟨hctrl, hsink, fun a => by rw [hmem, Memory.read_nil]⟩
  · by_cases h1 : i = .hardReset
    · subst h1; exact (exec_hardReset_ok ht hok).1
    rw [if_neg h1]
    by_cases h2 : i = .init
    · subst h2; exact (exec_init_ok ht hok).1
    rw [if_neg h2]
    exact (exec_hears h h1 h2 ht hok).1
  · rcases exec_response ht with hok | hf
    · rcases hi with rfl | rfl
      · exact (exec_hardReset_ok ht hok).2
      · exact (exec_init_ok ht hok).2
    · exact (exec_failure ht hf).2


/-! The controller stays sound (20_memory R68 to R76): the part of the invariant that speaks of the sink. -/

/-- The part of `Inv` that speaks of the controller, for a `ctrl` of this value. -/
def Sink.Sound (x : Ctrl) (k : Sink) : Prop :=
  k.mem.wf = true ∧ k.positioned ∧ (x ≠ .initialized → k.knowsNothing = true)

/-- Of a controller of which nothing is known there is nothing to get wrong. -/
theorem Sink.sound_of_knowsNothing {k : Sink} (h : k.knowsNothing = true) (x : Ctrl) : k.Sound x := by
  obtain ⟨hcol, hrow, -, hcmd, hmem⟩ := Sink.knowsNothing_iff.1 h
  refine ⟨by rw [hmem]; rfl, ?_, fun _ => h⟩
  simp [Sink.positioned, spanUpright, hcol, hrow, hcmd]

theorem Sink.forgetAll_positioned (k : Sink) : k.forgetAll.positioned := ⟨trivial, trivial, trivial⟩

theorem Sink.positioned_writing_iff {k : Sink} {win : Window} {c r : Word} {half : Option Byte}
    (hc : k.cmd = .writing win c r half) :
    k.positioned ↔ spanUpright k.col ∧ spanUpright k.row ∧ k.window = some win ∧ win.upright = true ∧
      ∃ n, n < win.count ∧ c = win.colAt n ∧ r = win.rowAt n := by
  unfold Sink.positioned
  rw [hc]

/-- Only a span that is not inverted is latched (20_memory R74, log 18). -/
theorem spanUpright_spanOf (bs : List Byte) : spanUpright (spanOf bs) := by
  unfold spanOf
  split
  · split
    · assumption
    · trivial
  · trivial

theorem Sink.window_eq_some {k : Sink} {win : Window} (h : k.window = some win) :
    k.col = .held win.cols ∧ k.row = .held win.rows := by
  unfold Sink.window at h
  split at h
  · cases h; exact ⟨‹_›, ‹_›⟩
  · cases h

theorem Window.upright_of_latched {k : Sink} {win : Window} (h : k.window = some win) (hc : spanUpright k.col)
    (hr : spanUpright k.row) : win.upright = true := by
  obtain ⟨h1, h2⟩ := Sink.window_eq_some h
  rw [h1] at hc
  rw [h2] at hr
  exact win.upright_iff.2 ⟨hc, hr⟩

theorem Window.count_pos (win : Window) : 0 < win.count := Nat.mul_pos (Nat.succ_pos _) (Nat.succ_pos _)

@[simp] theorem Window.colAt_zero (win : Window) : win.colAt 0 = win.cols.first := by simp [Window.colAt]
@[simp] theorem Window.rowAt_zero (win : Window) : win.rowAt 0 = win.rows.first := by simp [Window.rowAt]

/-- A memory-write command puts the position at the first pixel of a window that is not inverted (20_memory R70). -/
theorem Sink.startWrite_positioned {k : Sink} (h : k.positioned) : k.startWrite.positioned := by
  obtain ⟨hcol, hrow, -⟩ := h
  cases hw : k.window with
  | some win =>
    simp only [Sink.startWrite, hw]
    exact ⟨hcol, hrow, hw, Window.upright_of_latched hw hcol hrow, 0, win.count_pos, by simp, by simp⟩
  | none =>
    simp only [Sink.startWrite, hw]
    exact ⟨hcol, hrow, trivial⟩

theorem Sink.commandByte_positioned (p : Params) {k : Sink} (h : k.positioned) (b : Byte) :
    (k.commandByte p b).positioned := by
  obtain ⟨hcol, hrow, -⟩ := id h
  unfold Sink.commandByte
  split; · exact ⟨trivial, hrow, trivial⟩
  split; · exact ⟨hcol, trivial, trivial⟩
  split; · exact Sink.startWrite_positioned h
  split; · exact ⟨hcol, hrow, trivial⟩
  split; · exact ⟨hcol, hrow, trivial⟩
  exact k.forgetAll_positioned

/-- A byte of data keeps the position at a pixel of the latched window, or takes it off the window (20_memory R70, R73). -/
theorem Sink.dataByte_positioned {k : Sink} (h : k.positioned) (b : Byte) : (k.dataByte b).positioned := by
  obtain ⟨hcol, hrow, -⟩ := id h
  cases hc : k.cmd with
  | unknown => simpa [Sink.dataByte, hc] using k.forgetAll_positioned
  | idle => simpa [Sink.dataByte, hc] using h
  | colParams bs => simp only [Sink.dataByte, hc]; exact ⟨spanUpright_spanOf _, hrow, trivial⟩
  | rowParams bs => simp only [Sink.dataByte, hc]; exact ⟨hcol, spanUpright_spanOf _, trivial⟩
  | accessParams bs => simp only [Sink.dataByte, hc]; exact ⟨hcol, hrow, trivial⟩
  | full => simp only [Sink.dataByte, hc]; exact ⟨hcol, hrow, trivial⟩
  | lost => simpa [Sink.dataByte, hc, Sink.forgetFrame, Sink.positioned] using h
  | writing win c r half =>
    obtain ⟨-, -, hwin, hup, n, hn, rfl, rfl⟩ := (Sink.positioned_writing_iff hc).1 h
    cases half with
    | none => simp only [Sink.dataByte, hc]; exact ⟨hcol, hrow, hwin, hup, n, hn, rfl, rfl⟩
    | some x =>
      rw [Sink.dataByte_half hup hn b hc]
      by_cases hlast : n + 1 = win.count
      · simp only [hlast, if_true]; exact ⟨hcol, hrow, trivial⟩
      · simp only [hlast, if_false]
        exact ⟨hcol, hrow, hwin, hup, n + 1, by omega, rfl, rfl⟩

theorem Sink.receive_positioned (p : Params) (l : Lines) (bs : List Byte) {k : Sink} (h : k.positioned) :
    (k.receive p l bs).positioned := by
  unfold Sink.receive
  split
  · exact List.foldlRecOn bs _ h fun _ hk b _ => Sink.commandByte_positioned p hk b
  · exact List.foldlRecOn bs _ h fun _ hk b _ => Sink.dataByte_positioned hk b
  · exact k.forgetAll_positioned

/-- Nothing is known after bytes each of which leaves nothing known. -/
theorem Sink.foldl_forgetAll_knowsNothing (bs : List Byte) {k : Sink} (h : k.knowsNothing = true) :
    (bs.foldl (fun k _ => k.forgetAll) k).knowsNothing = true :=
  List.foldlRecOn (motive := fun k : Sink => k.knowsNothing = true) bs _ h fun _ _ _ _ => rfl

/-- Whatever bytes the controller takes, it stays sound. -/
theorem Sink.take_sound (x : Ctrl) (p : Params) (l : Lines) (bs : List Byte) {k : Sink} (h : k.Sound x) :
    (k.take x p l bs).Sound x := by
  obtain ⟨hwf, hpos, hno⟩ := h
  cases x with
  | initialized => exact ⟨Sink.take_wf _ p l bs hwf, Sink.receive_positioned p l bs hpos, fun hx => absurd rfl hx⟩
  | reset => exact Sink.sound_of_knowsNothing (Sink.foldl_forgetAll_knowsNothing bs (hno nofun)) _
  | unknown => exact Sink.sound_of_knowsNothing (Sink.foldl_forgetAll_knowsNothing bs (hno nofun)) _

theorem hearEvents_sound (x : Ctrl) (p : Params) (l : Lines) {k : Sink} (h : k.Sound x) (es : List Event) :
    (hearEvents x p l k es).Sound x := by
  induction es generalizing l k with
  | nil => exact h
  | cons e es ih =>
    cases e with
    | bus bs => exact ih l (Sink.take_sound x p l bs h)
    | sel v => exact ih _ h
    | ce v => exact ih _ h
    | rst v => exact ih _ h
    | dly v => exact ih _ h

/-- After any operation that responds the controller is sound. -/
theorem exec_sound {i : Instr} {s t : State} (ht : exec i s = .next t) (hs : s.sink.Sound s.ctrl) :
    t.sink.Sound t.ctrl := by
  obtain ⟨es, h⟩ := eventsOf_of_next ht
  rcases exec_response ht with hok | hf
  · by_cases h1 : i = .hardReset
    · subst h1; exact Sink.sound_of_knowsNothing (exec_hardReset_ok ht hok).2 _
    by_cases h2 : i = .init
    · subst h2; exact Sink.sound_of_knowsNothing (exec_init_ok ht hok).2 _
    obtain ⟨hctrl, hsink⟩ := exec_hears h h1 h2 ht hok
    rw [hctrl, hsink]
    exact hearEvents_sound s.ctrl s.params s.lines hs es
  · exact Sink.sound_of_knowsNothing (exec_failure ht hf).2 _

/-! The staging buffer never overflows (10_state R30). -/

/-- The run, where it ends, ends in a state that satisfies this. -/
def Run.Ends (P : State → Prop) : Run → Prop
  | .done t => P t
  | .failed t => P t
  | .hung => True

theorem Run.Ends.andThen {P : State → Prop} {r : Run} {f : State → Run} (h : r.Ends P) (hf : ∀ t, P t → (f t).Ends P) :
    (r.andThen f).Ends P := by
  cases r with
  | done t => exact hf t h
  | failed t => exact h
  | hung => trivial

/-- What holds at every end of the body, and does not speak of the response, holds when the operation responds. -/
theorem runOp_ends {P : State → Prop} {sel : Byte} {body : State → Run} {s t : State} (hp : HasPanel s)
    (ht : runOp sel body s = .next t) (h : (body (s.start sel)).Ends P) (hP : ∀ u r, P u → P (u.respond r)) : P t := by
  rcases (runOp_next_iff hp).1 ht with ⟨u, hu, rfl⟩ | ⟨u, hu, rfl⟩
  · rw [hu] at h; exact hP u _ h
  · rw [hu] at h; exact hP u _ h

/-- `fill` is within the buffer. -/
def State.FillInBounds (s : State) : Prop := s.fill ≤ 32

theorem KeepsStage.fillInBounds {f : State → Run} (hf : KeepsStage f) {s : State} (hs : s.FillInBounds) :
    (f s).Ends State.FillInBounds := by
  have h := hf s
  unfold State.FillInBounds at hs
  cases hr : f s with
  | done t => rw [hr] at h; exact (h.2.trans_le hs)
  | failed t => rw [hr] at h; exact (h.2.trans_le hs)
  | hung => trivial

/-- The loop begins each word with an even `fill` below 32, so a word always fits (40_transaction R118). -/
theorem stageLoop_fillInBounds (ws : List Word) (s : State) (hlt : s.fill < 32) (heven : s.fill % 2 = 0) :
    (stageLoop ws s).Ends State.FillInBounds := by
  induction ws generalizing s with
  | nil => exact hlt.le
  | cons w ws ih =>
    have hfits : (s.stageWord w).FillInBounds := by
      show s.fill + 2 ≤ 32
      omega
    unfold stageLoop
    by_cases hfull : (s.stageWord w).fill = bufCap
    · rw [if_pos hfull]
      exact Run.Ends.andThen ((writeData_keepsStage _).fillInBounds hfits) fun t _ => ih t.clearFill (by simp) (by simp)
    · rw [if_neg hfull]
      have hroom : s.fill + 2 ≠ 32 := hfull
      exact ih (s.stageWord w) (by rw [State.stageWord_fill]; omega) (by rw [State.stageWord_fill]; omega)

theorem writeWordsBuffered_fillInBounds (ws : List Word) (s : State) :
    (writeWordsBuffered ws s).Ends State.FillInBounds := by
  unfold writeWordsBuffered
  refine Run.Ends.andThen (stageLoop_fillInBounds ws s.clearFill (by simp) (by simp)) fun t ht => ?_
  split
  · exact (writeData_keepsStage _).fillInBounds ht
  · exact ht

theorem writePixelsBuffered_fillInBounds (cs : List Word) {s : State} (hs : s.FillInBounds) :
    (writePixelsBuffered cs s).Ends State.FillInBounds :=
  Run.Ends.andThen (memoryWrite_keepsStage.fillInBounds hs) fun t _ => writeWordsBuffered_fillInBounds cs t

theorem exec_fillInBounds {i : Instr} {s t : State} (ht : exec i s = .next t) (hs : s.FillInBounds) :
    t.FillInBounds := by
  obtain ⟨es, h⟩ := eventsOf_of_next ht
  have hp := hasPanel_of_next ht
  have hP : ∀ (u : State) (r : Response), u.FillInBounds → (u.respond r).FillInBounds := fun _ _ h => h
  cases i
  case writeWordsBuffered ws => exact runOp_ends hp ht (writeWordsBuffered_fillInBounds ws _) hP
  case writePixelsBuffered cs => exact runOp_ends hp ht (writePixelsBuffered_fillInBounds cs hs) hP
  case setPixelsBuffered sx sy ex ey cs =>
    obtain ⟨win, hw, -⟩ := Option.map_eq_some_iff.1 (eventsOf_eq_some.1 h).2
    have hrun := (runInWindow_some (sel := 0x0E) (body := writePixelsBuffered cs) hw).symm.trans ht
    exact runOp_ends hp hrun (Run.Ends.andThen ((sendWindow_keepsStage win).fillInBounds hs)
      fun u hu => writePixelsBuffered_fillInBounds cs hu) hP
  all_goals exact (exec_sameStage h nofun nofun nofun ht).2.trans_le hs

/-! The invariant. -/

/-- A request taken off the list leaves the invariant as it is. -/
theorem inv_withoutRequest {s : State} (rest : List RawRequest) (h : Inv s) : Inv { s with reqs := rest } := h

/-- Fetching an operation only takes its request off the list. -/
theorem fetch_operation {s u : State} {i : Instr} (h : fetch s = .operation i u) : ∃ rest, u = { s with reqs := rest } := by
  unfold fetch at h
  split at h
  · cases h
  · split at h
    · cases h; exact ⟨_, rfl⟩
    · cases h

/-- WHAT A STEP CAN DO: it waits, or it runs the decoded first request (10_state R24, 70_reset R220). -/
theorem step_next {s t : State} (h : step s = .next t) :
    t = s ∨ ∃ i rest, exec i { s with reqs := rest } = .next t := by
  unfold step at h
  split at h
  · cases h
  · cases hf : fetch s with
    | waiting => rw [hf] at h; cases h; exact .inl rfl
    | bad e => rw [hf] at h; cases h
    | operation i u =>
      obtain ⟨rest, rfl⟩ := fetch_operation hf
      rw [hf] at h
      exact .inr ⟨i, rest, h⟩

/-- Every operation that responds keeps the invariant. -/
theorem exec_inv {i : Instr} {s t : State} (ht : exec i s = .next t) (hs : Inv s) : Inv t := by
  obtain ⟨-, hlines, hfill, hmem, hpos, hctrl, hw, hh, hparams⟩ := hs
  obtain ⟨es, h⟩ := eventsOf_of_next ht
  obtain ⟨⟨-, hw', hh', hparams'⟩, hseq', -⟩ := exec_sameStraps ht
  obtain ⟨evs, htrace', hlines', -⟩ := exec_events h ht
  obtain ⟨hmem', hpos', hctrl'⟩ := exec_sound ht ⟨hmem, hpos, hctrl⟩
  refine ⟨hseq', ?_, exec_fillInBounds ht hfill, hmem', hpos', hctrl', by rwa [hw'], by rwa [hh'], by rwa [hparams']⟩
  rw [hlines', htrace', Lines.replay_append, ← hlines]

/-- Settles O51: a step waits or is one operation, and every operation keeps the invariant. -/
theorem stepKeepsInvariant : Obligations.StepKeepsInvariant := by
  intro s t hs h
  rcases step_next h with rfl | ⟨i, rest, hx⟩
  · exact hs
  · exact exec_inv hx (inv_withoutRequest rest hs)

/-- The free entries of the table at reset carry no read code, and the defaults are distinct (00_scope R9, 43_init R173). -/
theorem defaultParams_wf : defaultParams.wf = true := by
  have hcodes : (opCodeList defaultCodes).Nodup := by decide
  have htail : ∀ c ∈ [defaultCodes.colmod, defaultCodes.slpout, defaultCodes.dispon], c ∉ readCodeList defaultReads := by
    decide
  simpa [Params.wf, initEntries, defaultParams, freeInitTable, hcodes] using htail

theorem construct_inv {p : Params} {co : ColorOrder} {w h : Word} (hp : p.wf = true) (hw : w ≠ 0) (hh : h ≠ 0) :
    Inv (State.construct p co w h) :=
  ⟨rfl, rfl, Nat.zero_le _, rfl, ⟨trivial, trivial, trivial⟩, fun _ => rfl, hw, hh, hp⟩

/-- Settles O50: reset is a construction with admissible parameters, and every such construction meets the invariant. -/
theorem invariantAtReset : Obligations.InvariantAtReset :=
  ⟨construct_inv defaultParams_wf (by decide) (by decide), fun _ _ _ _ hp hw hh => construct_inv hp hw hh⟩

/-! One step, and construction. -/

/-- Settles O4: the idle machine fetches the first request. -/
theorem stepRunsDecodedRequest : Obligations.StepRunsDecodedRequest := by
  intro s r rest i hseq hreqs hdec
  have hf : fetch s = .operation i { s with reqs := rest } := by simp [fetch, hreqs, hdec]
  simp [step, hseq, hf]

/-- Settles O6: each field is as `State.construct` writes it (10_state R44). -/
theorem constructionState : Obligations.ConstructionState :=
  ⟨fun _ _ _ _ => ⟨rfl, rfl, rfl, rfl, rfl, rfl, rfl, rfl, rfl, rfl⟩, _, _, _, _, rfl⟩


/-! Nothing reads a latch or a ghost (10_state R32, R40, R42): two runs that are given the same answers end alike. -/

/-- The states agree on all that an operation reads: the offsets, the straps, the parameters and the answers to come. -/
structure SameInputs (s s' : State) : Prop where
  offsets : SameOffsets s s'
  straps : SameStraps s s'
  replies : s'.replies = s.replies
  asks : s'.asks = s.asks

theorem SameInputs.hasPanel {s s' : State} (h : SameInputs s s') (hp : HasPanel s) : HasPanel s' := by
  obtain ⟨-, hw, hh, -⟩ := h.straps
  exact ⟨hw ▸ hp.1, hh ▸ hp.2⟩

theorem SameInputs.replyAt {s s' : State} (h : SameInputs s s') (n : Nat) : s'.replyAt n = s.replyAt n := by
  simp [State.replyAt, h.replies, h.asks]

theorem SameInputs.answersOk {s s' : State} (h : SameInputs s s') (n : Nat) : s'.answersOk n = s.answersOk n := by
  simp [State.answersOk, h.replyAt]

theorem SameInputs.windowOf {s s' : State} (h : SameInputs s s') (sx sy ex ey : Word) :
    windowOf s' sx sy ex ey = windowOf s sx sy ex ey := by
  simp only [Machine.windowOf, h.offsets.1, h.offsets.2]

theorem SameInputs.windowSet {s s' : State} (h : SameInputs s s') (i : Instr) : windowSet s' i = windowSet s i := by
  obtain ⟨-, hw, hh, -⟩ := h.straps
  cases i <;> simp only [Machine.windowSet, h.windowOf, hw, hh]

theorem SameInputs.stepList {s s' : State} (h : SameInputs s s') (i : Instr) : stepList s' i = stepList s i := by
  obtain ⟨hco, hw, -, hparams⟩ := h.straps
  cases i <;> simp only [Machine.stepList, h.windowSet, madctlByte, hco, hw, hparams]

theorem SameInputs.eventsOf {s s' : State} (h : SameInputs s s') (i : Instr) : eventsOf s' i = eventsOf s i := by
  obtain ⟨-, hw, hh, -⟩ := h.straps
  simp only [Machine.eventsOf, h.stepList, hw, hh]

/-- The first event of the list not answered ok is `e`, after `pre`, and this is what becomes of it. -/
structure StopsAt (es : List Event) (s : State) (pre : List Event) (e : Event) (r : Reply) : Prop where
  split : ∃ post, es = pre ++ e :: post
  asks : asked [e] = 1
  before : s.answersOk (asked pre) = true
  reply : s.replyAt (asked pre) = r
  notOk : r ≠ .answered .ok

/-- A stretch that goes past the event a run stops at is not all answered ok. -/
theorem StopsAt.not_answersOk {es pre more : List Event} {s : State} {e : Event} {r : Reply} (h : StopsAt es s pre e r) :
    s.answersOk (asked (pre ++ e :: more)) = false := by
  rw [← Bool.not_eq_true]
  intro hok
  refine h.notOk (h.reply.symm.trans (State.replyAt_of_answersOk hok ?_))
  rw [← List.singleton_append, asked_append, asked_append, h.asks]
  omega

theorem StopsAt.not_all_ok {es pre : List Event} {s : State} {e : Event} {r : Reply} (h : StopsAt es s pre e r) :
    s.answersOk (asked es) ≠ true := by
  obtain ⟨post, rfl⟩ := h.split
  rw [h.not_answersOk]
  exact Bool.false_ne_true

theorem SameInputs.stopsAt {s s' : State} (h : SameInputs s s') {es pre : List Event} {e : Event} {r : Reply}
    (hs : StopsAt es s' pre e r) : StopsAt es s pre e r :=
  ⟨hs.split, hs.asks, by rw [← h.answersOk, hs.before], by rw [← h.replyAt, hs.reply], hs.notOk⟩

theorem Obeys.done_answersOk {es : List Event} {s t : State} (h : Obeys es s (.done t)) :
    s.answersOk (asked es) = true := by
  obtain ⟨-, -, -, hok, -⟩ := h
  exact hok

theorem Obeys.failed_stopsAt {es : List Event} {s t : State} (h : Obeys es s (.failed t)) :
    ∃ pre e, StopsAt es s pre e (.answered .fail) ∧ t.trace = s.trace ++ (allOk pre ++ [(e, .fail)]) ∧
      TookReplies s t (asked pre + 1) ∧ SameOffsets s t := by
  obtain ⟨pre, e, post, hes, htr, -, htook, hok, hreply, ⟨hoff, -⟩, -, -, hasks⟩ := h
  exact ⟨pre, e, ⟨⟨post, hes⟩, hasks, hok, hreply, nofun⟩, by rw [htr, List.append_assoc], htook, hoff⟩

theorem Obeys.hung_stopsAt {es : List Event} {s : State} (h : Obeys es s .hung) :
    ∃ pre e, StopsAt es s pre e .silent := by
  obtain ⟨pre, e, post, hes, hok, hreply, hasks⟩ := h
  exact ⟨pre, e, ⟨post, hes⟩, hasks, hok, hreply, nofun⟩

/-- A run that stops at an event stops at none after it. -/
theorem StopsAt.not_before {es pre more : List Event} {s : State} {e e' : Event} {r r' : Reply} (h : StopsAt es s pre e r)
    (h' : StopsAt es s (pre ++ e :: more) e' r') : False := by
  have hbefore := h'.before
  rw [h.not_answersOk] at hbefore; cases hbefore

/-- The answers alone settle where a run stops (60_exceptions R195). -/
theorem StopsAt.unique {es pre pre' : List Event} {s : State} {e e' : Event} {r r' : Reply} (h : StopsAt es s pre e r)
    (h' : StopsAt es s pre' e' r') : pre = pre' ∧ e = e' ∧ r = r' := by
  obtain ⟨post, hes⟩ := h.split
  obtain ⟨post', hes'⟩ := h'.split
  have hpre : pre = pre' ∧ e = e' := by
    rcases List.append_eq_append_iff.1 (hes.symm.trans hes') with ⟨mid, rfl, hpost⟩ | ⟨mid, rfl, hpost⟩
    · cases mid with
      | nil => exact ⟨by simp, (List.cons.inj hpost).1⟩
      | cons d mid =>
        obtain ⟨rfl, -⟩ := List.cons.inj hpost
        exact (h.not_before h').elim
    · cases mid with
      | nil => exact ⟨by simp, (List.cons.inj hpost).1.symm⟩
      | cons d mid =>
        obtain ⟨rfl, -⟩ := List.cons.inj hpost
        exact (h'.not_before h).elim
  obtain ⟨rfl, rfl⟩ := hpre
  exact ⟨rfl, rfl, h.reply.symm.trans h'.reply⟩

/-- The events recorded since, the answers used up and the offsets are the same on both sides. -/
structure SameEnd (s s' t t' : State) : Prop where
  events : eventsSince s' t' = eventsSince s t
  replies : t'.replies = t.replies
  asks : t'.asks = t.asks
  offsets : SameOffsets t t'

/-- Two runs, from `s` and from `s'`, end the same way. -/
def Run.EndsAlike (s s' : State) : Run → Run → Prop
  | .done t, .done t' => SameEnd s s' t t'
  | .failed t, .failed t' => SameEnd s s' t t'
  | .hung, .hung => True
  | _, _ => False

theorem SameInputs.sameEnd {s s' t t' : State} (h : SameInputs s s') {evs : List (Event × Answer)} {n : Nat}
    (ht : t.trace = s.trace ++ evs) (ht' : t'.trace = s'.trace ++ evs) (hn : TookReplies s t n)
    (hn' : TookReplies s' t' n) (ho : SameOffsets s t) (ho' : SameOffsets s' t') : SameEnd s s' t t' where
  events := by simp [eventsSince, ht, ht']
  replies := by rw [hn'.1, hn.1, h.replies]
  asks := by rw [hn'.2, hn.2, h.asks]
  offsets := ⟨by rw [ho'.1, h.offsets.1, ho.1], by rw [ho'.2, h.offsets.2, ho.2]⟩

/-- Two runs that perform the same step list and are given the same answers end alike. -/
theorem Obeys.endsAlike {es : List Event} {s s' : State} {r r' : Run} (h : SameInputs s s') (hr : Obeys es s r)
    (hr' : Obeys es s' r') : r.EndsAlike s s' r' := by
  cases r with
  | done t =>
    obtain ⟨htr, -, htook, hok, hoff, -⟩ := hr
    cases r' with
    | done t' =>
      obtain ⟨htr', -, htook', -, hoff', -⟩ := hr'
      exact h.sameEnd htr htr' htook htook' hoff hoff'
    | failed t' =>
      obtain ⟨pre, e, hstop, -⟩ := hr'.failed_stopsAt
      exact (h.stopsAt hstop).not_all_ok hok
    | hung =>
      obtain ⟨pre, e, hstop⟩ := hr'.hung_stopsAt
      exact (h.stopsAt hstop).not_all_ok hok
  | failed t =>
    obtain ⟨pre, e, hstop, htr, htook, hoff⟩ := hr.failed_stopsAt
    cases r' with
    | done t' => exact hstop.not_all_ok (by rw [← h.answersOk, hr'.done_answersOk])
    | failed t' =>
      obtain ⟨pre', e', hstop', htr', htook', hoff'⟩ := hr'.failed_stopsAt
      obtain ⟨rfl, rfl, -⟩ := hstop.unique (h.stopsAt hstop')
      exact h.sameEnd htr htr' htook htook' hoff hoff'
    | hung =>
      obtain ⟨pre', e', hstop'⟩ := hr'.hung_stopsAt
      cases (hstop.unique (h.stopsAt hstop')).2.2
  | hung =>
    obtain ⟨pre, e, hstop⟩ := hr.hung_stopsAt
    cases r' with
    | done t' => exact hstop.not_all_ok (by rw [← h.answersOk, hr'.done_answersOk])
    | failed t' =>
      obtain ⟨pre', e', hstop', -⟩ := hr'.failed_stopsAt
      cases (hstop.unique (h.stopsAt hstop')).2.2
    | hung => trivial

/-- Two outcomes, from `s` and from `s'`, are the same for the host: the same response after the same events, the same
fault, or the same refusal. -/
def OutcomesAlike (s s' : State) : Host.Outcome State Fault Refusal → Host.Outcome State Fault Refusal → Prop
  | .next t, .next t' => SameEnd s s' t t' ∧ t'.rsp = t.rsp
  | .fault f, .fault f' => f' = f
  | .refused r, .refused r' => r' = r
  | _, _ => False

theorem OutcomesAlike.next {s s' t : State} {o : Host.Outcome State Fault Refusal} (h : OutcomesAlike s s' (.next t) o) :
    ∃ t', o = .next t' ∧ SameEnd s s' t t' ∧ t'.rsp = t.rsp := by
  cases o with
  | next t' => exact ⟨t', rfl, h⟩
  | fault f => exact h.elim
  | refused r => exact h.elim

theorem OutcomesAlike.fault {s s' : State} {f : Fault} {o : Host.Outcome State Fault Refusal}
    (h : OutcomesAlike s s' (.fault f) o) : o = .fault f := by
  cases o with
  | next t' => exact h.elim
  | fault f' => exact congrArg _ h
  | refused r => exact h.elim

theorem OutcomesAlike.refused {s s' : State} {r : Refusal} {o : Host.Outcome State Fault Refusal}
    (h : OutcomesAlike s s' (.refused r) o) : o = .refused r := by
  cases o with
  | next t' => exact h.elim
  | fault f => exact h.elim
  | refused r' => exact congrArg _ h

theorem Run.EndsAlike.finish {s s' : State} {r r' : Run} (h : r.EndsAlike s s' r') :
    OutcomesAlike s s' (finish r) (finish r') := by
  cases r with
  | done t =>
    cases r' with
    | done t' => exact ⟨⟨h.events, h.replies, h.asks, h.offsets⟩, rfl⟩
    | failed t' => exact h.elim
    | hung => exact h.elim
  | failed t =>
    cases r' with
    | done t' => exact h.elim
    | failed t' => exact ⟨⟨h.events, h.replies, h.asks, h.offsets⟩, rfl⟩
    | hung => exact h.elim
  | hung =>
    cases r' with
    | done t' => exact h.elim
    | failed t' => exact h.elim
    | hung => rfl

/-- An operation with a step list, asked of two states that agree on what it reads. -/
theorem exec_alike_of_events {i : Instr} {s s' : State} {es : List Event} (h : SameInputs s s')
    (hes : eventsOf s i = some es) : OutcomesAlike s s' (exec i s) (exec i s') := by
  have hp := (eventsOf_eq_some.1 hes).1
  by_cases hi : ∃ dx dy, i = .setOffset dx dy
  · obtain ⟨dx, dy, rfl⟩ := hi
    rw [exec_setOffset dx dy hp, exec_setOffset dx dy (h.hasPanel hp)]
    exact ⟨⟨by simp [eventsSince], h.replies, h.asks, rfl, rfl⟩, rfl⟩
  · have hi' : ∀ dx dy, i ≠ .setOffset dx dy := fun dx dy hx => hi ⟨dx, dy, hx⟩
    obtain ⟨sel, body, hr⟩ := exec_isRun hes hi'
    obtain ⟨sel', body', hr'⟩ := exec_isRun (s := s') (by rw [h.eventsOf, hes]) hi'
    rw [hr.eq, hr'.eq, runOp, runOp, onPanel_of_hasPanel hp, onPanel_of_hasPanel (h.hasPanel hp)]
    exact (hr.obeys.endsAlike h hr'.obeys).finish

/-- A refused request is refused for the same reason in a state that agrees on what it reads. -/
theorem exec_refused_alike {i : Instr} {s s' : State} (h : SameInputs s s') (hes : eventsOf s i = none) :
    exec i s' = exec i s := by
  obtain ⟨-, hw, hh, -⟩ := h.straps
  by_cases hz : s.width = 0 ∨ s.height = 0
  · rw [exec_of_zero hz, exec_of_zero (by rwa [hw, hh])]
  have hp : HasPanel s := hasPanel_iff.2 hz
  have hp' := h.hasPanel hp
  have hwin : ∀ {sel sx sy ex ey body body'}, windowOf s sx sy ex ey = none →
      runInWindow sel sx sy ex ey body' s' = runInWindow sel sx sy ex ey body s := fun hno => by
    rw [runInWindow_none hp hno, runInWindow_none hp' (by rw [h.windowOf, hno])]
  rw [eventsOf_of_hasPanel hp] at hes
  cases i
  case setAddressWindow sx sy ex ey => exact hwin (Option.map_eq_none_iff.1 hes)
  case setPixel x y c => exact hwin (Option.map_eq_none_iff.1 hes)
  case setPixels sx sy ex ey cs => exact hwin (Option.map_eq_none_iff.1 hes)
  case setPixelsBuffered sx sy ex ey cs => exact hwin (Option.map_eq_none_iff.1 hes)
  case drawImage bs =>
    dsimp only [exec, execDrawImage]
    rw [hw, hh]
    exact hwin (Option.map_eq_none_iff.1 hes)
  case showRegion bs x y w h' =>
    dsimp only [exec, execShowRegion]
    rw [onPanel_of_hasPanel hp, onPanel_of_hasPanel hp', hw]
    by_cases hshape : regionShapeOk x y w h' = false
    · rw [if_pos hshape, if_pos hshape]
    rw [if_neg hshape, if_neg hshape]
    cases hrows : regionRows s.width bs x y w h' with
    | none => rfl
    | some rows =>
      refine hwin ?_
      dsimp only [stepList, windowSet] at hes
      rw [hrows, if_neg hshape] at hes
      cases hw : windowOf s x y (x + w - 1) (y + h' - 1) with
      | none => rfl
      | some win => rw [hw] at hes; cases hes
  all_goals cases hes

/-- No operation reads more than `SameInputs` speaks of. -/
theorem exec_alike {s s' : State} (h : SameInputs s s') (i : Instr) : OutcomesAlike s s' (exec i s) (exec i s') := by
  cases hes : eventsOf s i with
  | some es => exact exec_alike_of_events h hes
  | none =>
    obtain ⟨r, hr⟩ := exec_refused hes
    rw [exec_refused_alike h hes, hr]
    rfl

/-- Settles O48: the step list is read from the inputs, and the answers settle how it ends. -/
theorem nothingReadsLatchesOrGhosts : Obligations.NothingReadsLatchesOrGhosts := by
  intro i s s' hoff hstraps hreplies hasks
  have h := exec_alike ⟨hoff, hstraps, hreplies, hasks⟩ i
  refine ⟨fun t ht => ?_, fun f hf => ?_, fun r hr => ?_⟩
  · rw [ht] at h
    obtain ⟨t', ht', hend, hrsp⟩ := h.next
    exact ⟨t', ht', hend.events, hrsp, hend.replies, hend.asks, hend.offsets⟩
  · rw [hf] at h
    exact h.fault
  · rw [hr] at h
    exact h.refused

end Sys2Proof.Machine

/-! Proofs of the family `memory`: what an operation that answers Ok leaves in the controller (20_memory R68 to R76). -/

namespace Sys2Proof.Machine

/-! The wire view settles what the controller knows (20_memory R68). -/

/-- The events of every operation but the two resets: whole transactions and select switches (30_encoding R84 to R86). -/
inductive BusTraffic : List Event → Prop
  | nil : BusTraffic []
  | select : BusTraffic selectSwitch
  | command (c : Byte) (ps : List Byte) : BusTraffic (commandTransaction c ps)
  | data (bs : List Byte) : BusTraffic (dataTransaction bs)
  | append {a b : List Event} : BusTraffic a → BusTraffic b → BusTraffic (a ++ b)

theorem dataRuns_busTraffic (rs : List (List Byte)) : BusTraffic (dataRuns rs) := by
  induction rs with
  | nil => exact .nil
  | cons r rs ih => exact .append (.data r) ih

theorem windowEvents_busTraffic (p : Params) (win : Window) : BusTraffic (windowEvents p win) :=
  .append (.command _ _) (.command _ _)

theorem memoryWriteEvents_busTraffic (p : Params) : BusTraffic (memoryWriteEvents p) := .command _ _

/-- The events of an operation that sets a window, issues a memory write and streams. -/
theorem streamEvents_busTraffic (p : Params) (win : Window) {fs : List Event} (h : BusTraffic fs) :
    BusTraffic (windowEvents p win ++ memoryWriteEvents p ++ fs) :=
  .append (.append (windowEvents_busTraffic p win) (memoryWriteEvents_busTraffic p)) h

theorem stepList_busTraffic {i : Instr} {s : State} {es : List Event} (h : stepList s i = some es) (h1 : i ≠ .hardReset)
    (h2 : i ≠ .init) : BusTraffic es := by
  cases i with
  | hardReset => exact absurd rfl h1
  | init => exact absurd rfl h2
  | beginData => cases h; exact .select
  | writeData bs => cases h; exact .data _
  | writeWord w => cases h; exact .data _
  | writeWordsBuffered ws => cases h; exact dataRuns_busTraffic _
  | setOffset dx dy => cases h; exact .nil
  | setAddressWindow sx sy ex ey =>
    obtain ⟨win, -, rfl⟩ := Option.map_eq_some_iff.1 h
    exact windowEvents_busTraffic _ _
  | setPixel x y c =>
    obtain ⟨win, -, rfl⟩ := Option.map_eq_some_iff.1 h
    exact streamEvents_busTraffic _ _ (.data _)
  | writePixels cs => cases h; exact .append (memoryWriteEvents_busTraffic _) (dataRuns_busTraffic _)
  | writePixelsBuffered cs => cases h; exact .append (memoryWriteEvents_busTraffic _) (dataRuns_busTraffic _)
  | setPixels sx sy ex ey cs =>
    obtain ⟨win, -, rfl⟩ := Option.map_eq_some_iff.1 h
    exact streamEvents_busTraffic _ _ (dataRuns_busTraffic _)
  | setPixelsBuffered sx sy ex ey cs =>
    obtain ⟨win, -, rfl⟩ := Option.map_eq_some_iff.1 h
    exact streamEvents_busTraffic _ _ (dataRuns_busTraffic _)
  | drawImage bs =>
    obtain ⟨win, -, rfl⟩ := Option.map_eq_some_iff.1 h
    exact streamEvents_busTraffic _ _ (dataRuns_busTraffic _)
  | showFrame bs =>
    cases h
    exact streamEvents_busTraffic _ _ (.data _)
  | showRegion bs x y w h' =>
    dsimp only [stepList] at h
    split at h
    · cases h; exact streamEvents_busTraffic _ _ (dataRuns_busTraffic _)
    · cases h
  | _ => cases h; exact .command _ _

/-- What one byte of the wire view does to the controller, whatever `ctrl` is (20_memory R68, log 22). -/
def Sink.hearByte (x : Ctrl) (p : Params) (k : Sink) (w : WireByte) : Sink :=
  if x = .initialized then k.hear p w else k.forgetAll

@[simp] theorem Sink.foldl_hearByte_dataOnWire (x : Ctrl) (p : Params) (k : Sink) (bs : List Byte) :
    (dataOnWire bs).foldl (Sink.hearByte x p) k = bs.foldl (Sink.takeData x) k := by
  rw [dataOnWire, List.foldl_map]
  rfl

@[simp] theorem Sink.foldl_hearByte_codeOnWire (x : Ctrl) (p : Params) (k : Sink) (c : Byte) :
    (codeOnWire c).foldl (Sink.hearByte x p) k = k.takeCode x p c := rfl

/-- Hearing whole transactions is hearing their wire view, byte by byte. -/
theorem BusTraffic.hearEvents_eq {es : List Event} (h : BusTraffic es) (x : Ctrl) (p : Params) (l : Lines) (k : Sink) :
    hearEvents x p l k es = (wireView l (allOk es)).foldl (Sink.hearByte x p) k := by
  induction h generalizing l k with
  | nil => rfl
  | select => rfl
  | command c ps => rw [hear_commandTransaction, wireView_commandTransaction, List.foldl_append]; simp
  | data bs => rw [hear_dataTransaction, wireView_dataTransaction]; simp
  | append _ _ iha ihb => rw [hearEvents_append, allOk_append, wireView_append, List.foldl_append, iha, ihb]

/-- The events recorded by an operation that answers Ok are its step list, each answered ok. -/
theorem eventsSince_of_ok {i : Instr} {s t : State} {es : List Event} (h : eventsOf s i = some es)
    (ht : exec i s = .next t) (hok : t.rsp = some .ok) : eventsSince s t = allOk es := by
  rcases setOffset_or_not ht with ⟨dx, dy, rfl, rfl⟩ | hi
  · cases (eventsOf_eq_some.1 h).2
    simp [eventsSince]
  · obtain ⟨-, -, -, -, ⟨-, htr, -⟩ | ⟨hf, -⟩⟩ := exec_next h hi ht
    · simp [eventsSince, htr]
    · rw [hok] at hf; cases hf

/-- Settles O52: a step list is whole transactions, and each is heard as its wire view. -/
theorem controllerHearsTheWireView : Obligations.ControllerHearsTheWireView := by
  intro i s t h1 h2 ht hok
  obtain ⟨es, h⟩ := eventsOf_of_next ht
  have htraffic := stepList_busTraffic (eventsOf_eq_some.1 h).2 h1 h2
  rw [(exec_hears h h1 h2 ht hok).2, wireSince, eventsSince_of_ok h ht hok, htraffic.hearEvents_eq]
  rfl

/-! What each command code and its parameter bytes do to the controller (20_memory R69, R70, R76). -/

/-- The seven issued codes are pairwise distinct, said of the four that have a rule of the sink. -/
theorem Params.wf_sinkCodes {p : Params} (h : p.wf = true) :
    p.codes.raset ≠ p.codes.caset ∧ p.codes.ramwr ≠ p.codes.caset ∧ p.codes.ramwr ≠ p.codes.raset ∧
      p.codes.madctl ≠ p.codes.caset ∧ p.codes.madctl ≠ p.codes.raset ∧ p.codes.madctl ≠ p.codes.ramwr := by
  have hn : (opCodeList p.codes).Nodup := by
    simp only [Params.wf, Bool.and_eq_true, decide_eq_true_eq] at h
    exact h.1
  simp only [opCodeList, List.nodup_cons, List.mem_cons, not_or] at hn
  obtain ⟨⟨h1, h2, h3, -⟩, ⟨h4, h5, -⟩, ⟨h6, -⟩, -⟩ := hn
  exact ⟨Ne.symm h1, Ne.symm h2, Ne.symm h4, Ne.symm h3, Ne.symm h5, Ne.symm h6⟩

theorem hear_caset (p : Params) (l : Lines) (k : Sink) (sp : Span) :
    hearEvents .initialized p l k (commandTransaction p.codes.caset (spanBytes sp)) =
      { k with
        col := if sp.first.toNat ≤ sp.last.toNat then .held sp else .unknown
        cmd := .colParams (spanBytes sp)
        draws := k.draws + 5 } := by
  rw [hear_commandTransaction, ← spanOf_spanBytes]
  simp [Sink.commandByte, spanBytes, be16, Sink.dataByte, Sink.setCol]

theorem hear_raset {p : Params} (hp : p.wf = true) (l : Lines) (k : Sink) (sp : Span) :
    hearEvents .initialized p l k (commandTransaction p.codes.raset (spanBytes sp)) =
      { k with
        row := if sp.first.toNat ≤ sp.last.toNat then .held sp else .unknown
        cmd := .rowParams (spanBytes sp)
        draws := k.draws + 5 } := by
  obtain ⟨hcaset, -⟩ := Params.wf_sinkCodes hp
  rw [hear_commandTransaction, ← spanOf_spanBytes]
  simp [Sink.commandByte, hcaset, spanBytes, be16, Sink.dataByte, Sink.setRow]

theorem hear_memoryWriteEvents {p : Params} (hp : p.wf = true) (l : Lines) (k : Sink) :
    hearEvents .initialized p l k (memoryWriteEvents p) = k.startWrite := by
  obtain ⟨-, hcaset, hraset, -⟩ := Params.wf_sinkCodes hp
  rw [memoryWriteEvents, hear_commandTransaction]
  simp [Sink.commandByte, hcaset, hraset]

theorem hear_madctl {p : Params} (hp : p.wf = true) (l : Lines) (k : Sink) (v : Byte) :
    hearEvents .initialized p l k (commandTransaction p.codes.madctl [v]) =
      { k with access := .held v, cmd := .accessParams [v], mem := [], draws := k.draws + 3 } := by
  obtain ⟨-, -, -, hcaset, hraset, hramwr⟩ := Params.wf_sinkCodes hp
  rw [hear_commandTransaction]
  simp [Sink.commandByte, hcaset, hraset, hramwr, Sink.dataByte, Sink.setAccess, Sink.forgetFrame, accessOf]

/-- What the controller holds after an operation that answers Ok while `ctrl` is Initialized, by its step list. -/
theorem exec_sink {i : Instr} {s t : State} {es : List Event} (hc : s.ctrl = .initialized) (ht : exec i s = .next t)
    (hok : t.rsp = some .ok) (h1 : i ≠ .hardReset) (h2 : i ≠ .init) (hes : stepList s i = some es) :
    t.sink = hearEvents .initialized s.params s.lines s.sink es := by
  rw [(exec_hears (eventsOf_eq_some.2 ⟨hasPanel_of_next ht, hes⟩) h1 h2 ht hok).2, hc]

/-- Settles O53: each window command latches what its four bytes spell. -/
theorem windowCommandsLatch : Obligations.WindowCommandsLatch := by
  refine ⟨?_, ?_, ?_⟩
  · intro sx sy ex ey s t win hc hp hw ht hok
    have hes : stepList s (.setAddressWindow sx sy ex ey) = some (windowEvents s.params win) := by
      simp [stepList, windowSet, hw]
    have hk := exec_sink hc ht hok nofun nofun hes
    rw [hear_windowEvents _ _ _ _ hp] at hk
    simp [SameFrame, hk]
  · intro a b s t hc _ ht hok
    have hk := (exec_sink hc ht hok nofun nofun rfl).trans (hear_caset _ _ _ { first := a, last := b })
    simp [SameFrame, hk]
  · intro a b s t hc hp ht hok
    have hk := (exec_sink hc ht hok nofun nofun rfl).trans (hear_raset hp _ _ { first := a, last := b })
    simp [SameFrame, hk]

/-- Settles O59: the code forgets the frame memory, and its one byte is held. -/
theorem orientationForgetsFrame : Obligations.OrientationForgetsFrame := by
  intro i v s t hc hp hi ht hok
  have hes : stepList s i = some (commandTransaction s.params.codes.madctl [v]) := by
    rcases hi with rfl | ⟨o, rfl, rfl⟩ <;> rfl
  have hno : (∀ dx dy, i ≠ .setOffset dx dy) ∧ i ≠ .hardReset ∧ i ≠ .init := by
    rcases hi with rfl | ⟨o, rfl, -⟩ <;> simp
  obtain ⟨hset, hreset, hinit⟩ := hno
  obtain ⟨hoff, hstraps, -⟩ := exec_next (eventsOf_eq_some.2 ⟨hasPanel_of_next ht, hes⟩) hset ht
  have hk := exec_sink hc ht hok hreset hinit hes
  rw [hear_madctl hp] at hk
  simp [hk, hoff, hstraps]

/-- With a window latched, a memory write starts at its first pixel, and nothing is known of its pixels (log 16). -/
theorem Sink.startWrite_of_window {k : Sink} {win : Window} (h : k.window = some win) :
    k.startWrite = { k.forgetWindow win with cmd := .writing win win.cols.first win.rows.first none } := by
  simp [Sink.startWrite, h]

/-- With no window known, nothing is known of the frame memory, nor of the write position (20_memory R74). -/
theorem Sink.startWrite_of_no_window {k : Sink} (h : k.window = none) :
    k.startWrite = { k.forgetFrame with cmd := .lost } := by
  simp [Sink.startWrite, h]

/-- Settles O54: the command starts the write in the latched window. -/
theorem memoryWriteStartsAtWindow : Obligations.MemoryWriteStartsAtWindow := by
  intro s t win hc hp hw ht hok
  have hk := (exec_sink hc ht hok nofun nofun rfl).trans (hear_memoryWriteEvents hp _ _)
  rw [Sink.startWrite_of_window hw] at hk
  refine ⟨by rw [hk], fun a ha => ?_, fun a ha => ?_, ?_⟩
  · simp [hk, Sink.forgetWindow, Memory.read_forget, ha]
  · simp [hk, Sink.forgetWindow, Memory.read_forget, ha]
  · simp [SameSinkRegisters, hk, Sink.forgetWindow]

/-! Data that goes on with a memory write (20_memory R70, R71, R73, R75). -/

/-- What a word does where the controller stands at a pixel: it lands there, and the position advances (20_memory R70). -/
theorem Sink.dataByte_word {k : Sink} {win : Window} {c r : Word} (h : k.cmd = .writing win c r none) (w : Word) :
    (be16 w).foldl Sink.dataByte k =
      { k.forgetPixel c r with
        mem := (k.forgetPixel c r).mem.writePixel c r (hi8 w) (lo8 w)
        cmd := nextPosition win c r } := by
  simp [be16, Sink.dataByte, h]

/-- However the words are cut into flushes, these are their bytes in order (40_transaction R118). -/
theorem flushRuns_flatten (p : Params) (ws : List Word) : (flushRuns p ws).flatten = ws.flatMap be16 := by
  rw [flushRuns, List.flatten_append, chunks_flatten]
  split <;> simp

/-- The operations that send data only leave in the controller what their bytes leave, however they are cut into runs. -/
theorem exec_dataBytes {i : Instr} {s t : State} {bs : List Byte} (hc : s.ctrl = .initialized)
    (hbs : dataBytes i = some bs) (ht : exec i s = .next t) (hok : t.rsp = some .ok) :
    t.sink = bs.foldl Sink.dataByte s.sink := by
  cases i with
  | writeData bs' => cases hbs; rw [exec_sink hc ht hok nofun nofun rfl]; simp
  | writeWord w => cases hbs; rw [exec_sink hc ht hok nofun nofun rfl]; simp
  | writeWordsBuffered ws =>
    cases hbs
    rw [exec_sink hc ht hok nofun nofun rfl, hear_dataRuns, flushRuns_flatten]
    rfl
  | _ => cases hbs

/-- Settles O55: the word's two bytes write the pixel. -/
theorem writeWordWritesOnePixel : Obligations.WriteWordWritesOnePixel := by
  intro w s t win c r hc hcmd ht hok
  have hk := exec_dataBytes hc rfl ht hok
  rw [Sink.dataByte_word hcmd] at hk
  refine ⟨?_, fun a h1 h2 => ?_, ?_, by rw [hk]; rfl⟩
  · simp [hk, Memory.pixel_writePixel, word16_be16]
  · simp [hk, Sink.forgetPixel, Sink.forgetWindow, Memory.read_forgetPixel, Memory.read_writePixel, h1, h2, h1.symm, h2.symm]
  · simp [SameSinkRegisters, hk, Sink.forgetPixel, Sink.forgetWindow]

/-! Where a memory write stands. -/

/-- The address is one of the two bytes of the window's `n`-th pixel. -/
def Window.HasByteAt (win : Window) (n a : Nat) : Prop :=
  a = pixelAddr (win.colAt n) (win.rowAt n) ∨ a = pixelAddr (win.colAt n) (win.rowAt n) + 1

theorem Window.not_hasByteAt_iff {win : Window} {n a : Nat} :
    ¬ win.HasByteAt n a ↔
      a ≠ pixelAddr (win.colAt n) (win.rowAt n) ∧ a ≠ pixelAddr (win.colAt n) (win.rowAt n) + 1 := not_or

/-- An address belongs to one pixel. -/
theorem Window.hasByteAt_unique {win : Window} (h : win.upright = true) {m n a : Nat} (hm : m < win.count)
    (hn : n < win.count) (ha : win.HasByteAt m a) (ha' : win.HasByteAt n a) : m = n := by
  have haddr : pixelAddr (win.colAt m) (win.rowAt m) = pixelAddr (win.colAt n) (win.rowAt n) := by
    simp only [Window.HasByteAt, pixelAddr] at *
    omega
  obtain ⟨hcol, hrow⟩ := pixelAddr_inj haddr
  exact Window.at_inj h hm hn hcol hrow

/-- What is known of a pixel is what is known of its two bytes. -/
theorem Window.pixel_congr {win : Window} {n : Nat} {m m' : Memory}
    (h : ∀ a, win.HasByteAt n a → m'.read a = m.read a) :
    m'.pixel (win.colAt n) (win.rowAt n) = m.pixel (win.colAt n) (win.rowAt n) := by
  simp only [Memory.pixel, h _ (.inl rfl), h _ (.inr rfl)]

theorem Window.pixel_eq_none {win : Window} {n : Nat} {m : Memory} (h : ∀ a, win.HasByteAt n a → m.read a = none) :
    m.pixel (win.colAt n) (win.rowAt n) = none := by
  simp [Memory.pixel, h _ (.inl rfl)]

/-- The command in progress of a memory write that stands at the window's `n`-th pixel, with that pixel's high byte or
without; after the last pixel the window is full. -/
def SinkCmd.atPixel (win : Window) (n : Nat) (half : Option Byte) : SinkCmd :=
  if n = win.count then .full else .writing win (win.colAt n) (win.rowAt n) half

theorem SinkCmd.atPixel_of_lt {win : Window} {n : Nat} (h : n < win.count) (half : Option Byte) :
    SinkCmd.atPixel win n half = .writing win (win.colAt n) (win.rowAt n) half := if_neg (by omega)

/-! What a stream leaves behind it. -/

/-- From `k` to `k'` the words, and perhaps the odd byte of one more pixel, have gone to the window's pixels from the
`n`-th on (20_memory R70, R75). -/
structure StreamsFrom (win : Window) (n : Nat) (ws : List Word) (odd : List Byte) (k k' : Sink) : Prop where
  pixels : ∀ j (hj : j < ws.length), k'.mem.pixel (win.colAt (n + j)) (win.rowAt (n + j)) = some ws[j]
  oddPixel : odd ≠ [] → ∀ a, win.HasByteAt (n + ws.length) a → k'.mem.read a = none
  elsewhere : ∀ a, (∀ j, j < ws.length + odd.length → ¬ win.HasByteAt (n + j) a) → k'.mem.read a = k.mem.read a
  col : k'.col = k.col
  row : k'.row = k.row
  access : k'.access = k.access
  cmd : k'.cmd = SinkCmd.atPixel win (n + ws.length) odd.head?

/-- A pixel the stream does not reach is as before. -/
theorem StreamsFrom.read_of_not_reached {win : Window} {n q : Nat} {ws : List Word} {odd : List Byte} {k k' : Sink}
    (h : StreamsFrom win n ws odd k k') (hup : win.upright = true) (hlen : n + ws.length + odd.length ≤ win.count)
    (hq : q < win.count) (hout : q < n ∨ n + ws.length + odd.length ≤ q) {a : Nat} (ha : win.HasByteAt q a) :
    k'.mem.read a = k.mem.read a :=
  h.elsewhere a fun j hj ha' => by
    have := Window.hasByteAt_unique hup hq (by omega) ha ha'
    omega

/-- Whole words. -/
theorem streamsFrom_words {win : Window} (hup : win.upright = true) {k : Sink} {n : Nat} {ws : List Word}
    (hlen : n + ws.length ≤ win.count) (hcmd : k.cmd = SinkCmd.atPixel win n none) :
    StreamsFrom win n ws [] k ((ws.flatMap be16).foldl Sink.dataByte k) := by
  have helse := stream_elsewhere hup ws k n hlen hcmd
  obtain ⟨m, hm, hpix, -, -⟩ := stream_pixels hup ws k n hlen hcmd
  rw [hm] at helse ⊢
  exact ⟨hpix, nofun, fun a ha => helse a fun j hj => Window.not_hasByteAt_iff.1 (ha j hj), rfl, rfl, rfl, rfl⟩

/-- One byte more: nothing is known of the pixel it begins (20_memory R75). -/
theorem StreamsFrom.oddByte {win : Window} (hup : win.upright = true) {k k' : Sink} {n : Nat} {ws : List Word}
    (h : StreamsFrom win n ws [] k k') (hlen : n + ws.length < win.count) (b : Byte) :
    StreamsFrom win n ws [b] k (k'.dataByte b) := by
  have hk : k'.dataByte b =
      { k'.forgetPixel (win.colAt (n + ws.length)) (win.rowAt (n + ws.length)) with
        cmd := SinkCmd.atPixel win (n + ws.length) (some b) } := by
    simp [Sink.dataByte, h.cmd, SinkCmd.atPixel_of_lt hlen]
  have hgone : ∀ a, win.HasByteAt (n + ws.length) a → (k'.dataByte b).mem.read a = none := fun a ha => by
    rw [hk]
    exact (Memory.read_forgetPixel _ _ _ a).trans (if_pos ha)
  have hkept : ∀ a, ¬ win.HasByteAt (n + ws.length) a → (k'.dataByte b).mem.read a = k'.mem.read a := fun a ha => by
    rw [hk]
    exact (Memory.read_forgetPixel _ _ _ a).trans (if_neg ha)
  refine ⟨fun j hj => ?_, fun _ => hgone, fun a ha => ?_, ?_, ?_, ?_, ?_⟩
  · rw [← h.pixels j hj]
    refine Window.pixel_congr fun a ha => hkept a fun ha' => ?_
    have := Window.hasByteAt_unique hup (by omega) hlen ha ha'
    omega
  · rw [hkept a (ha _ (by simp))]
    exact h.elsewhere a fun j hj => ha j (Nat.lt_succ_of_lt hj)
  · rw [hk]; exact h.col
  · rw [hk]; exact h.row
  · rw [hk]; exact h.access
  · rw [hk]; rfl

/-- A stream that begins at a pixel without its high byte. -/
theorem streamsFrom_bytes {win : Window} (hup : win.upright = true) {k : Sink} {n : Nat} {ws : List Word}
    {odd : List Byte} (hodd : odd.length ≤ 1) (hlen : n + ws.length + odd.length ≤ win.count)
    (hcmd : k.cmd = SinkCmd.atPixel win n none) :
    StreamsFrom win n ws odd k ((ws.flatMap be16 ++ odd).foldl Sink.dataByte k) := by
  have hwords := streamsFrom_words hup (ws := ws) (by omega) hcmd
  match odd with
  | [] => rwa [List.append_nil]
  | [b] =>
    rw [List.foldl_append]
    exact hwords.oddByte hup hlen b
  | _ :: _ :: _ => simp at hodd

/-- A stream after the byte that completes the pixel it began at. -/
theorem StreamsFrom.afterHalf {win : Window} (hup : win.upright = true) {k k' : Sink} {n : Nat} {w : Word}
    {ws : List Word} {odd : List Byte} (hlen : n + 1 + ws.length + odd.length ≤ win.count)
    (hcmd : k.cmd = .writing win (win.colAt n) (win.rowAt n) (some (hi8 w)))
    (h : StreamsFrom win (n + 1) ws odd (k.dataByte (lo8 w)) k') : StreamsFrom win n (w :: ws) odd k k' := by
  have hn : n < win.count := by omega
  have hk := Sink.dataByte_half hup hn (lo8 w) hcmd
  have hmem : (k.dataByte (lo8 w)).mem = k.mem.writePixel (win.colAt n) (win.rowAt n) (hi8 w) (lo8 w) := by rw [hk]
  have hidx : ∀ j, n + (j + 1) = n + 1 + j := by omega
  refine ⟨fun j hj => ?_, fun ho a ha => ?_, fun a ha => ?_, ?_, ?_, ?_, ?_⟩
  · cases j with
    | zero =>
      rw [Nat.add_zero, Window.pixel_congr fun a ha => h.read_of_not_reached hup hlen hn (.inl (by omega)) ha, hmem,
        Memory.pixel_writePixel, word16_be16]
      simp
    | succ j =>
      rw [hidx]
      exact h.pixels j (by simpa using hj)
  · rw [List.length_cons, hidx] at ha
    exact h.oddPixel ho a ha
  · obtain ⟨h1, h2⟩ := Window.not_hasByteAt_iff.1 (show ¬ win.HasByteAt n a from ha 0 (by simp))
    rw [h.elsewhere a fun j hj => by rw [← hidx]; exact ha (j + 1) (by simp; omega), hmem, Memory.read_writePixel,
      if_neg (Ne.symm h2), if_neg (Ne.symm h1)]
  · rw [h.col, hk]
  · rw [h.row, hk]
  · rw [h.access, hk]
  · rw [h.cmd, List.length_cons, hidx ws.length]

/-- DATA GOES ON with a memory write that stands at the window's `n`-th pixel, with that pixel's high byte already sent or
not, and with no more bytes than the window holds (20_memory R70, R71, R75). -/
theorem streamsFrom_continued {win : Window} (hup : win.upright = true) {k : Sink} {n : Nat} (hn : n < win.count)
    {half : Option Byte} (hcmd : k.cmd = .writing win (win.colAt n) (win.rowAt n) half) {bs odd : List Byte}
    {ws : List Word} (hbytes : half.toList ++ bs = ws.flatMap be16 ++ odd) (hodd : odd.length ≤ 1)
    (hlen : n + ws.length + odd.length ≤ win.count) (hne : bs ≠ []) :
    StreamsFrom win n ws odd k (bs.foldl Sink.dataByte k) := by
  cases half with
  | none =>
    obtain rfl : bs = ws.flatMap be16 ++ odd := hbytes
    exact streamsFrom_bytes hup hodd hlen (by rw [hcmd, SinkCmd.atPixel_of_lt hn])
  | some x =>
    obtain ⟨b, bs, rfl⟩ := List.exists_cons_of_ne_nil hne
    cases ws with
    | nil =>
      obtain rfl : x :: b :: bs = odd := hbytes
      simp at hodd
    | cons w ws =>
      obtain ⟨rfl, rfl, rfl⟩ : x = hi8 w ∧ b = lo8 w ∧ bs = ws.flatMap be16 ++ odd := by simpa [be16] using hbytes
      rw [List.length_cons] at hlen
      refine .afterHalf hup (by omega) hcmd (streamsFrom_bytes hup hodd (by omega) ?_)
      rw [Sink.dataByte_half hup hn _ hcmd]
      rfl

/-! More bytes than the window holds (20_memory R73). -/

theorem be16_word16 (h l : Byte) : be16 (word16 h l) = [h, l] := by rw [be16, hi8_word16, lo8_word16]

/-- More than `2 * m` bytes are `m` words and something more. -/
theorem exists_words_and_more {bs : List Byte} {m : Nat} (h : 2 * m < bs.length) :
    ∃ (ws : List Word) (c : Byte) (rest : List Byte), ws.length = m ∧ bs = ws.flatMap be16 ++ c :: rest := by
  induction m generalizing bs with
  | zero =>
    obtain ⟨c, rest, rfl⟩ := List.exists_cons_of_ne_nil (List.length_pos_iff.1 h)
    exact ⟨[], c, rest, rfl, rfl⟩
  | succ m ih =>
    match bs with
    | [] => simp at h
    | [_] => simp at h
    | a :: b :: bs =>
      obtain ⟨ws, c, rest, rfl, rfl⟩ := ih (bs := bs) (by simp at h; omega)
      exact ⟨word16 a b :: ws, c, rest, rfl, by simp [be16_word16]⟩

/-- A byte more than the window holds leaves nothing known of the frame memory, and the registers as they are. -/
theorem Sink.overrun_of_writing {win : Window} (hup : win.upright = true) {k : Sink} {n : Nat} (hn : n < win.count)
    {half : Option Byte} (hcmd : k.cmd = .writing win (win.colAt n) (win.rowAt n) half) {bs : List Byte}
    (hlen : 2 * (win.count - n) < half.toList.length + bs.length) :
    ∃ d, bs.foldl Sink.dataByte k = { k with mem := [], draws := d, cmd := .lost } := by
  obtain ⟨ws, c, rest, hws, hsplit⟩ := exists_words_and_more (bs := half.toList ++ bs) (by simpa using hlen)
  have hhalf : half.toList.length ≤ 1 := by cases half <;> simp
  obtain ⟨front, hfront, rfl⟩ : ∃ front, half.toList ++ front = ws.flatMap be16 ∧ bs = front ++ c :: rest := by
    rcases List.append_eq_append_iff.1 hsplit with ⟨front, hfront, rfl⟩ | ⟨more, hmore, -⟩
    · exact ⟨front, hfront.symm, rfl⟩
    · have := congrArg List.length hmore
      rw [List.length_append, flatMap_be16_length] at this
      omega
  have hne : front ≠ [] := by
    rintro rfl
    have := congrArg List.length hfront
    rw [List.append_nil, flatMap_be16_length] at this
    omega
  have h := streamsFrom_continued hup hn hcmd (odd := []) (by rw [hfront, List.append_nil]) (by simp)
    (by simp; omega) hne
  have hfull : (front.foldl Sink.dataByte k).cmd = .full := by
    rw [h.cmd, SinkCmd.atPixel, if_pos (by omega)]
  obtain ⟨d, hd⟩ := Sink.overrun (.inl hfull) c rest
  exact ⟨d, by rw [List.foldl_append, hd, h.col, h.row, h.access]⟩

/-- Settles O56: the bytes fill the window from where the write stands, overrun it, or leave nothing known. -/
theorem dataContinuesMemoryWrite : Obligations.DataContinuesMemoryWrite := by
  intro i s t bs hc hbs ht hok
  have hk := exec_dataBytes hc hbs ht hok
  refine ⟨?_, ?_, ?_⟩
  · intro win n half ws odd hup hn hcmd hbytes hodd hlen
    by_cases hne : bs = []
    · subst hne
      replace hk : t.sink = s.sink := hk
      have hhalf : half.toList.length ≤ 1 := by cases half <;> simp
      have hws : ws = [] := by
        have := congrArg List.length hbytes
        rw [List.append_nil, List.length_append, flatMap_be16_length] at this
        exact List.eq_nil_of_length_eq_zero (by omega)
      subst hws
      obtain rfl : half.toList = odd := by simpa using hbytes
      have hnot : n ≠ win.count := by omega
      simp [hk, SameSinkRegisters, hcmd, hnot]
    · have h := streamsFrom_continued hup hn hcmd hbytes hodd hlen hne
      rw [← hk] at h
      exact ⟨h.pixels, fun ho _ => h.oddPixel ho, fun a ha => h.elsewhere a fun j hj =>
        Window.not_hasByteAt_iff.2 (ha j hj), ⟨h.col, h.row, h.access⟩, h.cmd⟩
  · intro hcase
    have hlost : ∃ d, bs.foldl Sink.dataByte s.sink = { s.sink with mem := [], draws := d, cmd := .lost } := by
      rcases hcase with ⟨win, n, half, hup, hn, hcmd, hlen⟩ | ⟨hcmd, hne⟩
      · exact Sink.overrun_of_writing hup hn hcmd hlen
      · obtain ⟨b, bs, rfl⟩ := List.exists_cons_of_ne_nil hne
        exact Sink.overrun hcmd b bs
    obtain ⟨d, hd⟩ := hlost
    simp [hk, hd, SameSinkRegisters]
  · intro hcmd hne
    obtain ⟨b, bs, rfl⟩ := List.exists_cons_of_ne_nil hne
    rw [hk]
    exact Sink.unknown_data hcmd b bs

/-! The operations that issue their own memory write. -/

theorem Sink.window_congr {k k' : Sink} (hcol : k'.col = k.col) (hrow : k'.row = k.row) : k'.window = k.window := by
  simp only [Sink.window, hcol, hrow]

/-- The window commands latch a window that is not inverted, and leave an inverted one not known (20_memory R69, R74). -/
theorem window_hear_windowEvents {p : Params} (hp : p.wf = true) (l : Lines) (k : Sink) (win : Window) :
    (hearEvents .initialized p l k (windowEvents p win)).window = if win.upright = true then some win else none := by
  rw [hear_windowEvents _ _ _ _ hp]
  simp only [Sink.window, win.upright_iff]
  by_cases h1 : win.cols.first.toNat ≤ win.cols.last.toNat
  · by_cases h2 : win.rows.first.toNat ≤ win.rows.last.toNat <;> simp [h1, h2]
  · simp [h1]

/-- The step list of an operation that streams: the window commands where it sets one, its memory write, and data
transactions that carry what it streams (42_streaming R165). -/
theorem stepList_streamed {i : Instr} {s : State} {es : List Event} {bs : List Byte} (h : stepList s i = some es)
    (hs : streamed s i = some bs) :
    ∃ runs : List (List Byte), runs.flatten = bs ∧
      ((∃ win, windowSet s i = some win ∧ windowWritten s i = some win ∧
          es = windowEvents s.params win ++ memoryWriteEvents s.params ++ dataRuns runs) ∨
        (windowSet s i = none ∧ windowWritten s i = s.sink.window ∧
          es = memoryWriteEvents s.params ++ dataRuns runs)) := by
  have hone : ∀ run : List Byte, dataTransaction run = dataRuns [run] := fun run => by simp [dataRuns]
  cases i with
  | setPixel x y c =>
    obtain ⟨win, hw, rfl⟩ := Option.map_eq_some_iff.1 h
    cases hs
    exact ⟨[be16 c], by simp, .inl ⟨win, hw, hw, by rw [hone]⟩⟩
  | writePixels cs =>
    cases h; cases hs
    exact ⟨cs.map be16, List.flatMap_def.symm, .inr ⟨rfl, rfl, rfl⟩⟩
  | writePixelsBuffered cs =>
    cases h; cases hs
    exact ⟨_, flushRuns_flatten _ cs, .inr ⟨rfl, rfl, rfl⟩⟩
  | setPixels sx sy ex ey cs =>
    obtain ⟨win, hw, rfl⟩ := Option.map_eq_some_iff.1 h
    cases hs
    exact ⟨cs.map be16, List.flatMap_def.symm, .inl ⟨win, hw, hw, rfl⟩⟩
  | setPixelsBuffered sx sy ex ey cs =>
    obtain ⟨win, hw, rfl⟩ := Option.map_eq_some_iff.1 h
    cases hs
    exact ⟨_, flushRuns_flatten _ cs, .inl ⟨win, hw, hw, rfl⟩⟩
  | drawImage bytes =>
    obtain ⟨win, hw, rfl⟩ := Option.map_eq_some_iff.1 h
    cases hs
    exact ⟨_, chunks_flatten bs, .inl ⟨win, hw, hw, rfl⟩⟩
  | showFrame buffer =>
    cases h; cases hs
    exact ⟨[bs], by simp, .inl ⟨_, rfl, rfl, by rw [hone]⟩⟩
  | showRegion buffer x y w h' =>
    obtain ⟨rows, hrows, rfl⟩ := Option.map_eq_some_iff.1 hs
    simp only [stepList, hrows] at h
    cases hw : windowSet s (.showRegion buffer x y w h') with
    | none => rw [hw] at h; cases h
    | some win =>
      rw [hw] at h
      cases h
      refine ⟨rows.flatMap chunks, ?_, .inl ⟨win, rfl, hw, rfl⟩⟩
      simp [List.flatMap_def, List.flatten_flatten, Function.comp_def, chunks_flatten]
  | _ => cases hs

/-- The controller as an operation that streams finds it when it issues its memory write: the window it writes to is
latched if it is not inverted (20_memory R69, R74, 42_streaming R153). -/
structure ReadyToWrite (s : State) (i : Instr) (k : Sink) : Prop where
  mem : k.mem = s.sink.mem
  access : k.access = s.sink.access
  known : ∀ win, windowWritten s i = some win → win.upright = true → k.window = some win
  notKnown : ((∃ win, windowSet s i = some win ∧ win.upright = false) ∨ windowWritten s i = none) → k.window = none

/-- What an operation that streams leaves in the controller: a memory write, and then its bytes. -/
theorem exec_streamed {i : Instr} {s t : State} {bs : List Byte} (hc : s.ctrl = .initialized) (hp : s.params.wf = true)
    (hs : streamed s i = some bs) (ht : exec i s = .next t) (hok : t.rsp = some .ok) :
    ∃ k, ReadyToWrite s i k ∧ t.sink = bs.foldl Sink.dataByte k.startWrite := by
  obtain ⟨es, h⟩ := eventsOf_of_next ht
  have hes := (eventsOf_eq_some.1 h).2
  have hk := exec_sink hc ht hok (by rintro rfl; cases hs) (by rintro rfl; cases hs) hes
  obtain ⟨runs, rfl, ⟨win, hset, hwritten, rfl⟩ | ⟨hset, hwritten, rfl⟩⟩ := stepList_streamed hes hs
  · rw [hearEvents_append, hearEvents_append, hear_dataRuns, hear_memoryWriteEvents hp] at hk
    have hwindow := window_hear_windowEvents hp s.lines s.sink win
    refine ⟨_, ⟨?_, ?_, fun win' hw' hup => ?_, fun hno => ?_⟩, hk⟩
    · rw [hear_windowEvents _ _ _ _ hp]
    · rw [hear_windowEvents _ _ _ _ hp]
    · obtain rfl : win = win' := Option.some.inj (hwritten.symm.trans hw')
      rw [hwindow, if_pos hup]
    · have hup : win.upright = false := by simpa [hset, hwritten] using hno
      rw [hwindow, hup]
      rfl
  · rw [hearEvents_append, hear_dataRuns, hear_memoryWriteEvents hp] at hk
    refine ⟨s.sink, ⟨rfl, rfl, fun win hw _ => by rw [← hwritten, hw], fun hno => ?_⟩, hk⟩
    rw [hset, hwritten] at hno
    simpa using hno

/-- Settles O57: the memory write forgets the window's pixels, and the stream then fills them from the first on. -/
theorem streamFillsWindowRowMajor : Obligations.StreamFillsWindowRowMajor := by
  intro i s t win ws odd hc hp hw hup hs hodd hlen ht hok
  obtain ⟨k, hready, hk⟩ := exec_streamed hc hp hs ht hok
  have hwin := hready.known win hw hup
  have hstart := Sink.startWrite_of_window hwin
  have hread : ∀ a, k.startWrite.mem.read a = if inWindow win a then none else s.sink.mem.read a := fun a => by
    rw [hstart, ← hready.mem]
    exact Memory.read_forget _ _ _
  have h : StreamsFrom win 0 ws odd k.startWrite t.sink := by
    rw [hk]
    refine streamsFrom_bytes hup hodd (by omega) ?_
    rw [hstart, SinkCmd.atPixel_of_lt win.count_pos, win.colAt_zero, win.rowAt_zero]
  refine ⟨fun j hj => by simpa using h.pixels j hj, fun j hj hj' => Window.pixel_eq_none fun a ha => ?_, fun a ha => ?_,
    ?_, ?_⟩
  · by_cases hreach : j < ws.length + odd.length
    · have hne : odd ≠ [] := by rintro rfl; simp at hreach; omega
      obtain rfl : j = ws.length := by omega
      exact h.oddPixel hne a (by rwa [Nat.zero_add])
    · rw [h.read_of_not_reached hup (by omega) hj' (.inr (by omega)) ha, hread, if_pos (Window.at_inWindow hup hj' ha)]
  · rw [h.elsewhere a fun j hj ha' => ?_, hread, ha]
    · rfl
    · rw [Window.at_inWindow hup (by omega) ha'] at ha
      cases ha
  · rw [Sink.window_congr (h.col.trans _) (h.row.trans _), hwin] <;> rw [hstart] <;> rfl
  · rw [h.access, ← hready.access, hstart]
    rfl

/-- Settles O58: the stream runs over the window, or the memory write has none to begin in. -/
theorem badStreamLosesFrame : Obligations.BadStreamLosesFrame := by
  intro i s t bs hc hp hs ht hok hbad a
  obtain ⟨k, hready, hk⟩ := exec_streamed hc hp hs ht hok
  have hmem : t.sink.mem = [] := by
    rcases hbad with ⟨win, hw, hup, hlen⟩ | hno
    · have hcmd : k.startWrite.cmd = .writing win (win.colAt 0) (win.rowAt 0) none := by
        rw [Sink.startWrite_of_window (hready.known win hw hup), win.colAt_zero, win.rowAt_zero]
      obtain ⟨d, hd⟩ := Sink.overrun_of_writing hup win.count_pos hcmd (bs := bs) (by simpa using hlen)
      rw [hk, hd]
    · have hstart := Sink.startWrite_of_no_window (hready.notKnown hno)
      cases bs with
      | nil => rw [hk, hstart]; rfl
      | cons b bs =>
        obtain ⟨d, hd⟩ := Sink.overrun (k := k.startWrite) (.inr (by rw [hstart])) b bs
        rw [hk, hd]
  rw [hmem, Memory.read_nil]

end Sys2Proof.Machine

/-! Proofs of the family `encoding`: the decoder and the encoder, and what the operations put on the wire. -/

namespace Sys2Proof

open Machine

/-! The decoder of requests reads the encoder's fields and nothing else (30_encoding R82, R83). -/

/-- Fields that decode are the ones the encoder writes. Arm `h_n` of the decoder is that of selector n - 1. -/
theorem encode_of_decodeOperands (p : Params) {sel : Nat} {fields : List (List Byte)} {i : Instr}
    (h : decodeOperands sel fields = some i) : encode p i = .request (BitVec.ofNat 8 sel) fields := by
  unfold decodeOperands at h
  split at h
  case h_19 => cases h
  case h_2 | h_3 | h_9 | h_10 | h_16 | h_17 => cases h; rfl
  case h_6 =>
    split at h
    next h1 h2 => cases h; rw [asU16_iff.1 h1, asU16_iff.1 h2]; rfl
    next => cases h
  case h_11 =>
    split at h
    next h1 h2 h3 => cases h; rw [asU16_iff.1 h1, asU16_iff.1 h2, asU16_iff.1 h3]; rfl
    next => cases h
  case h_14 | h_15 =>
    split at h
    next h1 h2 =>
      obtain ⟨rfl, rfl, rfl, rfl⟩ := asWindow_iff.1 h1
      cases h; rw [asU16List_iff.1 h2]; rfl
    next => cases h
  all_goals
    simp only [Option.map_eq_some_iff, asU8_iff, asU16_iff, asU16List_iff, asOrientation_iff, asWindow_iff] at h
  case h_7 | h_18 => obtain ⟨q, ⟨rfl, rfl, rfl, rfl⟩, rfl⟩ := h; rfl
  all_goals obtain ⟨x, rfl, rfl⟩ := h; rfl

theorem decodeRequest_ok_iff {sel : Byte} {fields : List (List Byte)} {i : Instr} :
    decodeRequest sel fields = .ok i ↔ sel.toNat < 0x12 ∧ decodeOperands sel.toNat fields = some i := by
  unfold decodeRequest
  by_cases hsel : 0x12 ≤ sel.toNat
  · simp [hsel]
  · rw [if_neg hsel]
    cases decodeOperands sel.toNat fields <;> simp [Nat.lt_of_not_le hsel]

/-- With one of the 18 selectors, fields that are no operands are refused as such. -/
theorem decodeRequest_badOperands {sel : Byte} {fields : List (List Byte)} (hsel : sel.toNat < 0x12)
    (h : decodeOperands sel.toNat fields = none) : decodeRequest sel fields = .error (.badOperands sel) := by
  rw [decodeRequest, if_neg (Nat.not_le.2 hsel), h]

theorem encode_of_decodeRequest (p : Params) {sel : Byte} {fields : List (List Byte)} {i : Instr}
    (h : decodeRequest sel fields = .ok i) : encode p i = .request sel fields := by
  obtain ⟨-, hop⟩ := decodeRequest_ok_iff.1 h
  simpa using encode_of_decodeOperands p hop

/-! The decoder of commands reads the rows of R90 and R92 (30_encoding, log 13). -/

/-- A command-code row is encoded as its code with its parameter bytes. -/
theorem encode_of_commandRow {p : Params} {i : Instr} {code : Byte} {ps : List Byte}
    (h : commandRow p i = some (code, ps)) : encode p i = .command code ps := by
  cases i <;> cases h <;> rfl

theorem bareCommand_ok_iff {i j : Instr} {code : Byte} {ps : List Byte} :
    bareCommand j code ps = .ok i ↔ ps = [] ∧ j = i := by
  unfold bareCommand
  by_cases h : ps = [] <;> simp [h]

/-- A code that decodes is the code of its row; the tests are taken in the order in which the decoder makes them. -/
theorem commandRow_of_decodeCommand {p : Params} {code : Byte} {ps : List Byte} {i : Instr}
    (h : decodeCommand p code ps = .ok i) : commandRow p i = some (code, ps) := by
  rw [decodeCommand] at h
  repeat' (rw [ite_eq_iff] at h; obtain ⟨rfl, h⟩ | ⟨-, h⟩ := h)
  -- a row with any parameters, then a row with none
  any_goals (cases h; rfl)
  any_goals (obtain ⟨rfl, rfl⟩ := bareCommand_ok_iff.1 h; rfl)
  -- the window commands, then memory-access-control, then a code that is in no row
  case inl | inr.inl =>
    cases hq : asSpan ps with
    | some q => rw [hq] at h; cases h; rw [asSpan_iff.1 hq]; rfl
    | none => rw [hq] at h; cases h
  · cases hb : asU8 ps with
    | some b => rw [hb] at h; cases h; rw [asU8_iff.1 hb]; rfl
    | none => rw [hb] at h; cases h
  · cases h

/-- The fourteen codes apart: no later code of the list is an earlier one (log 13). -/
theorem Params.codesApart_pairwise {p : Params} (h : p.codesApart = true) :
    (opCodeList p.codes ++ readCodeList p.reads).Pairwise fun a b => b ≠ a :=
  (of_decide_eq_true h).imp Ne.symm

/-- With the codes apart, the decoder reads each row's code and parameters back as that row. -/
theorem decodeCommand_of_commandRow {p : Params} (hp : p.codesApart = true) {i : Instr} {code : Byte} {ps : List Byte}
    (h : commandRow p i = some (code, ps)) : decodeCommand p code ps = .ok i := by
  have hne := Params.codesApart_pairwise hp
  simp only [opCodeList, readCodeList, List.cons_append, List.nil_append, List.pairwise_cons, List.forall_mem_cons] at hne
  cases i <;> cases h <;> simp [decodeCommand, bareCommand, asSpan_be16, asU8, hne]

/-- A request's fields are read back as the request: the family `Laws.Encoded` says so of each selector. -/
theorem decodeRequest_of_encode {p : Params} {i : Instr} {sel : Byte} {fields : List (List Byte)}
    (h : encode p i = .request sel fields) : decodeRequest sel fields = .ok i := by
  have hs : Laws.Encoded.Statement i := by
    cases i with
    | writeCommand op ps => exact Laws.Encoded.writeCommand op ps
    | beginData => exact Laws.Encoded.beginData
    | writeData bs => exact Laws.Encoded.writeData bs
    | writeWord w => exact Laws.Encoded.writeWord w
    | writeWordsBuffered ws => exact Laws.Encoded.writeWordsBuffered ws
    | setOffset dx dy => exact Laws.Encoded.setOffset dx dy
    | setAddressWindow sx sy ex ey => exact Laws.Encoded.setAddressWindow sx sy ex ey
    | setOrientation o => exact Laws.Encoded.setOrientation o
    | hardReset => exact Laws.Encoded.hardReset
    | init => exact Laws.Encoded.init
    | setPixel x y c => exact Laws.Encoded.setPixel x y c
    | writePixels cs => exact Laws.Encoded.writePixels cs
    | writePixelsBuffered cs => exact Laws.Encoded.writePixelsBuffered cs
    | setPixels sx sy ex ey cs => exact Laws.Encoded.setPixels sx sy ex ey cs
    | setPixelsBuffered sx sy ex ey cs => exact Laws.Encoded.setPixelsBuffered sx sy ex ey cs
    | drawImage bs => exact Laws.Encoded.drawImage bs
    | showFrame bs => exact Laws.Encoded.showFrame bs
    | showRegion bs x y w h' => exact Laws.Encoded.showRegion bs x y w h'
    | _ => cases h
  obtain ⟨sel', fields', he, -, hd⟩ | ⟨code, ps, he, -⟩ := hs p
  · cases h.symm.trans he; exact hd
  · cases h.symm.trans he

/-- An operation is encoded as a request, or it is a command-code row. -/
theorem encode_request_or_row (p : Params) (i : Instr) :
    (∃ sel fields, encode p i = .request sel fields) ∨ ∃ code ps, commandRow p i = some (code, ps) := by
  cases hrow : commandRow p i with
  | some q => exact .inr ⟨q.1, q.2, rfl⟩
  | none =>
    refine .inl ?_
    cases i
    case caset | raset | ramwr | madctl | colmod | slpout | dispon => cases hrow
    case rddid | rddst | ramrd | rdid1 | rdid2 | rdid3 | rdid4 => cases hrow
    all_goals exact ⟨_, _, rfl⟩

/-- Settles O1: a request by its selector's fields, a command-code row by its code. -/
theorem decodeReadsBackEncode : Obligations.DecodeReadsBackEncode := by
  intro p i hp
  obtain ⟨sel, fields, he⟩ | ⟨code, ps, hrow⟩ := encode_request_or_row p i
  · rw [he]
    exact decodeRequest_of_encode he
  · rw [encode_of_commandRow hrow]
    exact decodeCommand_of_commandRow hp hrow

/-- Whatever decodes is what the encoder writes for the operation it decodes to. -/
theorem encode_of_decode {p : Params} {r : RawRequest} {i : Instr} (h : decode p r = .ok i) : encode p i = r := by
  cases r with
  | request sel fields => exact encode_of_decodeRequest p h
  | command code ps => exact encode_of_commandRow (commandRow_of_decodeCommand h)

/-- Settles O2: fields that decode are an encoding, so fields that are none are refused. -/
theorem unknownAndIllTypedRequestsRefused : Obligations.UnknownAndIllTypedRequestsRefused := by
  refine ⟨fun p sel fields hsel => if_pos hsel, fun p sel fields hsel hnone => ?_, fun p r i => encode_of_decode⟩
  cases hop : decodeOperands sel.toNat fields with
  | none => exact decodeRequest_badOperands hsel hop
  | some i => exact absurd ⟨i, encode_of_decodeRequest p (decodeRequest_ok_iff.2 ⟨hsel, hop⟩)⟩ hnone

/-- Settles O3: the decoder runs on each word. -/
theorem tableWordsDecode : Obligations.TableWordsDecode :=
  ⟨rfl, rfl, rfl, rfl, rfl, rfl, rfl, rfl, rfl, rfl⟩

end Sys2Proof

namespace Sys2Proof.Machine

/-! Chunks (30_encoding R99). -/

theorem length_flatten_of_full {fulls : List (List Byte)} (h : ∀ f ∈ fulls, f.length = 32) :
    fulls.flatten.length = 32 * fulls.length := by
  rw [List.length_flatten, List.map_congr_left h, List.map_const', List.sum_replicate_nat, Nat.mul_comm]

/-- Settles O35: a byte run is runs of 32 bytes and a shorter remainder, and those are its chunks. -/
theorem chunksCutInto32 : Obligations.ChunksCutInto32 := by
  intro bs
  refine ⟨chunks_flatten bs, ?_⟩
  obtain ⟨fulls, rem, rfl, hf, hr⟩ := exists_full_split bs
  have hlen : (fulls.flatten ++ rem).length = 32 * fulls.length + rem.length := by
    rw [List.length_append, length_flatten_of_full hf]
  have hdiv : (fulls.flatten ++ rem).length / 32 = fulls.length := by omega
  have hmod : (fulls.flatten ++ rem).length % 32 = rem.length := by omega
  rw [chunks_of_split hf hr, List.map_append, List.map_congr_left hf, List.map_const', hdiv, hmod]
  by_cases h : rem = [] <;> simp [h]

/-! What an operation does when every event is answered ok. -/

/-- The operation has answered Ok after these events; the lines and the controller are what they leave, and the registers,
the straps and `ctrl` are as before. -/
structure Performs (s t : State) (es : List Event) : Prop where
  completed : Completed s t es
  lines : t.lines = s.lines.replay (allOk es)
  offsets : SameOffsets s t
  straps : SameStraps s t
  ctrl : t.ctrl = s.ctrl
  sink : t.sink = hearEvents s.ctrl s.params s.lines s.sink es

/-- The operation writes no register of the block and does not reset the controller. -/
def onlySends : Instr → Bool
  | .setOffset _ _ => false
  | .hardReset => false
  | .init => false
  | _ => true

theorem exec_performs {i : Instr} {s : State} {es : List Event} (hp : HasPanel s) (hes : stepList s i = some es)
    (hi : onlySends i = true) (hok : s.answersOk (asked es) = true) : ∃ t, exec i s = .next t ∧ Performs s t es := by
  have h := eventsOf_eq_some.2 ⟨hp, hes⟩
  have hset : ∀ dx dy, i ≠ .setOffset dx dy := by rintro dx dy rfl; cases hi
  have hreset : i ≠ .hardReset := by rintro rfl; cases hi
  have hinit : i ≠ .init := by rintro rfl; cases hi
  obtain ⟨t, ht, hcomp, hlines, hoff, hstraps⟩ := exec_completes h hset hok
  obtain ⟨hctrl, hsink⟩ := exec_hears h hreset hinit ht hcomp.1
  exact ⟨t, ht, hcomp, hlines, hoff, hstraps, hctrl, hsink⟩

/-- The same of an operation with this step list that does not use the staging buffer, which then stays (10_state R30). -/
theorem exec_performs_sameStage {i : Instr} {s : State} {es : List Event} (hp : HasPanel s) (hes : stepList s i = some es)
    (hi : onlySends i = true) (h1 : ∀ ws, i ≠ .writeWordsBuffered ws) (h2 : ∀ cs, i ≠ .writePixelsBuffered cs)
    (h3 : ∀ sx sy ex ey cs, i ≠ .setPixelsBuffered sx sy ex ey cs) (hok : s.answersOk (asked es) = true) :
    ∃ t, exec i s = .next t ∧ Performs s t es ∧ SameStage s t := by
  obtain ⟨t, ht, hperf⟩ := exec_performs hp hes hi hok
  exact ⟨t, ht, hperf, exec_sameStage (eventsOf_eq_some.2 ⟨hp, hes⟩) h1 h2 h3 ht⟩

/-! The operations that send commands (30_encoding R90, R93, R95 to R97). -/

/-- A command-code row is `write_command` of its code (30_encoding R93, log 11). -/
theorem exec_of_commandRow {i : Instr} {s : State} {code : Byte} {ps : List Byte}
    (h : commandRow s.params i = some (code, ps)) : exec i s = exec (.writeCommand code ps) s := by
  cases i <;> cases h <;> rfl

/-- Settles O40: the row is `write_command` of its code, whose step list is the transaction. -/
theorem commandRowsSendTheirCode : Obligations.CommandRowsSendTheirCode := by
  intro i s code ps hp hrow hok
  obtain ⟨t, ht, hperf, hstage⟩ := exec_performs_sameStage (i := .writeCommand code ps) hp rfl rfl
    nofun nofun nofun hok
  exact ⟨t, (exec_of_commandRow hrow).trans ht, ht, hperf.completed, by rw [hperf.lines, replay_commandTransaction],
    hperf.offsets, hperf.straps, hstage, hperf.ctrl⟩

/-- Settles O19: the one byte is `madctlByte`. -/
theorem setOrientationSendsPattern : Obligations.SetOrientationSendsPattern := by
  intro o s hp hok
  obtain ⟨t, ht, hperf, hstage⟩ := exec_performs_sameStage (i := .setOrientation o) hp rfl rfl
    nofun nofun nofun (by simpa using hok)
  exact ⟨t, ht, hperf.completed, by simpa using hperf.lines, hperf.offsets, hperf.straps, hstage, hperf.ctrl⟩

/-- Settles O32: the window of `show` is spelled by its literal bytes. -/
theorem showSendsLiteralWindow : Obligations.ShowSendsLiteralWindow := by
  intro bs s hp hok
  obtain ⟨t, ht, hperf, hstage⟩ := exec_performs_sameStage (i := .showFrame bs) hp rfl rfl
    nofun nofun nofun (by simpa using hok)
  exact ⟨t, ht, hperf.completed, by simpa using hperf.lines, hperf.offsets, hperf.straps, hstage, hperf.ctrl⟩

/-- Window commands leave the frame memory as it was (20_memory R69). -/
theorem Performs.sameFrame_of_windowEvents {s t : State} {win : Window} (h : Performs s t (windowEvents s.params win))
    (hc : s.ctrl = .initialized) (hp : s.params.wf = true) : SameFrame s t := by
  intro a
  rw [h.sink, hc, hear_windowEvents _ _ _ _ hp]

theorem stepList_setAddressWindow {s : State} {sx sy ex ey : Word} {win : Window}
    (h : windowOf s sx sy ex ey = some win) :
    stepList s (.setAddressWindow sx sy ex ey) = some (windowEvents s.params win) :=
  congrArg (Option.map (windowEvents s.params)) h

/-- Settles O16: the window is `windowOf`, which is none where a sum overflows (41_window R133). -/
theorem setAddressWindowSendsOffsetWindow : Obligations.SetAddressWindowSendsOffsetWindow := by
  intro sx sy ex ey s hp
  refine ⟨fun h1 h2 h3 h4 hok => ?_, fun hover => runInWindow_none hp ((windowOf_eq_none_iff s sx sy ex ey).2 hover)⟩
  obtain ⟨win, hwin⟩ := (windowOf_isSome_iff s sx sy ex ey).2 ⟨h1, h2, h3, h4⟩
  obtain ⟨t, ht, hperf, hstage⟩ := exec_performs_sameStage hp (stepList_setAddressWindow hwin) rfl nofun nofun
    nofun (by simpa using hok)
  refine ⟨t, ht, ?_, by simpa using hperf.lines, hperf.offsets, hperf.straps, hstage, hperf.ctrl,
    hperf.sameFrame_of_windowEvents⟩
  have hcomp := hperf.completed
  rw [windowOf_eq_some hwin] at hcomp
  exact hcomp

/-! A composed operation and its expansion (30_encoding R103). -/

theorem Performs.trans {s t u : State} {a b : List Event} (h : Performs s t a) (g : Performs t u b) :
    Performs s u (a ++ b) := by
  obtain ⟨-, -, htr, htook, hreqs⟩ := h.completed
  obtain ⟨hrsp, hseq, htr', htook', hreqs'⟩ := g.completed
  obtain ⟨hco, hw, hh, hparams⟩ := h.straps
  obtain ⟨hco', hw', hh', hparams'⟩ := g.straps
  refine ⟨⟨hrsp, hseq, by simp [htr', htr], asked_append a b ▸ htook.trans htook', hreqs'.trans hreqs⟩, ?_,
    ⟨g.offsets.1.trans h.offsets.1, g.offsets.2.trans h.offsets.2⟩,
    ⟨hco'.trans hco, hw'.trans hw, hh'.trans hh, hparams'.trans hparams⟩, g.ctrl.trans h.ctrl, ?_⟩
  · rw [g.lines, h.lines, allOk_append, Lines.replay_append]
  · rw [g.sink, h.sink, h.ctrl, h.lines, hparams, hearEvents_append]

/-- Two that perform the same events from one state leave the same. -/
theorem Performs.agree {s t u : State} {es : List Event} (h : Performs s t es) (g : Performs s u es) :
    t.trace = u.trace ∧ t.lines = u.lines ∧ t.sink = u.sink ∧ t.ctrl = u.ctrl ∧ SameOffsets t u ∧ SameStraps t u ∧
      t.rsp = u.rsp := by
  obtain ⟨hrsp, -, htr, -⟩ := h.completed
  obtain ⟨hrsp', -, htr', -⟩ := g.completed
  obtain ⟨hco, hw, hh, hparams⟩ := h.straps
  obtain ⟨hco', hw', hh', hparams'⟩ := g.straps
  exact ⟨by rw [htr, htr'], by rw [h.lines, g.lines], by rw [h.sink, g.sink], by rw [h.ctrl, g.ctrl],
    ⟨by rw [g.offsets.1, h.offsets.1], by rw [g.offsets.2, h.offsets.2]⟩,
    ⟨by rw [hco', hco], by rw [hw', hw], by rw [hh', hh], by rw [hparams', hparams]⟩, by rw [hrsp, hrsp']⟩

theorem HasPanel.congr {s t : State} (h : HasPanel s) (hs : SameStraps s t) : HasPanel t := by
  obtain ⟨-, hw, hh, -⟩ := hs
  exact ⟨hw ▸ h.1, hh ▸ h.2⟩

/-- An operation's step list depends on the offsets, the straps and the parameters only. -/
theorem stepList_congr {s t : State} (ho : SameOffsets s t) (hs : SameStraps s t) (i : Instr) :
    stepList t i = stepList s i := by
  have hin : SameInputs s { t with replies := s.replies, asks := s.asks } := ⟨ho, hs, rfl, rfl⟩
  rw [← hin.stepList i]
  cases i <;> rfl

/-- Each operation of the program only sends, and these are their step lists, as the state before the first gives them. -/
def StepLists (s : State) : List Instr → List (List Event) → Prop :=
  List.Forall₂ fun i es => stepList s i = some es ∧ onlySends i = true

theorem StepLists.congr {s t : State} (ho : SameOffsets s t) (hs : SameStraps s t) {is : List Instr}
    {ess : List (List Event)} (h : StepLists s is ess) : StepLists t is ess :=
  List.Forall₂.imp (fun i _ hi => ⟨(stepList_congr ho hs i).trans hi.1, hi.2⟩) h

/-- A program whose operations only send performs their step lists one after the other (30_encoding R102). -/
theorem runProgram_performs {i : Instr} {is : List Instr} {s : State} {ess : List (List Event)} (hp : HasPanel s)
    (h : StepLists s (i :: is) ess) (hok : s.answersOk (asked ess.flatten) = true) :
    ∃ u, runProgram (i :: is) s = .next u ∧ Performs s u ess.flatten := by
  induction is generalizing i s ess with
  | nil =>
    obtain _ | ⟨⟨hes, hi⟩, _ | _⟩ := h
    rw [List.flatten_singleton] at hok ⊢
    obtain ⟨t, ht, hperf⟩ := exec_performs hp hes hi hok
    exact ⟨t, by rw [runProgram, ht]; rfl, hperf⟩
  | cons j js ih =>
    obtain _ | ⟨⟨hes, hi⟩, hrest⟩ := h
    rw [List.flatten_cons, asked_append] at hok
    obtain ⟨t, ht, hperf⟩ := exec_performs hp hes hi (State.answersOk_mono hok (Nat.le_add_right _ _))
    obtain ⟨-, -, -, htook, -⟩ := hperf.completed
    obtain ⟨u, hu, hperf'⟩ := ih (hp.congr hperf.straps) (StepLists.congr hperf.offsets hperf.straps hrest)
      ((State.answersOk_add htook _).1 hok).2
    exact ⟨u, by rw [runProgram, ht]; exact hu, hperf.trans hperf'⟩

/-- The operation only sends, and its step list is the step lists of its expansion, one after the other (30_encoding
R103). -/
def IsExpanded (s : State) (i : Instr) (es : List Event) : Prop :=
  onlySends i = true ∧ ∃ j js ess, expansion s i = j :: js ∧ StepLists s (j :: js) ess ∧ ess.flatten = es

theorem stepLists_words (s : State) (ws : List Word) :
    StepLists s (ws.map .writeWord) (ws.map fun w => dataTransaction (be16 w)) := by
  induction ws with
  | nil => exact .nil
  | cons w ws ih => exact .cons ⟨rfl, rfl⟩ ih

/-- An operation that is not composed stands for itself; a composed one does what its expansion does. -/
theorem expansion_cases {i : Instr} {s : State} {es : List Event} (h : stepList s i = some es) :
    expansion s i = [i] ∨ IsExpanded s i es := by
  cases i with
  | writeWord w => exact .inr ⟨rfl, _, _, [_], rfl, .cons ⟨rfl, rfl⟩ .nil, by cases h; rfl⟩
  | setOrientation o => exact .inr ⟨rfl, _, _, [_], rfl, .cons ⟨rfl, rfl⟩ .nil, by cases h; simp⟩
  | setAddressWindow sx sy ex ey =>
    obtain ⟨win, hw, rfl⟩ := Option.map_eq_some_iff.1 h
    refine .inr ⟨rfl, .caset win.cols.first win.cols.last, [.raset win.rows.first win.rows.last], [_, _], ?_,
      .cons ⟨rfl, rfl⟩ (.cons ⟨rfl, rfl⟩ .nil), ?_⟩
    · rw [expansion, hw]
    · simp [windowEvents, spanBytes]
  | setPixel x y c =>
    obtain ⟨win, hw, rfl⟩ := Option.map_eq_some_iff.1 h
    refine .inr ⟨rfl, _, _, [_, _, _], rfl,
      .cons ⟨stepList_setAddressWindow hw, rfl⟩ (.cons ⟨rfl, rfl⟩ (.cons ⟨rfl, rfl⟩ .nil)), ?_⟩
    simp [memoryWriteEvents]
  | writePixels cs =>
    cases h
    refine .inr ⟨rfl, _, _, _, rfl, .cons ⟨rfl, rfl⟩ (stepLists_words s cs), ?_⟩
    simp [memoryWriteEvents, dataRuns, List.flatMap_def, Function.comp_def]
  | writePixelsBuffered cs =>
    cases h
    refine .inr ⟨rfl, _, _, [_, _], rfl, .cons ⟨rfl, rfl⟩ (.cons ⟨rfl, rfl⟩ .nil), ?_⟩
    simp [memoryWriteEvents]
  | setPixels sx sy ex ey cs =>
    obtain ⟨win, hw, rfl⟩ := Option.map_eq_some_iff.1 h
    refine .inr ⟨rfl, _, _, [_, _], rfl, .cons ⟨stepList_setAddressWindow hw, rfl⟩ (.cons ⟨rfl, rfl⟩ .nil), ?_⟩
    simp
  | setPixelsBuffered sx sy ex ey cs =>
    obtain ⟨win, hw, rfl⟩ := Option.map_eq_some_iff.1 h
    refine .inr ⟨rfl, _, _, [_, _], rfl, .cons ⟨stepList_setAddressWindow hw, rfl⟩ (.cons ⟨rfl, rfl⟩ .nil), ?_⟩
    simp
  | _ => exact .inl rfl

/-- An operation with a step list, all answered ok, responds. -/
theorem exec_responds {i : Instr} {s : State} {es : List Event} (h : eventsOf s i = some es)
    (hok : s.answersOk (asked es) = true) : ∃ t, exec i s = .next t := by
  by_cases hi : ∃ dx dy, i = .setOffset dx dy
  · obtain ⟨dx, dy, rfl⟩ := hi
    exact ⟨_, exec_setOffset dx dy (eventsOf_eq_some.1 h).1⟩
  · obtain ⟨t, ht, -⟩ := exec_completes h (fun dx dy hset => hi ⟨dx, dy, hset⟩) hok
    exact ⟨t, ht⟩

/-- Settles O39: the two perform the same events from the same state. -/
theorem composedOperationsEqualExpansions : Obligations.ComposedOperationsEqualExpansions := by
  intro i s es h hok
  obtain ⟨hp, hes⟩ := eventsOf_eq_some.1 h
  obtain hself | ⟨hi, j, js, ess, hexp, hlists, rfl⟩ := expansion_cases hes
  · obtain ⟨t, ht⟩ := exec_responds h hok
    exact ⟨t, t, ht, by rw [hself, runProgram, ht]; rfl, rfl, rfl, rfl, rfl, ⟨rfl, rfl⟩, ⟨rfl, rfl, rfl, rfl⟩, rfl⟩
  · obtain ⟨t, ht, hperf⟩ := exec_performs hp hes hi hok
    obtain ⟨u, hu, hperf'⟩ := runProgram_performs hp hlists hok
    exact ⟨t, u, ht, hexp ▸ hu, hperf.agree hperf'⟩

/-! How bytes are carried: under chip enable, and at the command level one code at a time (30_encoding R88, R89, R92). -/

/-- With the lines like this the run is data, or it is one command code that `P` admits. -/
def Lines.Carries (P : Byte → Prop) (m : Lines) (bs : List Byte) : Prop :=
  m.ce = .held .act ∧ (m.sel = .held .dat ∨ m.sel = .held .cmd ∧ ∃ c, bs = [c] ∧ P c)

/-- Every bus write of these events, each answered ok, finds the lines so. -/
def CarriesFrom (P : Byte → Prop) : Lines → List Event → Prop
  | _, [] => True
  | l, e :: es => (∀ bs, e = .bus bs → l.Carries P bs) ∧ CarriesFrom P (l.after (e, .ok)) es

theorem carriesFrom_append {P : Byte → Prop} {l : Lines} {a b : List Event} :
    CarriesFrom P l (a ++ b) ↔ CarriesFrom P l a ∧ CarriesFrom P (l.replay (allOk a)) b := by
  induction a generalizing l with
  | nil => simp [CarriesFrom]
  | cons e a ih => simp [CarriesFrom, ih, and_assoc]

/-- Whatever the lines were before, every bus write of these events finds them so. -/
def Carried (P : Byte → Prop) (es : List Event) : Prop := ∀ l, CarriesFrom P l es

theorem Carried.append {P : Byte → Prop} {a b : List Event} (ha : Carried P a) (hb : Carried P b) : Carried P (a ++ b) :=
  fun l => carriesFrom_append.2 ⟨ha l, hb _⟩

theorem Carried.flatMap {α : Type} {P : Byte → Prop} {f : α → List Event} {xs : List α} (h : ∀ x ∈ xs, Carried P (f x)) :
    Carried P (xs.flatMap f) := by
  induction xs with
  | nil => exact fun _ => trivial
  | cons x xs ih => exact (h x (.head xs)).append (ih fun y hy => h y (.tail x hy))

theorem dataTransaction_carried (P : Byte → Prop) (bs : List Byte) : Carried P (dataTransaction bs) := by
  intro l
  simp [dataTransaction, CarriesFrom, Lines.Carries, Lines.after]

theorem commandTransaction_carried {P : Byte → Prop} {c : Byte} (hc : P c) (ps : List Byte) :
    Carried P (commandTransaction c ps) := by
  intro l
  by_cases h : ps = [] <;> simp [commandTransaction, h, CarriesFrom, Lines.Carries, Lines.after, hc]

theorem dataRuns_carried (P : Byte → Prop) (rs : List (List Byte)) : Carried P (dataRuns rs) :=
  .flatMap fun r _ => dataTransaction_carried P r

section
variable {P : Byte → Prop} {p : Params} (hcodes : ∀ c ∈ opCodeList p.codes, P c)
include hcodes

theorem windowEvents_carried (win : Window) : Carried P (windowEvents p win) :=
  (commandTransaction_carried (hcodes _ (by simp [opCodeList])) _).append
    (commandTransaction_carried (hcodes _ (by simp [opCodeList])) _)

theorem memoryWriteEvents_carried : Carried P (memoryWriteEvents p) :=
  commandTransaction_carried (hcodes _ (by simp [opCodeList])) _

/-- The events of an operation that sets a window, issues a memory write and streams. -/
theorem streamEvents_carried (win : Window) {fs : List Event} (h : Carried P fs) :
    Carried P (windowEvents p win ++ memoryWriteEvents p ++ fs) :=
  ((windowEvents_carried hcodes win).append (memoryWriteEvents_carried hcodes)).append h

end

/-- The command codes an operation may send: the seven issued ones, those of the table, the host's own, and its row's. -/
structure SendsOnly (P : Byte → Prop) (p : Params) (i : Instr) : Prop where
  issued : ∀ c ∈ opCodeList p.codes, P c
  table : ∀ e ∈ initEntries p, P e.code
  host : ∀ op ps, i = .writeCommand op ps → P op
  row : ∀ code ps, commandRow p i = some (code, ps) → P code

theorem stepList_carried {P : Byte → Prop} {i : Instr} {s : State} {es : List Event} (h : stepList s i = some es)
    (hP : SendsOnly P s.params i) : Carried P es := by
  have hcodes := hP.issued
  cases i with
  | writeCommand op ps => cases h; exact commandTransaction_carried (hP.host op ps rfl) _
  | beginData => cases h; exact fun l => by simp [selectSwitch, CarriesFrom]
  | writeData bs => cases h; exact dataTransaction_carried _ _
  | writeWord w => cases h; exact dataTransaction_carried _ _
  | writeWordsBuffered ws => cases h; exact dataRuns_carried _ _
  | setOffset dx dy => cases h; exact fun _ => trivial
  | setAddressWindow sx sy ex ey =>
    obtain ⟨win, -, rfl⟩ := Option.map_eq_some_iff.1 h
    exact windowEvents_carried hcodes _
  | setOrientation o => cases h; exact commandTransaction_carried (hcodes _ (by simp [opCodeList])) _
  | hardReset => cases h; exact fun l => by simp [resetPulse, CarriesFrom]
  | init =>
    cases h
    refine .append (.append (fun l => by simp [resetPulse, CarriesFrom]) ?_) (fun l => by simp [CarriesFrom])
    exact .flatMap fun e he => commandTransaction_carried (hP.table e he) _
  | setPixel x y c =>
    obtain ⟨win, -, rfl⟩ := Option.map_eq_some_iff.1 h
    exact streamEvents_carried hcodes _ (dataTransaction_carried _ _)
  | writePixels cs => cases h; exact (memoryWriteEvents_carried hcodes).append (dataRuns_carried _ _)
  | writePixelsBuffered cs => cases h; exact (memoryWriteEvents_carried hcodes).append (dataRuns_carried _ _)
  | setPixels sx sy ex ey cs =>
    obtain ⟨win, -, rfl⟩ := Option.map_eq_some_iff.1 h
    exact streamEvents_carried hcodes _ (dataRuns_carried _ _)
  | setPixelsBuffered sx sy ex ey cs =>
    obtain ⟨win, -, rfl⟩ := Option.map_eq_some_iff.1 h
    exact streamEvents_carried hcodes _ (dataRuns_carried _ _)
  | drawImage bs =>
    obtain ⟨win, -, rfl⟩ := Option.map_eq_some_iff.1 h
    exact streamEvents_carried hcodes _ (dataRuns_carried _ _)
  | showFrame bs => cases h; exact streamEvents_carried hcodes _ (dataTransaction_carried _ _)
  | showRegion bs x y w h' =>
    dsimp only [stepList] at h
    split at h
    · cases h; exact streamEvents_carried hcodes _ (dataRuns_carried _ _)
    · cases h
  | _ => cases h; exact commandTransaction_carried (hP.row _ _ rfl) _

/-! The recorded events are the step list up to the first that failed (60_exceptions R195, R196). -/

/-- These events of the list have been answered: all of it ok, or ok up to one that failed. -/
inductive Answered : List Event → List (Event × Answer) → Prop
  | nil : Answered [] []
  | fail (e : Event) (es : List Event) : Answered (e :: es) [(e, .fail)]
  | ok (e : Event) {es : List Event} {evs : List (Event × Answer)} : Answered es evs → Answered (e :: es) ((e, .ok) :: evs)

theorem Answered.allOk (es : List Event) : Answered es (allOk es) := by
  induction es with
  | nil => exact .nil
  | cons e es ih => exact .ok e ih

theorem Answered.allOk_fail (pre : List Event) (e : Event) (post : List Event) :
    Answered (pre ++ e :: post) (Machine.allOk pre ++ [(e, .fail)]) := by
  induction pre with
  | nil => exact .fail e post
  | cons e' pre ih => exact .ok e' ih

theorem exec_answered {i : Instr} {s t : State} {es : List Event} (h : eventsOf s i = some es) (ht : exec i s = .next t) :
    Answered es (eventsSince s t) := by
  rcases setOffset_or_not ht with ⟨dx, dy, rfl, rfl⟩ | hi
  · cases (eventsOf_eq_some.1 h).2
    simpa [eventsSince] using Answered.nil
  · obtain ⟨-, -, -, -, ⟨-, htr, -⟩ | ⟨-, -, -, pre, e, post, rfl, htr, -⟩⟩ := exec_next h hi ht
    · simpa [eventsSince, htr] using Answered.allOk es
    · simpa [eventsSince, htr] using Answered.allOk_fail pre e post

/-- A bus write among the answered events finds the lines as the events before it, all ok, left them. -/
theorem Answered.carries {P : Byte → Prop} {l : Lines} {es : List Event} {evs pre post : List (Event × Answer)}
    {bs : List Byte} {a : Answer} (h : Answered es evs) (hl : CarriesFrom P l es)
    (hevs : evs = pre ++ (.bus bs, a) :: post) : (l.replay pre).Carries P bs := by
  induction h generalizing l pre with
  | nil => simp at hevs
  | fail e es =>
    obtain ⟨hbus, -⟩ := hl
    cases pre with
    | nil => cases hevs; exact hbus bs rfl
    | cons x pre => simp at hevs
  | ok e _ ih =>
    obtain ⟨hbus, hrest⟩ := hl
    cases pre with
    | nil => cases hevs; exact hbus bs rfl
    | cons x pre =>
      obtain ⟨rfl, htail⟩ := List.cons_eq_cons.1 hevs
      exact ih (l := l.after (e, .ok)) hrest htail

/-- Every byte of the wire view was taken in a bus write, with the levels of the lines then. -/
theorem exists_bus_of_mem_wireView {l : Lines} {evs : List (Event × Answer)} {w : WireByte} (h : w ∈ wireView l evs) :
    ∃ pre bs a post, evs = pre ++ (.bus bs, a) :: post ∧ w.byte ∈ bs ∧ w.sel = (l.replay pre).sel ∧
      w.ce = (l.replay pre).ce := by
  induction l, evs using wireView.induct with
  | case1 l => cases h
  | case2 l bs evs ih =>
    rw [wireView, List.mem_append] at h
    rcases h with h | h
    · obtain ⟨b, hb, rfl⟩ := List.mem_map.1 h
      exact ⟨[], bs, .ok, evs, rfl, hb, rfl, rfl⟩
    · obtain ⟨pre, bs', a, post, rfl, hw⟩ := ih h
      exact ⟨(.bus bs, .ok) :: pre, bs', a, post, rfl, hw⟩
  | case3 l x evs hbus ih =>
    rw [wireView] at h
    · obtain ⟨pre, bs, a, post, rfl, hw⟩ := ih h
      exact ⟨x :: pre, bs, a, post, rfl, hw⟩
    · exact hbus

/-- Each bus write of an operation carries data, or one command code the operation may send, whatever is answered. -/
theorem exec_carries {P : Byte → Prop} {i : Instr} {s t : State} (ht : exec i s = .next t) (hP : SendsOnly P s.params i)
    {pre post : List (Event × Answer)} {bs : List Byte} {a : Answer} (h : eventsSince s t = pre ++ (.bus bs, a) :: post) :
    (s.lines.replay pre).Carries P bs := by
  obtain ⟨es, hes⟩ := eventsOf_of_next ht
  exact (exec_answered hes ht).carries (stepList_carried (eventsOf_eq_some.1 hes).2 hP s.lines) h

/-- So is each byte on the wire: under chip enable, at the data level or a command code. -/
theorem exec_wire {P : Byte → Prop} {i : Instr} {s t : State} (ht : exec i s = .next t) (hP : SendsOnly P s.params i)
    {w : WireByte} (hw : w ∈ wireSince s t) :
    w.ce = .held .act ∧ (w.sel = .held .dat ∨ w.sel = .held .cmd ∧ P w.byte) := by
  obtain ⟨pre, bs, a, post, hevs, hmem, hsel, hce⟩ := exists_bus_of_mem_wireView hw
  obtain ⟨hact, hlevel⟩ := exec_carries ht hP hevs
  rw [hce, hsel]
  refine ⟨hact, hlevel.imp_right ?_⟩
  rintro ⟨hcmd, c, rfl, hc⟩
  exact ⟨hcmd, List.mem_singleton.1 hmem ▸ hc⟩

/-- Settles O49: the claim about the lines, with any command code admitted. -/
theorem everyByteUnderChipEnable : Obligations.EveryByteUnderChipEnable := by
  intro i s t ht
  have hany : SendsOnly (fun _ => True) s.params i :=
    ⟨fun _ _ => trivial, fun _ _ => trivial, fun _ _ _ => trivial, fun _ _ _ => trivial⟩
  refine ⟨fun w hw => ?_, fun pre bs a post h hcmd => ?_⟩
  · obtain ⟨hce, hdat | ⟨hcmd, -⟩⟩ := exec_wire ht hany hw
    · exact ⟨hce, .inr hdat⟩
    · exact ⟨hce, .inl hcmd⟩
  · obtain ⟨-, hdat | ⟨-, c, rfl, -⟩⟩ := exec_carries ht hany h
    · rw [hdat] at hcmd; cases hcmd
    · rfl

/-- With the codes apart and an admissible table, an operation that is no host's own code sends no read code. -/
theorem sendsOnly_notRead {p : Params} {i : Instr} (hwf : p.wf = true) (hapart : p.codesApart = true)
    (hhost : ∀ op ps, i ≠ .writeCommand op ps) (hrow : i ∉ [.rddid, .rddst, .ramrd, .rdid1, .rdid2, .rdid3, .rdid4]) :
    SendsOnly (· ∉ readCodeList p.reads) p i := by
  have hissued : ∀ c ∈ opCodeList p.codes, c ∉ readCodeList p.reads := fun c hc hread =>
    List.disjoint_of_nodup_append (of_decide_eq_true hapart) hc hread
  refine ⟨hissued, ?_, fun op ps h => absurd h (hhost op ps), fun code ps h => ?_⟩
  · simp only [Params.wf, Bool.and_eq_true, List.all_eq_true] at hwf
    simpa using hwf.2
  · cases i with
    | rddid | rddst | ramrd | rdid1 | rdid2 | rdid3 | rdid4 => simp at hrow
    | _ => cases h <;> exact hissued _ (by simp [opCodeList])

/-- Settles O41: a byte at the command level is a code the operation may send. -/
theorem readCodesNeverIssued : Obligations.ReadCodesNeverIssued := by
  intro i s t hwf hapart ht hhost hrow w hw hcmd
  obtain ⟨-, hdat | ⟨-, hbyte⟩⟩ := exec_wire ht (sendsOnly_notRead hwf hapart hhost hrow) hw
  · rw [hdat] at hcmd; cases hcmd
  · exact hbyte

end Sys2Proof.Machine

/-! Proofs of the family `transaction`: the Transaction Primitive, where every event is answered ok and where one fails. -/

namespace Sys2Proof.Machine

/-! Where a run stops at a failing event (60_exceptions R195 to R197). -/

theorem Event.onBus_asked {e : Event} (h : e.onBus) : asked [e] = 1 := by
  cases e with
  | sel l | ce l | bus bs => rfl
  | rst l | dly k => exact h.elim

/-- Every event on the lines and the bus asks for an answer (00_scope R13). -/
theorem asked_of_onBus {es : List Event} (h : ∀ e ∈ es, e.onBus) : asked es = es.length := by
  induction es with
  | nil => rfl
  | cons e es ih =>
    obtain ⟨he, hes⟩ := List.forall_mem_cons.1 h
    rw [← List.singleton_append, asked_append, e.onBus_asked he, ih hes, List.length_append, List.length_singleton]

/-- Without a delay in the step list, the `k`-th event gets the `k`-th reply. -/
theorem stopsAt_of_onBus {es : List Event} {s : State} {k : Nat} {e : Event} {r : Reply} (hbus : ∀ e ∈ es, e.onBus)
    (hk : es[k]? = some e) (hbefore : s.answersOk k = true) (hr : s.replyAt k = r) (hnot : r ≠ .answered .ok) :
    StopsAt es s (es.take k) e r := by
  obtain ⟨hlt, rfl⟩ := List.getElem?_eq_some_iff.1 hk
  have hasked : asked (es.take k) = k := by
    rw [asked_of_onBus fun e he => hbus e (List.mem_of_mem_take he), List.length_take_of_le hlt.le]
  refine ⟨⟨es.drop (k + 1), ?_⟩, Event.onBus_asked (hbus _ (List.getElem_mem hlt)), ?_, ?_, hnot⟩
  · rw [List.getElem_cons_drop, List.take_append_drop]
  · rwa [hasked]
  · rwa [hasked]

/-- The operation has answered TransactionFailure: `e` failed after the events `pre`, all ok, and nothing came after it. -/
structure FailsAt (s t : State) (pre : List Event) (e : Event) : Prop where
  response : t.rsp = some .transactionFailure
  idle : t.seq = .idle
  trace : t.trace = s.trace ++ (allOk pre ++ [(e, .fail)])
  lines : t.lines = s.lines.replay (allOk pre ++ [(e, .fail)])
  ctrl : t.ctrl = .unknown
  offsets : SameOffsets s t
  straps : SameStraps s t

/-- A run whose first event not ok is answered fail responds. -/
theorem exec_responds_of_fail {i : Instr} {s : State} {es pre : List Event} {e : Event} (h : eventsOf s i = some es)
    (hi : ∀ dx dy, i ≠ .setOffset dx dy) (hstop : StopsAt es s pre e (.answered .fail)) : ∃ t, exec i s = .next t := by
  obtain ⟨sel, body, hrun⟩ := exec_isRun h hi
  have hobeys := hrun.obeys
  rw [hrun.eq]
  cases hu : body (s.start sel) with
  | done u => exact ⟨_, (runOp_next_iff (eventsOf_eq_some.1 h).1).2 (.inl ⟨u, hu, rfl⟩)⟩
  | failed u => exact ⟨_, (runOp_next_iff (eventsOf_eq_some.1 h).1).2 (.inr ⟨u, hu, rfl⟩)⟩
  | hung =>
    rw [hu] at hobeys
    obtain ⟨pre', e', hsilent⟩ := hobeys.hung_stopsAt
    obtain ⟨-, -, hr⟩ := hstop.unique hsilent
    cases hr

/-- WHERE A RUN FAILS: the failing event is its last, and the lines are what the events up to it leave. -/
theorem exec_fails {i : Instr} {s : State} {es pre : List Event} {e : Event} (h : eventsOf s i = some es)
    (hi : ∀ dx dy, i ≠ .setOffset dx dy) (hstop : StopsAt es s pre e (.answered .fail)) :
    ∃ t, exec i s = .next t ∧ FailsAt s t pre e := by
  obtain ⟨t, ht⟩ := exec_responds_of_fail h hi hstop
  obtain ⟨hoff, hstraps, hseq, -, ⟨-, -, -, -, hok⟩ |
    ⟨hrsp, hctrl, -, pre', e', post, hes, htrace, hlines, -, hbefore, hreply, hasks⟩⟩ := exec_next h hi ht
  · exact absurd hok hstop.not_all_ok
  · obtain ⟨rfl, rfl, -⟩ := hstop.unique ⟨⟨post, hes⟩, hasks, hbefore, hreply, nofun⟩
    exact ⟨t, ht, hrsp, hseq, htrace, hlines, hctrl, hoff, hstraps⟩

/-! `write_command` (40_transaction R110, R111). -/

/-- The lines after the `k`-th event of a command transaction has failed (vectors F1 to F6). -/
theorem replay_commandTransaction_failed (l : Lines) {op : Byte} {ps : List Byte} {k : Nat} {e : Event}
    (hk : (commandTransaction op ps)[k]? = some e) :
    l.replay (allOk ((commandTransaction op ps).take k) ++ [(e, .fail)]) =
      { l with
        ce := if k = 0 ∨ k + 1 = (commandTransaction op ps).length then .unknown else .held .act
        sel := if k = 0 then l.sel else if k = 1 then .unknown else if k = 2 then .held .cmd
          else if k = 3 then (if ps = [] then .held .cmd else .unknown) else .held .dat } := by
  by_cases hps : ps = []
  · rw [commandTransaction, if_pos hps] at hk ⊢
    match k with
    | 0 | 1 | 2 | 3 => cases hk; simp [Lines.after, hps]
    | k + 4 => simp at hk
  · rw [commandTransaction, if_neg hps] at hk ⊢
    match k with
    | 0 | 1 | 2 | 3 | 4 | 5 => cases hk; simp [Lines.after, hps]
    | k + 6 => simp at hk

/-- Settles O8: the run stops at the failing event, with the lines the events up to it leave. -/
theorem writeCommandFailureStopsAtOnce : Obligations.WriteCommandFailureStopsAtOnce := by
  intro op ps s k e hp hk hbefore hfail
  have hbus := commandTransaction_onBus op ps
  obtain ⟨t, ht, h⟩ := exec_fails (eventsOf_of_hasPanel hp (.writeCommand op ps)) nofun
    (stopsAt_of_onBus hbus hk hbefore hfail nofun)
  have hlines := h.lines
  rw [replay_commandTransaction_failed s.lines hk] at hlines
  refine ⟨t, ht, h.response, h.idle, by rw [h.trace, List.append_assoc], h.ctrl, h.offsets, h.straps, by rw [hlines],
    fun h0 => ?_, fun hpos hlt => ?_, fun hlast => ?_, fun h1 => ?_, fun h2 => ?_, fun h3 => ?_, fun hlate => ?_⟩
  · simp [hlines, h0]
  · simp [hlines, hpos.ne', hlt.ne]
  · simp [hlines, hlast]
  · simp [hlines, h1]
  · simp [hlines, h2]
  · simp [hlines, h3]
  · simp [hlines, show k ≠ 0 ∧ k ≠ 1 ∧ k ≠ 2 ∧ k ≠ 3 by omega]

/-- A named code that is none of the four of 10_state R29 only ends the command before it (20_memory R71, log 21). -/
theorem Sink.commandByte_of_other {p : Params} {op : Byte} (k : Sink) (hnamed : isNamedCode p op = true)
    (hcaset : op ≠ p.codes.caset) (hraset : op ≠ p.codes.raset) (hramwr : op ≠ p.codes.ramwr)
    (hmadctl : op ≠ p.codes.madctl) : k.commandByte p op = { k with cmd := .idle } := by
  rw [Sink.commandByte, if_neg hcaset, if_neg hraset, if_neg hramwr, if_neg hmadctl, if_pos hnamed]

/-- A named code but memory-write and memory-access-control awaits parameters and leaves the frame memory (log 21). -/
theorem Sink.commandByte_parameters {p : Params} {op : Byte} (k : Sink) (hnamed : isNamedCode p op = true)
    (hramwr : op ≠ p.codes.ramwr) (hmadctl : op ≠ p.codes.madctl) :
    (k.commandByte p op).takesParameters = true ∧ (k.commandByte p op).mem = k.mem := by
  by_cases hcaset : op = p.codes.caset
  · rw [Sink.commandByte, if_pos hcaset]; exact ⟨rfl, rfl⟩
  by_cases hraset : op = p.codes.raset
  · rw [Sink.commandByte, if_neg hcaset, if_pos hraset]; exact ⟨rfl, rfl⟩
  rw [k.commandByte_of_other hnamed hcaset hraset hramwr hmadctl]
  exact ⟨rfl, rfl⟩

/-- After a code that is none of the fourteen nothing is known (30_encoding R91, log 21). -/
theorem Sink.commandByte_unnamed {p : Params} {op : Byte} (k : Sink) (h : isNamedCode p op = false) :
    k.commandByte p op = k.forgetAll := by
  have hop : ∀ c ∈ opCodeList p.codes, op ≠ c := by
    rintro c hc rfl
    simp [isNamedCode, hc] at h
  rw [Sink.commandByte, if_neg (hop _ (by simp [opCodeList])), if_neg (hop _ (by simp [opCodeList])),
    if_neg (hop _ (by simp [opCodeList])), if_neg (hop _ (by simp [opCodeList])), h, if_neg nofun]

/-- Where the controller is not initialized, or the code has no name, nothing is known after it (logs 21, 22). -/
theorem Sink.takeCode_knowsNothing {x : Ctrl} {p : Params} {op : Byte} (k : Sink)
    (h : x ≠ .initialized ∨ isNamedCode p op = false) : (k.takeCode x p op).knowsNothing = true := by
  unfold Sink.takeCode
  split
  · next hx => rw [k.commandByte_unnamed (h.resolve_left (not_not_intro hx))]; rfl
  · rfl

/-- Of a controller of which nothing is known, nothing is known after data bytes either, whatever `ctrl` is (log 22). -/
theorem Sink.foldl_takeData_knowsNothing (x : Ctrl) {k : Sink} (h : k.knowsNothing = true) (bs : List Byte) :
    (bs.foldl (Sink.takeData x) k).knowsNothing = true := by
  by_cases hx : x = .initialized
  · subst hx
    obtain ⟨-, -, -, hcmd, -⟩ := Sink.knowsNothing_iff.1 h
    cases bs with
    | nil => exact h
    | cons b bs => exact Sink.unknown_data hcmd b bs
  · exact Sink.takeData_knowsNothing hx h bs

/-- Data bytes of a command that has no parameters here change nothing (log 21). -/
theorem Sink.foldl_dataByte_idle {k : Sink} (h : k.cmd = .idle) (bs : List Byte) : bs.foldl Sink.dataByte k = k := by
  induction bs with
  | nil => rfl
  | cons b bs ih => rw [List.foldl_cons, Sink.dataByte, h]; exact ih

/-- Settles O7: the run performs the transaction, and the controller hears the code and then the parameters. -/
theorem writeCommandSendsCommandTransaction : Obligations.WriteCommandSendsCommandTransaction := by
  intro op ps s hp hok
  obtain ⟨t, ht, hperf, hstage⟩ := exec_performs_sameStage (i := .writeCommand op ps) hp rfl rfl nofun nofun nofun hok
  have hsink := hperf.sink
  rw [hear_commandTransaction] at hsink
  refine ⟨t, ht, hperf.completed, by rw [hperf.completed.wireSince, wireView_commandTransaction],
    by rw [hperf.lines, replay_commandTransaction], hperf.offsets, hperf.straps, hstage, hperf.ctrl,
    fun hc hnamed hramwr hmadctl => ?_, fun hunknown => ?_⟩
  · replace hsink : t.sink = ps.foldl Sink.dataByte (s.sink.commandByte s.params op) := by rw [hsink, hc]; rfl
    refine ⟨fun a => ?_, fun hcaset hraset => ?_⟩
    · obtain ⟨hpar, hmem⟩ := s.sink.commandByte_parameters hnamed hramwr hmadctl
      rw [hsink, Sink.parameters_mem hpar, hmem]
    · rw [s.sink.commandByte_of_other hnamed hcaset hraset hramwr hmadctl, Sink.foldl_dataByte_idle rfl] at hsink
      simp [SameSinkRegisters, hsink]
  · rw [hsink]
    exact Sink.foldl_takeData_knowsNothing _ (s.sink.takeCode_knowsNothing hunknown) ps

/-! `begin_data` (40_transaction R112). -/

/-- Settles O9: its step list is the one drive. -/
theorem beginDataSwitchesSelect : Obligations.BeginDataSwitchesSelect := by
  refine ⟨fun s hp hok => ?_, fun s hp hfail => ?_⟩
  · obtain ⟨t, ht, hperf, hstage⟩ := exec_performs_sameStage (i := .beginData) hp rfl rfl nofun nofun nofun hok
    have hsink : t.sink = s.sink := hperf.sink
    exact ⟨t, ht, hperf.completed, hperf.lines, hperf.offsets, hperf.straps, hstage, hperf.ctrl,
      fun a => by rw [hsink], hsink⟩
  · have hstop : StopsAt selectSwitch s [] (.sel .dat) (.answered .fail) :=
      ⟨⟨[], rfl⟩, rfl, s.answersOk_zero, hfail, nofun⟩
    obtain ⟨t, ht, h⟩ := exec_fails (eventsOf_of_hasPanel hp .beginData) nofun hstop
    exact ⟨t, ht, h.response, h.trace, h.lines, h.ctrl, h.offsets, h.straps⟩

/-! The operations that send data only (40_transaction R114, R116, R118). -/

/-- Parameter bytes leave the frame memory, however they are cut into runs (logs 19, 21). -/
theorem exec_parameters_sameFrame {i : Instr} {s t : State} {bs : List Byte} (hbs : dataBytes i = some bs)
    (ht : exec i s = .next t) (hok : t.rsp = some .ok) (hc : s.ctrl = .initialized)
    (hpar : s.sink.takesParameters = true) : SameFrame s t := by
  intro a
  rw [exec_dataBytes hc hbs ht hok, Sink.parameters_mem hpar]

/-- Settles O10: the step list is the data transaction. -/
theorem writeDataSendsDataTransaction : Obligations.WriteDataSendsDataTransaction := by
  intro bs s hp hok
  obtain ⟨t, ht, hperf, hstage⟩ := exec_performs_sameStage (i := .writeData bs) hp rfl rfl nofun nofun nofun
    (by rwa [asked_dataTransaction])
  exact ⟨t, ht, hperf.completed, by rw [hperf.completed.wireSince, wireView_dataTransaction],
    by rw [hperf.lines, replay_dataTransaction], hperf.offsets, hperf.straps, hstage, hperf.ctrl,
    exec_parameters_sameFrame rfl ht hperf.completed.1⟩

/-- Settles O11: the step list is the data transaction of the word's two bytes. -/
theorem writeWordSendsHighByteFirst : Obligations.WriteWordSendsHighByteFirst := by
  intro w s hp hok
  obtain ⟨t, ht, hperf, hstage⟩ := exec_performs_sameStage (i := .writeWord w) hp rfl rfl nofun nofun nofun
    (by rwa [asked_dataTransaction])
  exact ⟨t, ht, hperf.completed, by rw [hperf.lines, replay_dataTransaction], hperf.offsets, hperf.straps, hstage,
    hperf.ctrl, exec_parameters_sameFrame rfl ht hperf.completed.1⟩

/-- The staging buffer is never left overfull, whatever `fill` was before: the operation clears it first (R118). -/
theorem exec_writeWordsBuffered_fillInBounds {ws : List Word} {s t : State}
    (ht : exec (.writeWordsBuffered ws) s = .next t) : t.FillInBounds :=
  runOp_ends (hasPanel_of_next ht) ht (writeWordsBuffered_fillInBounds ws _) fun _ _ h => h

/-- Settles O12: the step list is the flushes' data transactions. -/
theorem writeWordsBufferedFlushes : Obligations.WriteWordsBufferedFlushes := by
  intro ws s hp hok
  obtain ⟨t, ht, hperf⟩ := exec_performs (i := .writeWordsBuffered ws) hp rfl rfl hok
  have hlines := hperf.lines
  rw [replay_dataRuns] at hlines
  exact ⟨t, ht, hperf.completed, fun hnone => by rw [hlines, if_pos hnone], fun hsome => by rw [hlines, if_neg hsome],
    hperf.offsets, hperf.straps, exec_writeWordsBuffered_fillInBounds ht, hperf.ctrl,
    exec_parameters_sameFrame rfl ht hperf.completed.1⟩

/-- Settles O13: the words' bytes are cut into chunks of 32, and a word is two bytes. -/
theorem flushRunSizes : Obligations.FlushRunSizes := by
  intro p ws
  refine ⟨?_, flushRuns_flatten p ws⟩
  obtain ⟨-, hsizes⟩ := chunksCutInto32 (ws.flatMap be16)
  rw [flatMap_be16_length, show 2 * ws.length / 32 = ws.length / 16 by omega,
    show 2 * ws.length % 32 = 2 * (ws.length % 16) by omega] at hsizes
  rw [flushRuns, List.map_append, hsizes, List.append_assoc]
  by_cases hrem : ws.length % 16 = 0
  · by_cases hflag : p.emptyFinalFlush = true <;> simp [hrem, hflag]
  · simp [hrem]

/-- Word by word, each word is a data transaction of its own (40_transaction R116). -/
theorem runProgram_words {ws : List Word} {s : State} (hp : HasPanel s) (hok : s.answersOk (4 * ws.length) = true) :
    ∃ u, runProgram (ws.map .writeWord) s = .next u ∧ u.trace = s.trace ++ allOk (dataRuns (ws.map be16)) := by
  cases ws with
  | nil => exact ⟨s, rfl, by simp [dataRuns]⟩
  | cons w ws =>
    have hruns : ((w :: ws).map fun w => dataTransaction (be16 w)).flatten = dataRuns ((w :: ws).map be16) := by
      rw [dataRuns, List.flatMap_map, List.flatMap_def]
    obtain ⟨u, hu, hperf⟩ := runProgram_performs hp (stepLists_words s (w :: ws))
      (by rwa [hruns, asked_dataRuns, List.length_map])
    obtain ⟨-, -, htrace, -⟩ := hperf.completed
    exact ⟨u, hu, hruns ▸ htrace⟩

/-- Settles O14: the flushes and the words' own transactions carry the same bytes. -/
theorem bufferedWordsEqualWordByWord : Obligations.BufferedWordsEqualWordByWord := by
  intro ws s hp hwords hflushes
  obtain ⟨t, ht, hperf⟩ := exec_performs (i := .writeWordsBuffered ws) hp rfl rfl hflushes
  obtain ⟨u, hu, htrace⟩ := runProgram_words hp hwords
  refine ⟨t, u, ht, hu, ?_, ?_⟩
  · rw [hperf.completed.wireSince, wireView_dataRuns, flushRuns_flatten]
  · rw [wireSince, eventsSince, htrace, List.drop_left, wireView_dataRuns, List.flatMap_def]

end Sys2Proof.Machine

/-! Proofs of the family `window`: the offsets, the windows they move, and the orientation byte. -/

namespace Sys2Proof.Machine

/-! The offset registers (41_window R130 to R133). -/

/-- Settles O15: `set_offset` has no event to fail at. -/
theorem setOffsetOverwritesBoth : Obligations.SetOffsetOverwritesBoth := fun dx dy _ hp => exec_setOffset dx dy hp

/-- Once the other `require` lines of 42_streaming R162 hold, `show_region` sets its window first. -/
theorem exec_showRegion_of_rows {bs : List Byte} {x y w h : Word} {rows : List (List Byte)} {s : State} (hp : HasPanel s)
    (hshape : regionShapeOk x y w h = true) (hrows : regionRows s.width bs x y w h = some rows) :
    exec (.showRegion bs x y w h) s =
      runInWindow 0x11 x y (x + w - 1) (y + h - 1) (fun t => (memoryWrite t).andThen (forEach sendRow rows)) s := by
  dsimp only [exec, execShowRegion]
  rw [onPanel_of_hasPanel hp, if_neg (by simp [hshape]), hrows]

/-- Settles O17: the window is none, and all six operations ask for it before any event. -/
theorem offsetOverflowRefused : Obligations.OffsetOverflowRefused := by
  intro sx sy ex ey s hp hover
  have hwin : windowOf s sx sy ex ey = none := (windowOf_eq_none_iff s sx sy ex ey).2 hover
  refine ⟨runInWindow_none hp hwin, ?_, fun _ => runInWindow_none hp hwin, fun _ => runInWindow_none hp hwin, ?_, ?_⟩
  · rintro c rfl rfl
    exact runInWindow_none hp hwin
  · rintro bs rfl rfl rfl rfl
    exact runInWindow_none hp hwin
  · rintro bs w h rows hshape hrows rfl rfl
    rw [exec_showRegion_of_rows hp hshape hrows]
    exact runInWindow_none hp hwin

/-- A program of `set_offset` and one operation more is that operation from the state with the new offsets. -/
theorem runProgram_setOffset {dx dy : Word} {i : Instr} {s t : State} (hp : HasPanel s)
    (ht : exec i ((s.setOffsets dx dy).respond .ok) = .next t) : runProgram [.setOffset dx dy, i] s = .next t := by
  have hset : exec (.setOffset dx dy) s = .next ((s.setOffsets dx dy).respond .ok) := exec_setOffset dx dy hp
  simp only [runProgram, hset, ht]

/-- Settles O18: the window commands carry the offsets that `set_offset` left, and it put nothing on the wire. -/
theorem offsetThenWindowTransmitsSums : Obligations.OffsetThenWindowTransmitsSums := by
  intro dx dy sx sy ex ey s hp h1 h2 h3 h4 hok
  obtain ⟨hsends, -⟩ := setAddressWindowSendsOffsetWindow sx sy ex ey ((s.setOffsets dx dy).respond .ok) hp
  obtain ⟨t, ht, hcomp, -⟩ := hsends h1 h2 h3 h4 hok
  refine ⟨t, runProgram_setOffset hp ht, ?_⟩
  have hwire := hcomp.wireSince
  rw [allOk_append, wireView_append, wireView_commandTransaction, wireView_commandTransaction, ← List.append_assoc]
    at hwire
  exact hwire

/-- Settles O60: `write_pixels` performs the same events from the same lines and controller, whatever the offsets. -/
theorem offsetDoesNotMoveLatchedWindow : Obligations.OffsetDoesNotMoveLatchedWindow := by
  intro dx dy cs s hp hok
  have hasked : asked (memoryWriteEvents s.params ++ dataRuns (cs.map be16)) = 4 + 4 * cs.length := by simp
  obtain ⟨t, ht, hperf⟩ := exec_performs (i := .writePixels cs) (s := (s.setOffsets dx dy).respond .ok) hp rfl rfl
    (hasked ▸ hok)
  obtain ⟨u, hu, hperf'⟩ := exec_performs (i := .writePixels cs) hp rfl rfl (hasked ▸ hok)
  obtain ⟨-, -, htrace, -⟩ := hperf.completed
  obtain ⟨-, -, htrace', -⟩ := hperf'.completed
  exact ⟨t, u, runProgram_setOffset hp ht, hu, htrace.trans htrace'.symm, hperf.sink.trans hperf'.sink.symm,
    hperf.offsets⟩

/-! The orientation byte (41_window R137). -/

theorem getLsbD_bgrBit (n : Nat) : bgrBit.getLsbD n = decide (n = 3) := by
  have h : bgrBit = BitVec.twoPow 8 3 := rfl
  rw [h, BitVec.getLsbD_twoPow]
  simp [eq_comm]

/-- Settles O20: `BGR_BIT` is bit 3 alone, and OR sets it and keeps the others. -/
theorem orientationBgrBit : Obligations.OrientationBgrBit := by
  refine fun o s => ⟨fun hrgb => by rw [madctlByte, hrgb], fun hbgr n _ => ?_⟩
  have hbyte : madctlByte s o = orientBits s.params o ||| bgrBit := by rw [madctlByte, hbgr]
  rw [hbyte, BitVec.getLsbD_or, getLsbD_bgrBit]
  by_cases hn : n = 3 <;> simp [hn]

end Sys2Proof.Machine

/-! Proofs of the family `streaming`: the pixel and buffer operations, where every event is answered ok, and where
`show_region` is refused. -/

namespace Sys2Proof.Machine

/-! A memory write and the byte runs after it: the lines, and what reaches the controller. -/

theorem dataRuns_map {α : Type} (f : α → List Byte) (xs : List α) :
    dataRuns (xs.map f) = xs.flatMap fun x => dataTransaction (f x) := List.flatMap_map ..

theorem dataRuns_flatMap {α : Type} (f : α → List (List Byte)) (xs : List α) :
    dataRuns (xs.flatMap f) = xs.flatMap fun x => dataRuns (f x) := List.flatMap_assoc ..

theorem replay_memoryWriteRuns (l : Lines) (p : Params) (rs : List (List Byte)) :
    l.replay (allOk (memoryWriteEvents p ++ dataRuns rs)) =
      { l with ce := .held .inact, sel := if rs = [] then .held .cmd else .held .dat } := by
  rw [allOk_append, Lines.replay_append, replay_memoryWriteEvents, replay_dataRuns]
  by_cases h : rs = [] <;> simp [h]

theorem replay_streamEvents (l : Lines) (p : Params) (win : Window) (rs : List (List Byte)) :
    l.replay (allOk (windowEvents p win ++ memoryWriteEvents p ++ dataRuns rs)) =
      { l with ce := .held .inact, sel := if rs = [] then .held .cmd else .held .dat } := by
  rw [List.append_assoc, allOk_append, Lines.replay_append, replay_windowEvents, replay_memoryWriteRuns]

theorem asked_streamEvents (p : Params) (win : Window) (rs : List (List Byte)) :
    asked (windowEvents p win ++ memoryWriteEvents p ++ dataRuns rs) = 16 + 4 * rs.length := by
  rw [asked_append, asked_append, asked_windowEvents, asked_memoryWriteEvents, asked_dataRuns]

/-- However the same bytes are cut into runs, the wire view and the controller are the same (30_encoding R85). -/
theorem Performs.sameWire {s t u : State} {pre : List Event} {rs rs' : List (List Byte)}
    (h : Performs s t (pre ++ dataRuns rs)) (g : Performs s u (pre ++ dataRuns rs'))
    (hbytes : rs.flatten = rs'.flatten) :
    wireSince s t = wireSince s u ∧ t.sink = u.sink := by
  constructor
  · rw [h.completed.wireSince, g.completed.wireSince]
    simp only [allOk_append, wireView_append, wireView_dataRuns, hbytes]
  · rw [h.sink, g.sink]
    simp only [hearEvents_append, hear_dataRuns, hbytes]

/-! `set_pixel`, `write_pixels`, `set_pixels` and their buffered forms (42_streaming R150 to R157). -/

theorem stepList_setPixel {x y c : Word} {s : State} {win : Window} (h : windowOf s x y x y = some win) :
    stepList s (.setPixel x y c) =
      some (windowEvents s.params win ++ memoryWriteEvents s.params ++ dataTransaction (be16 c)) :=
  congrArg (Option.map _) h

theorem stepList_setPixels {sx sy ex ey : Word} {s : State} {win : Window} (h : windowOf s sx sy ex ey = some win)
    (cs : List Word) :
    stepList s (.setPixels sx sy ex ey cs) =
      some (windowEvents s.params win ++ memoryWriteEvents s.params ++ dataRuns (cs.map be16)) :=
  congrArg (Option.map _) h

theorem stepList_setPixelsBuffered {sx sy ex ey : Word} {s : State} {win : Window}
    (h : windowOf s sx sy ex ey = some win) (cs : List Word) :
    stepList s (.setPixelsBuffered sx sy ex ey cs) =
      some (windowEvents s.params win ++ memoryWriteEvents s.params ++ dataRuns (flushRuns s.params cs)) :=
  congrArg (Option.map _) h

/-- Settles O26: the step list is the window, memory-write and the color's data transaction. -/
theorem setPixelSendsWindowAndColor : Obligations.SetPixelSendsWindowAndColor := by
  intro x y c s win hp hwin hok
  obtain ⟨t, ht, hperf, hstage⟩ := exec_performs_sameStage hp (stepList_setPixel hwin) rfl nofun nofun nofun
    (by simpa using hok)
  exact ⟨t, ht, hperf.completed, by simpa using hperf.lines, hperf.offsets, hperf.straps, hstage, hperf.ctrl⟩

/-- Settles O27: the colors' runs are their words, one data transaction each. -/
theorem writePixelsSendsOneTransactionPerColor : Obligations.WritePixelsSendsOneTransactionPerColor := by
  intro cs s hp hok
  obtain ⟨t, ht, hperf, hstage⟩ := exec_performs_sameStage (i := .writePixels cs) hp rfl rfl nofun nofun nofun
    (by simpa using hok)
  exact ⟨t, ht, dataRuns_map be16 cs ▸ hperf.completed,
    by rw [hperf.lines, replay_memoryWriteRuns]; simp only [List.map_eq_nil_iff], hperf.offsets, hperf.straps, hstage,
    hperf.ctrl⟩

/-- Settles O28: the step list is memory-write and the flushes. -/
theorem writePixelsBufferedSendsFlushes : Obligations.WritePixelsBufferedSendsFlushes := by
  intro cs s hp hok
  obtain ⟨t, ht, hperf⟩ := exec_performs (i := .writePixelsBuffered cs) hp rfl rfl hok
  have hlines := hperf.lines
  rw [replay_memoryWriteRuns] at hlines
  exact ⟨t, ht, hperf.completed, by rw [hlines], by rw [hlines], hperf.offsets, hperf.straps, hperf.ctrl⟩

/-- Settles O29: the step list is the window, memory-write and one run per color. -/
theorem setPixelsSendsWindowAndColors : Obligations.SetPixelsSendsWindowAndColors := by
  intro sx sy ex ey cs s win hp hwin hok
  obtain ⟨t, ht, hperf, hstage⟩ := exec_performs_sameStage hp (stepList_setPixels hwin cs) rfl nofun nofun nofun
    (by rwa [asked_streamEvents, List.length_map])
  have hlines := hperf.lines
  rw [replay_streamEvents] at hlines
  exact ⟨t, ht, dataRuns_map be16 cs ▸ hperf.completed, by rw [hlines], by rw [hlines], hperf.offsets, hperf.straps,
    hstage, hperf.ctrl⟩

/-- Settles O30: the step list is the window, memory-write and the flushes. -/
theorem setPixelsBufferedSendsWindowAndFlushes : Obligations.SetPixelsBufferedSendsWindowAndFlushes := by
  intro sx sy ex ey cs s win hp hwin hok
  obtain ⟨t, ht, hperf⟩ := exec_performs hp (stepList_setPixelsBuffered hwin cs) rfl (by rwa [asked_streamEvents])
  have hlines := hperf.lines
  rw [replay_streamEvents] at hlines
  exact ⟨t, ht, hperf.completed, by rw [hlines], by rw [hlines], hperf.offsets, hperf.straps, hperf.ctrl⟩

theorem map_be16_flatten (p : Params) (cs : List Word) : (cs.map be16).flatten = (flushRuns p cs).flatten := by
  rw [flushRuns_flatten, List.flatMap_def]

/-- Settles O36: the two forms send the same bytes after the same commands. -/
theorem bufferedPixelsEqualUnbuffered : Obligations.BufferedPixelsEqualUnbuffered := by
  intro sx sy ex ey cs s hp hcolors hflushes
  refine ⟨?_, fun win hwin => ?_⟩
  · obtain ⟨t, ht, hperf⟩ := exec_performs (i := .writePixels cs) hp rfl rfl
      (State.answersOk_mono hcolors (by simp))
    obtain ⟨u, hu, hperf'⟩ := exec_performs (i := .writePixelsBuffered cs) hp rfl rfl
      (State.answersOk_mono hflushes (by simp))
    exact ⟨t, u, ht, hu, hperf.sameWire hperf' (map_be16_flatten _ cs)⟩
  · obtain ⟨t, ht, hperf⟩ := exec_performs hp (stepList_setPixels hwin cs) rfl
      (by rwa [asked_streamEvents, List.length_map])
    obtain ⟨u, hu, hperf'⟩ := exec_performs hp (stepList_setPixelsBuffered hwin cs) rfl
      (by rwa [asked_streamEvents])
    exact ⟨t, u, ht, hu, hperf.sameWire hperf' (map_be16_flatten _ cs)⟩

/-! `draw_image` (42_streaming R158, R159). -/

theorem chunks_length (bs : List Byte) : (chunks bs).length = (bs.length + 31) / 32 := by simp [chunks, chunkSize]

/-- Chunks that restart at each run lose nothing (30_encoding R99). -/
theorem flatMap_chunks_flatten (rows : List (List Byte)) : (rows.flatMap chunks).flatten = rows.flatten := by
  induction rows with
  | nil => rfl
  | cons row rows ih => rw [List.flatMap_cons, List.flatten_append, chunks_flatten, ih, List.flatten_cons]

theorem stepList_drawImage {s : State} {win : Window} (h : windowOf s 0 0 (s.width - 1) (s.height - 1) = some win)
    (bs : List Byte) :
    stepList s (.drawImage bs) =
      some (windowEvents s.params win ++ memoryWriteEvents s.params ++ dataRuns (chunks bs)) :=
  congrArg (Option.map _) h

/-- Settles O31: the step list is the window, memory-write and the chunks. -/
theorem drawImageSendsChunks : Obligations.DrawImageSendsChunks := by
  intro bs s win hp hwin hok
  obtain ⟨t, ht, hperf, hstage⟩ := exec_performs_sameStage hp (stepList_drawImage hwin bs) rfl nofun nofun nofun
    (by rwa [asked_streamEvents, chunks_length])
  have hlines := hperf.lines
  rw [replay_streamEvents] at hlines
  exact ⟨t, ht, hperf.completed, by rw [hlines], by rw [hlines], hperf.offsets, hperf.straps, hstage, hperf.ctrl⟩

/-! The rows of a region (30_encoding R98, 42_streaming R162). -/

theorem regionShapeOk_iff {x y w h : Word} :
    regionShapeOk x y w h = true ↔
      1 ≤ w.toNat ∧ 1 ≤ h.toNat ∧ x.toNat + w.toNat - 1 ≤ 65535 ∧ y.toNat + h.toNat - 1 ≤ 65535 := by
  simp [regionShapeOk, and_assoc]

/-- Reads under a guard, in order: all of them, or none where one guard fails. -/
theorem mapM_guarded {α β : Type} (p : α → Prop) [DecidablePred p] (f : α → β) (xs : List α) :
    (xs.mapM fun a => if p a then some (f a) else none) = if ∀ a ∈ xs, p a then some (xs.map f) else none := by
  induction xs with
  | nil => rfl
  | cons a xs ih =>
    rw [List.mapM_cons, ih]
    by_cases ha : p a
    · by_cases hxs : ∀ b ∈ xs, p b
      · rw [if_pos ha, if_pos hxs, if_pos (List.forall_mem_cons.2 ⟨ha, hxs⟩)]
        rfl
      · rw [if_pos ha, if_neg hxs, if_neg fun h => hxs (List.forall_mem_cons.1 h).2]
        rfl
    · rw [if_neg ha, if_neg fun h => ha (List.forall_mem_cons.1 h).1]
      rfl

/-- The bytes of a region's row `r` in the buffer. -/
def regionRow (width : Word) (buf : List Byte) (x y w : Word) (r : Nat) : List Byte :=
  (buf.drop (rowStart width x y r)).take (2 * w.toNat)

section
variable {width x y w h : Word} {buf : List Byte}

/-- Every row's bytes lie inside the buffer (42_streaming R162). -/
def RowsInBuffer (width : Word) (buf : List Byte) (x y w h : Word) : Prop :=
  ∀ r, r < h.toNat → rowStart width x y r + 2 * w.toNat ≤ buf.length

theorem regionRows_of_inBuffer (hin : RowsInBuffer width buf x y w h) :
    regionRows width buf x y w h = some ((List.range h.toNat).map (regionRow width buf x y w)) :=
  (mapM_guarded _ _ _).trans (if_pos fun r hr => hin r (List.mem_range.1 hr))

theorem regionRows_of_outside (hout : ¬ RowsInBuffer width buf x y w h) : regionRows width buf x y w h = none :=
  (mapM_guarded _ _ _).trans (if_neg fun hin => hout fun r hr => hin r (List.mem_range.2 hr))

theorem regionRow_length (hin : RowsInBuffer width buf x y w h) {r : Nat} (hr : r < h.toNat) :
    (regionRow width buf x y w r).length = 2 * w.toNat := by
  have := hin r hr
  rw [regionRow, List.length_take, List.length_drop]
  omega

/-- The chunks of a region's rows, which restart at each row (42_streaming R162). -/
def regionChunks (width : Word) (buf : List Byte) (x y w h : Word) : List (List Byte) :=
  ((List.range h.toNat).map (regionRow width buf x y w)).flatMap chunks

theorem regionChunks_length (hin : RowsInBuffer width buf x y w h) :
    (regionChunks width buf x y w h).length = h.toNat * ((2 * w.toNat + 31) / 32) := by
  have hrow : ∀ r ∈ List.range h.toNat, (chunks (regionRow width buf x y w r)).length = (2 * w.toNat + 31) / 32 :=
    fun r hr => by rw [chunks_length, regionRow_length hin (List.mem_range.1 hr)]
  rw [regionChunks, List.flatMap_map, List.length_flatMap, List.map_congr_left hrow]
  simp

theorem regionChunks_ne_nil (hshape : regionShapeOk x y w h = true) (hin : RowsInBuffer width buf x y w h) :
    regionChunks width buf x y w h ≠ [] := by
  obtain ⟨hw, hh, -, -⟩ := regionShapeOk_iff.1 hshape
  rw [← List.length_pos_iff, regionChunks_length hin]
  exact Nat.mul_pos hh (by omega)

theorem regionChunks_flatten :
    (regionChunks width buf x y w h).flatten = (List.range h.toNat).flatMap (regionRow width buf x y w) := by
  rw [regionChunks, flatMap_chunks_flatten, List.flatMap_def]

theorem stepList_showRegion {s : State} {win : Window} (hshape : regionShapeOk x y w h = true)
    (hin : RowsInBuffer s.width buf x y w h) (hwin : windowOf s x y (x + w - 1) (y + h - 1) = some win) :
    stepList s (.showRegion buf x y w h) =
      some (windowEvents s.params win ++ memoryWriteEvents s.params ++
        dataRuns (regionChunks s.width buf x y w h)) := by
  have hset : windowSet s (.showRegion buf x y w h) = some win := by rw [windowSet, if_neg (by simp [hshape]), hwin]
  rw [stepList, regionRows_of_inBuffer hin, hset, regionChunks]

end

/-! `show_region` (42_streaming R162 to R164). -/

/-- Settles O33: the step list is the window, memory-write and the rows' chunks, at least one. -/
theorem showRegionSendsRows : Obligations.ShowRegionSendsRows := by
  intro buf x y w h s win hp hw hh hx hy hin hwin hok
  have hshape := regionShapeOk_iff.2 ⟨hw, hh, hx, hy⟩
  obtain ⟨t, ht, hperf, hstage⟩ := exec_performs_sameStage hp (stepList_showRegion hshape hin hwin) rfl nofun nofun
    nofun (by rwa [asked_streamEvents, regionChunks_length hin])
  have hlines := hperf.lines
  rw [replay_streamEvents, if_neg (regionChunks_ne_nil hshape hin)] at hlines
  have hcomp := hperf.completed
  rw [regionChunks, dataRuns_flatMap, List.flatMap_map] at hcomp
  exact ⟨t, ht, hcomp, hlines, hperf.offsets, hperf.straps, hstage, hperf.ctrl⟩

/-- Settles O34: the shape is checked first, then every row. -/
theorem showRegionRefusals : Obligations.ShowRegionRefusals := by
  intro buf x y w h s hp
  dsimp only [exec, execShowRegion]
  rw [onPanel_of_hasPanel hp]
  refine ⟨fun hbad => if_pos ?_, fun hw hh hx hy hout => ?_⟩
  · rw [← Bool.not_eq_true, regionShapeOk_iff]
    obtain rfl | rfl | hx | hy := hbad
    · exact fun h => absurd h.1 (by decide)
    · exact fun h => absurd h.2.1 (by decide)
    · omega
    · omega
  · have hshape : regionShapeOk x y w h = true := regionShapeOk_iff.2 ⟨by bv_omega, by bv_omega, hx, hy⟩
    have hrows : regionRows s.width buf x y w h = none := by
      obtain ⟨r, hr, hlong⟩ := hout
      exact regionRows_of_outside fun hin => absurd (hin r hr) (by rw [rowStart]; omega)
    rw [if_neg (by simp [hshape]), hrows]

/-- Rows of `k` bytes that follow each other are the buffer up to the last of them. -/
theorem flatMap_consecutive {α : Type} (buf : List α) (k n : Nat) :
    ((List.range n).flatMap fun r => (buf.drop (r * k)).take k) = buf.take (n * k) := by
  induction n with
  | zero => simp
  | succ n ih => rw [List.range_succ, List.flatMap_append, ih, Nat.succ_mul, List.take_add]; simp

/-- The rows of the whole panel are the buffer (42_streaming R164). -/
theorem wholePanel_flatten {width height : Word} {buf : List Byte}
    (hlen : buf.length = width.toNat * height.toNat * 2) : (regionChunks width buf 0 0 width height).flatten = buf := by
  have hrow : regionRow width buf 0 0 width = fun r => (buf.drop (r * (2 * width.toNat))).take (2 * width.toNat) := by
    funext r
    rw [regionRow, rowStart, show ((0 : Word).toNat + r) * width.toNat + (0 : Word).toNat = r * width.toNat by simp,
      Nat.mul_assoc, Nat.mul_comm width.toNat 2]
  rw [regionChunks_flatten, hrow, flatMap_consecutive, List.take_of_length_le]
  rw [hlen]
  exact le_of_eq (by ring)

theorem wholePanel_rowsInBuffer {width height : Word} {buf : List Byte}
    (hlen : buf.length = width.toNat * height.toNat * 2) : RowsInBuffer width buf 0 0 width height := by
  intro r hr
  have hrows : (r + 1) * width.toNat ≤ height.toNat * width.toNat := Nat.mul_le_mul_right _ hr
  simp only [rowStart, BitVec.ofNat_eq_ofNat, BitVec.toNat_ofNat, Nat.zero_mod, Nat.zero_add, Nat.add_zero]
  rw [hlen]
  linarith

/-- Settles O37: both set the same window, and the rows' chunks and the buffer's are the same bytes. -/
theorem wholePanelRegionEqualsDrawImage : Obligations.WholePanelRegionEqualsDrawImage := by
  intro buf s win hp hlen hwin hregion hdraw
  obtain ⟨hwidth, hheight⟩ := hp
  have hshape : regionShapeOk 0 0 s.width s.height = true :=
    regionShapeOk_iff.2 ⟨by bv_omega, by bv_omega, by bv_omega, by bv_omega⟩
  have hin := wholePanel_rowsInBuffer hlen
  have hwin' : windowOf s 0 0 (0 + s.width - 1) (0 + s.height - 1) = some win := by simpa using hwin
  obtain ⟨t, ht, hperf⟩ := exec_performs ⟨hwidth, hheight⟩ (stepList_showRegion hshape hin hwin') rfl
    (by rwa [asked_streamEvents, regionChunks_length hin])
  obtain ⟨u, hu, hperf'⟩ := exec_performs ⟨hwidth, hheight⟩ (stepList_drawImage hwin buf) rfl
    (by rwa [asked_streamEvents, chunks_length])
  exact ⟨t, u, ht, hu, hperf.sameWire hperf' (by rw [wholePanel_flatten hlen, chunks_flatten])⟩

/-! `show` and `draw_image` (42_streaming R161). -/

/-- The window `show` spells by its literal bytes (42_streaming R160). -/
def showWindow : Window := { cols := { first := 0, last := showLast }, rows := { first := 0, last := showLast } }

/-- What the window commands put on the wire (41_window R132). -/
def windowOnWire (p : Params) (win : Window) : List WireByte :=
  codeOnWire p.codes.caset ++ dataOnWire (spanBytes win.cols) ++
    (codeOnWire p.codes.raset ++ dataOnWire (spanBytes win.rows))

theorem wireView_streamEvents (l : Lines) (p : Params) (win : Window) (rs : List (List Byte)) :
    wireView l (allOk (windowEvents p win ++ memoryWriteEvents p ++ dataRuns rs)) =
      windowOnWire p win ++ (codeOnWire p.codes.ramwr ++ dataOnWire rs.flatten) := by
  simp [windowEvents, memoryWriteEvents, wireView_append, wireView_commandTransaction, wireView_dataRuns, windowOnWire,
    dataOnWire]

theorem spanBytes_inj {a b : Span} : spanBytes a = spanBytes b ↔ a = b := by
  refine ⟨fun h => ?_, congrArg _⟩
  have hspan := congrArg asSpan h
  rw [spanBytes, spanBytes, asSpan_be16, asSpan_be16, Option.some_inj, Prod.mk.injEq] at hspan
  rwa [Span.mk.injEq]

theorem dataOnWire_inj {a b : List Byte} : dataOnWire a = dataOnWire b ↔ a = b :=
  List.map_inj_right fun _ _ h => congrArg WireByte.byte h

/-- The wire tells windows apart. -/
theorem windowOnWire_inj {p : Params} {a b : Window} : windowOnWire p a = windowOnWire p b ↔ a = b := by
  refine ⟨fun h => ?_, congrArg _⟩
  obtain ⟨hcols, hrows⟩ := List.append_inj h (by simp [dataOnWire, spanBytes])
  rw [List.append_cancel_left_eq, dataOnWire_inj, spanBytes_inj] at hcols hrows
  rw [Window.mk.injEq]
  exact ⟨hcols, hrows⟩

/-- The window of `draw_image` is that of `show` at offsets (0, 0) on a 240 by 240 panel only. -/
theorem drawImage_window_eq_showWindow_iff {s : State} {win : Window}
    (h : windowOf s 0 0 (s.width - 1) (s.height - 1) = some win) :
    showWindow = win ↔ s.offsetX = 0 ∧ s.offsetY = 0 ∧ s.width = 240 ∧ s.height = 240 := by
  rw [windowOf_eq_some h, showWindow, showLast, Window.mk.injEq, Span.mk.injEq, Span.mk.injEq]
  constructor
  · rintro ⟨⟨hx, hw⟩, hy, hh⟩
    exact ⟨by bv_omega, by bv_omega, by bv_omega, by bv_omega⟩
  · rintro ⟨hx, hy, hw, hh⟩
    rw [hx, hy, hw, hh]
    decide

/-- Settles O38: the two send the same bytes, so their wire views differ exactly where their windows do. -/
theorem showEqualsDrawImageOnlyAtOrigin : Obligations.ShowEqualsDrawImageOnlyAtOrigin := by
  intro buf s win hp hwin hshow hdraw
  have hes : stepList s (.showFrame buf) =
      some (windowEvents s.params showWindow ++ memoryWriteEvents s.params ++ dataRuns [buf]) := rfl
  obtain ⟨t, ht, hperf⟩ := exec_performs hp hes rfl (by simpa using hshow)
  obtain ⟨u, hu, hperf'⟩ := exec_performs hp (stepList_drawImage hwin buf) rfl
    (by rwa [asked_streamEvents, chunks_length])
  refine ⟨t, u, ht, hu, ?_⟩
  rw [hperf.completed.wireSince, hperf'.completed.wireSince, wireView_streamEvents, wireView_streamEvents,
    List.flatten_singleton, chunks_flatten, List.append_cancel_right_eq, windowOnWire_inj]
  exact drawImage_window_eq_showWindow_iff hwin

end Sys2Proof.Machine

/-! Proofs of the family `init`: the reset pulse, the initialization table in its order, and who waits. -/

namespace Sys2Proof.Machine

/-! The reset pulse (43_init R170, 30_encoding R87). -/

@[simp] theorem replay_resetPulse (l : Lines) : l.replay (allOk resetPulse) = { l with rst := .held .hi } := by
  simp [resetPulse, Lines.after]

@[simp] theorem wireView_resetPulse (l : Lines) : wireView l (allOk resetPulse) = [] := by simp [resetPulse, wireView]

/-- Settles O21: its step list is the pulse, after which it sets `ctrl`. -/
theorem hardResetPulses : Obligations.HardResetPulses := by
  intro s hp hok
  have h : eventsOf s .hardReset = some resetPulse := eventsOf_of_hasPanel hp .hardReset
  obtain ⟨t, ht, hcomp, hlines, hoff, hstraps⟩ := exec_completes h nofun hok
  exact ⟨t, ht, hcomp, by rw [hlines, replay_resetPulse], (exec_hardReset_ok ht hcomp.1).1, hoff, hstraps,
    exec_sameStage h nofun nofun nofun ht⟩

/-! The step list of `init` (43_init R173, R174). -/

/-- The events of the table's entries, one command transaction each, in order (43_init R173 (e)). -/
def tableEvents (es : List InitEntry) : List Event := es.flatMap entryEvents

/-- The step list of `init`: the pulse, the table, the last wait. -/
def initEvents (p : Params) : List Event := resetPulse ++ tableEvents (initEntries p) ++ [.dly tInit]

theorem eventsOf_init {s : State} (hp : HasPanel s) : eventsOf s .init = some (initEvents s.params) :=
  eventsOf_of_hasPanel hp .init

theorem tableEvents_onBus (es : List InitEntry) : ∀ e ∈ tableEvents es, e.onBus := by
  intro e he
  obtain ⟨x, -, he⟩ := List.mem_flatMap.1 he
  exact commandTransaction_onBus x.code x.params e he

theorem replay_tableEvents_rst (l : Lines) (es : List InitEntry) : (l.replay (allOk (tableEvents es))).rst = l.rst := by
  refine Lines.replay_unchanged Lines.rst l fun y hy m => ?_
  obtain ⟨e, he, rfl⟩ := List.mem_map.1 hy
  exact Event.onBus_rst (tableEvents_onBus es e he) .ok m

/-- The last entry decides the select line; the table leaves chip enable inactive and the reset line alone. -/
theorem replay_tableEvents_append_singleton (l : Lines) (es : List InitEntry) (x : InitEntry) :
    l.replay (allOk (tableEvents (es ++ [x]))) =
      { l with ce := .held .inact, sel := if x.params = [] then .held .cmd else .held .dat } := by
  have hlast : tableEvents (es ++ [x]) = tableEvents es ++ commandTransaction x.code x.params := by
    simp [tableEvents, entryEvents]
  rw [hlast, allOk_append, Lines.replay_append, replay_commandTransaction, replay_tableEvents_rst]

/-- The last entry is display-on (43_init R173 (b)). -/
theorem initEntries_eq_append_dispon (p : Params) :
    ∃ es, initEntries p = es ++ [{ code := p.codes.dispon, params := p.init.disponParams }] :=
  ⟨p.init.lead ++ [⟨p.codes.colmod, p.init.colmodParams⟩, ⟨p.codes.slpout, p.init.slpoutParams⟩],
    by simp [initEntries]⟩

theorem replay_initEvents (l : Lines) (p : Params) :
    l.replay (allOk (initEvents p)) =
      { rst := .held .hi, ce := .held .inact, sel := if p.init.disponParams = [] then .held .cmd else .held .dat } := by
  obtain ⟨es, hes⟩ := initEntries_eq_append_dispon p
  simp [initEvents, hes, replay_tableEvents_append_singleton]

/-- Settles O22: its step list is `initEvents`, after which it sets `ctrl`. -/
theorem initSendsTable : Obligations.InitSendsTable := by
  intro s hp hok
  have h := eventsOf_init hp
  obtain ⟨t, ht, hcomp, hlines, hoff, hstraps⟩ := exec_completes h nofun hok
  rw [replay_initEvents] at hlines
  exact ⟨t, ht, hcomp, by rw [hlines], by rw [hlines], by rw [hlines], (exec_init_ok ht hcomp.1).1, hoff, hstraps,
    exec_sameStage h nofun nofun nofun ht⟩

/-! The order of what is answered (60_exceptions R195). -/

/-- The `n`-th answered event is the list's `n`-th, and every one before it was answered ok. -/
theorem Answered.getElem? {es : List Event} {evs : List (Event × Answer)} (h : Answered es evs) {n : Nat} {e : Event}
    {a : Answer} (hn : evs[n]? = some (e, a)) : es[n]? = some e ∧ evs.take n = Machine.allOk (es.take n) := by
  induction h generalizing n with
  | nil => simp at hn
  | fail e' es =>
    cases n with
    | zero => cases hn; exact ⟨rfl, rfl⟩
    | succ n => simp at hn
  | ok e' _ ih =>
    cases n with
    | zero => cases hn; exact ⟨rfl, rfl⟩
    | succ n =>
      obtain ⟨he, htake⟩ := ih hn
      exact ⟨he, congrArg ((e', Answer.ok) :: ·) htake⟩

theorem initEvents_getElem?_of_lt (p : Params) {n : Nat} (hn : n < 6) : (initEvents p)[n]? = resetPulse[n]? := by
  rw [initEvents, List.append_assoc, List.getElem?_append_left hn]

theorem initEvents_take_six (p : Params) : (initEvents p).take 6 = resetPulse := by
  rw [initEvents, List.append_assoc]
  exact List.take_left' rfl

theorem bus_notMem_resetPulse (bs : List Byte) : .bus bs ∉ resetPulse := by simp [resetPulse]

theorem allOk_take (es : List Event) (n : Nat) : (allOk es).take n = allOk (es.take n) := List.map_take.symm

/-! The command codes of the table on the wire (30_encoding R88). -/

/-- The bytes of a wire view at the command level: the command codes. -/
def codesOnWire (ws : List WireByte) : List Byte := (ws.filter fun w => decide (w.sel = .held .cmd)).map (·.byte)

theorem codesOnWire_append (a b : List WireByte) : codesOnWire (a ++ b) = codesOnWire a ++ codesOnWire b := by
  simp [codesOnWire]

theorem codesOnWire_commandTransaction (l : Lines) (c : Byte) (ps : List Byte) :
    codesOnWire (wireView l (allOk (commandTransaction c ps))) = [c] := by
  rw [wireView_commandTransaction]
  simp [codesOnWire, codeOnWire, dataOnWire]

theorem codesOnWire_tableEvents (l : Lines) (es : List InitEntry) :
    codesOnWire (wireView l (allOk (tableEvents es))) = es.map (·.code) := by
  induction es generalizing l with
  | nil => rfl
  | cons e es ih =>
    rw [show tableEvents (e :: es) = commandTransaction e.code e.params ++ tableEvents es from rfl, allOk_append,
      wireView_append, codesOnWire_append, codesOnWire_commandTransaction, ih]
    rfl

theorem codesOnWire_initEvents (l : Lines) (p : Params) :
    codesOnWire (wireView l (allOk (initEvents p))) = (initEntries p).map (·.code) := by
  rw [initEvents, allOk_append, allOk_append, wireView_append, wireView_append, wireView_resetPulse, List.nil_append,
    codesOnWire_append, codesOnWire_tableEvents]
  exact List.append_nil _

theorem initEntries_codes (p : Params) :
    (initEntries p).map (·.code) = p.init.lead.map (·.code) ++ [p.codes.colmod, p.codes.slpout, p.codes.dispon] := by
  simp [initEntries]

/-! The order law of `init`, and what it skips (43_init R175, R178). -/

theorem exec_init_answered {s t : State} (ht : exec .init s = .next t) :
    Answered (initEvents s.params) (eventsSince s t) :=
  exec_answered (eventsOf_init (hasPanel_of_next ht)) ht

theorem eventsSince_init_of_ok {s t : State} (ht : exec .init s = .next t) (hok : t.rsp = some .ok) :
    eventsSince s t = allOk (initEvents s.params) :=
  eventsSince_of_ok (eventsOf_init (hasPanel_of_next ht)) ht hok

/-- Settles O23: the answered events are those of `initEvents`, in its order, which begins with the pulse. -/
theorem initOrder : Obligations.InitOrder := by
  intro s t ht
  have hans := exec_init_answered ht
  have hpulse : ∀ n e a, n < 6 → (eventsSince s t)[n]? = some (e, a) → resetPulse[n]? = some e :=
    fun n e a hlt hn => (initEvents_getElem?_of_lt s.params hlt).symm.trans (hans.getElem? hn).1
  refine ⟨hpulse, fun n bs a hn => ?_, fun hok => ⟨?_, ?_⟩⟩
  · have hlate : 6 ≤ n := by
      by_contra hlt
      exact bus_notMem_resetPulse bs (List.mem_of_getElem? (hpulse n _ a (not_le.1 hlt) hn))
    refine ⟨hlate, ?_⟩
    calc (eventsSince s t).take 6 = ((eventsSince s t).take n).take 6 := by rw [List.take_take, min_eq_left hlate]
      _ = allOk (((initEvents s.params).take n).take 6) := by rw [(hans.getElem? hn).2, allOk_take]
      _ = allOk resetPulse := by rw [List.take_take, min_eq_left hlate, initEvents_take_six]
  · rw [eventsSince_init_of_ok ht hok, initEvents, allOk_append]
    exact List.getLast?_concat
  · rw [wireSince, eventsSince_init_of_ok ht hok]
    exact ⟨_, (codesOnWire_initEvents s.lines s.params).trans (initEntries_codes s.params)⟩

/-- The 200 ms wait stands at the end of `initEvents` only. -/
theorem dly_tInit_notMem_dropLast (p : Params) : .dly tInit ∉ (initEvents p).dropLast := by
  rw [initEvents, List.dropLast_concat, List.mem_append]
  rintro (hpulse | htable)
  · exact absurd hpulse (by decide)
  · exact tableEvents_onBus _ _ htable

/-- Settles O24: what fails is no delay, and only the last event of `initEvents` is the 200 ms wait. -/
theorem failedInitSkipsFinalWait : Obligations.FailedInitSkipsFinalWait := by
  intro s t ht hf
  refine ⟨(exec_failure ht hf).1, fun a hmem => ?_⟩
  obtain ⟨-, -, -, -, ⟨hok, -⟩ | ⟨-, -, -, pre, e, post, hes, htr, -, -, -, -, hasks⟩⟩ :=
    exec_next (eventsOf_init (hasPanel_of_next ht)) nofun ht
  · rw [hok] at hf; cases hf
  · rw [eventsSince, htr, List.drop_left, List.mem_append] at hmem
    rcases hmem with hpre | hlast
    · obtain ⟨e', he', heq⟩ := List.mem_map.1 hpre
      cases heq
      refine dly_tInit_notMem_dropLast s.params ?_
      rw [hes, List.dropLast_append_cons]
      exact List.mem_append_left _ he'
    · cases List.mem_singleton.1 hlast
      cases hasks

/-! Who waits and who drives the reset line (43_init R181). -/

theorem Event.onBus_ne_dly {e : Event} (h : e.onBus) (k : Byte) : e ≠ .dly k := by rintro rfl; exact h
theorem Event.onBus_ne_rst {e : Event} (h : e.onBus) (l : RstLevel) : e ≠ .rst l := by rintro rfl; exact h

/-- Settles O25: every event of another operation's step list is on the select line, chip enable or the bus. -/
theorem onlyResetOperationsDelayOrDriveReset : Obligations.OnlyResetOperationsDelayOrDriveReset := by
  intro i s t h1 h2 ht e a he
  obtain ⟨es, h⟩ := eventsOf_of_next ht
  obtain ⟨evs, htr, -, hmem⟩ := exec_events h ht
  rw [eventsSince, htr, List.drop_left] at he
  have hbus := stepList_onBus (eventsOf_eq_some.1 h).2 h1 h2 e (hmem _ he)
  exact ⟨Event.onBus_ne_dly hbus, Event.onBus_ne_rst hbus⟩

end Sys2Proof.Machine

/-! Proofs of the family `exceptions`: how a run ends, what of its step list it has emitted by then, and which requests are
refused. -/

namespace Sys2Proof.Machine

/-! What a run has emitted when it responds (60_exceptions R195 to R197). -/

/-- Settles O42: `exec_next` gives both ends of a run, and the trace of each says which events were recorded. -/
theorem everyRunFollowsItsStepList : Obligations.EveryRunFollowsItsStepList := by
  intro i s t es h ht
  rcases setOffset_or_not ht with ⟨dx, dy, rfl, rfl⟩ | hi
  · cases (eventsOf_eq_some.1 h).2
    simp [eventsSince]
  · obtain ⟨-, -, hseq, -, ⟨hrsp, htr, hlines, -⟩ | ⟨hrsp, -, -, pre, e, post, hes, htr, hlines, -⟩⟩ := exec_next h hi ht
    · have hsince : eventsSince s t = allOk es := eventsSince_of_ok h ht hrsp
      exact ⟨hseq, hsince ▸ hlines, hsince ▸ htr, .inl ⟨hrsp, hsince⟩⟩
    · have hsince : eventsSince s t = allOk pre ++ [(e, .fail)] := by rw [eventsSince, htr, List.drop_left]
      exact ⟨hseq, hsince ▸ hlines, hsince ▸ htr, .inr ⟨hrsp, pre, e, post, hes, hsince⟩⟩

/-! The answers decide the end (60_exceptions R195, R212, 70_reset R245). -/

/-- The event of a step list that gets the `n`-th reply (00_scope R13). -/
theorem exists_asking {es : List Event} {n : Nat} (hn : n < asked es) :
    ∃ pre e post, es = pre ++ e :: post ∧ asked pre = n ∧ asked [e] = 1 := by
  induction es generalizing n with
  | nil => exact absurd hn (Nat.not_lt_zero n)
  | cons e es ih =>
    rw [← List.singleton_append, asked_append] at hn
    have hstep : asked [e] = 0 ∨ asked [e] = 1 := by cases e <;> simp
    by_cases hfirst : n = 0 ∧ asked [e] = 1
    · exact ⟨[], e, es, rfl, hfirst.1.symm, hfirst.2⟩
    · obtain ⟨pre, e', post, rfl, hpre, he'⟩ := ih (n := n - asked [e]) (by omega)
      refine ⟨e :: pre, e', post, rfl, ?_, he'⟩
      rw [← List.singleton_append, asked_append, hpre]
      omega

/-- A run whose replies are ok before the `n`-th, and not ok there, stops at the event that gets it. -/
theorem exists_stopsAt {es : List Event} {s : State} {n : Nat} {r : Reply} (hn : n < asked es)
    (hbefore : s.answersOk n = true) (hr : s.replyAt n = r) (hnot : r ≠ .answered .ok) :
    ∃ pre e, StopsAt es s pre e r := by
  obtain ⟨pre, e, post, hes, rfl, he⟩ := exists_asking hn
  exact ⟨pre, e, ⟨post, hes⟩, he, hbefore, hr, hnot⟩

/-- A run whose first event not ok is never answered does not respond (60_exceptions R212). -/
theorem exec_hangs {i : Instr} {s : State} {es pre : List Event} {e : Event} (h : eventsOf s i = some es)
    (hi : ∀ dx dy, i ≠ .setOffset dx dy) (hstop : StopsAt es s pre e .silent) : exec i s = .fault .unanswered := by
  obtain ⟨sel, body, hrun⟩ := exec_isRun h hi
  have hobeys := hrun.obeys
  rw [hrun.eq, runOp_fault_iff (eventsOf_eq_some.1 h).1]
  refine ⟨?_, rfl⟩
  cases hu : body (s.start sel) with
  | done u =>
    rw [hu] at hobeys
    exact absurd hobeys.done_answersOk hstop.not_all_ok
  | failed u =>
    rw [hu] at hobeys
    obtain ⟨pre', e', hfail, -⟩ := hobeys.failed_stopsAt
    obtain ⟨-, -, hr⟩ := hstop.unique hfail
    cases hr
  | hung => rfl

/-- An operation with a step list, all answered ok, responds Ok. -/
theorem exec_responds_ok {i : Instr} {s : State} {es : List Event} (h : eventsOf s i = some es)
    (hok : s.answersOk (asked es) = true) : ∃ t, exec i s = .next t ∧ t.rsp = some .ok := by
  obtain ⟨t, ht⟩ := exec_responds h hok
  rcases setOffset_or_not ht with ⟨dx, dy, -, rfl⟩ | hi
  · exact ⟨_, ht, rfl⟩
  · obtain ⟨u, hu, hcomp, -⟩ := exec_completes h hi hok
    exact ⟨u, hu, hcomp.1⟩

/-- The step list of `set_offset` is empty (41_window R130). -/
theorem ne_setOffset_of_asked {i : Instr} {s : State} {es : List Event} (h : eventsOf s i = some es)
    (hasked : 0 < asked es) (dx dy : Word) : i ≠ .setOffset dx dy := by
  rintro rfl
  cases (eventsOf_eq_some.1 h).2
  exact absurd hasked (Nat.not_lt_zero 0)

/-- Settles O43: the first reply that is not ok singles out the event at which the run stops. -/
theorem answersDecideTheEnd : Obligations.AnswersDecideTheEnd := by
  intro i s es h
  refine ⟨exec_responds_ok h, fun n hn hbefore => ⟨fun hfail => ?_, fun hsilent => ?_⟩⟩
  · obtain ⟨pre, e, hstop⟩ := exists_stopsAt hn hbefore hfail nofun
    obtain ⟨t, ht, hfails⟩ := exec_fails h (ne_setOffset_of_asked h (by omega)) hstop
    exact ⟨t, ht, hfails.response⟩
  · obtain ⟨pre, e, hstop⟩ := exists_stopsAt hn hbefore hsilent nofun
    exact exec_hangs h (ne_setOffset_of_asked h (by omega)) hstop

/-! Which requests are refused (60_exceptions R192, R193). -/

/-- A request is refused if and only if it has no step list. -/
theorem exec_refused_iff {i : Instr} {s : State} : (∃ r, exec i s = .refused r) ↔ eventsOf s i = none := by
  refine ⟨fun ⟨r, hr⟩ => Option.eq_none_iff_forall_ne_some.2 fun es h => ?_, exec_refused⟩
  have hp : HasPanel s := (eventsOf_eq_some.1 h).1
  by_cases hi : ∃ dx dy, i = .setOffset dx dy
  · obtain ⟨dx, dy, rfl⟩ := hi
    rw [exec_setOffset dx dy hp] at hr
    cases hr
  · obtain ⟨sel, body, hrun⟩ := exec_isRun h fun dx dy hset => hi ⟨dx, dy, hset⟩
    rw [hrun.eq] at hr
    exact runOp_ne_refused hp hr

/-- The operation names this window in its operands, before the offset is added (41_window R132, 42_streaming R165). -/
def NamesWindow (i : Instr) (sx sy ex ey : Word) : Prop :=
  i = .setAddressWindow sx sy ex ey ∨ (∃ c, i = .setPixel sx sy c ∧ sx = ex ∧ sy = ey) ∨
    (∃ cs, i = .setPixels sx sy ex ey cs) ∨ ∃ cs, i = .setPixelsBuffered sx sy ex ey cs

/-- An operation that names its window has a step list if and only if no sum overflows (41_window R133). -/
theorem NamesWindow.stepList_eq_none_iff {i : Instr} {sx sy ex ey : Word} (h : NamesWindow i sx sy ex ey) (s : State) :
    stepList s i = none ↔ windowOf s sx sy ex ey = none := by
  obtain rfl | ⟨c, rfl, rfl, rfl⟩ | ⟨cs, rfl⟩ | ⟨cs, rfl⟩ := h <;> exact Option.map_eq_none_iff

theorem stepList_drawImage_eq_none_iff {bs : List Byte} {s : State} :
    stepList s (.drawImage bs) = none ↔ windowOf s 0 0 (s.width - 1) (s.height - 1) = none :=
  Option.map_eq_none_iff

theorem windowSet_showRegion_eq_none_iff {bs : List Byte} {x y w h : Word} {s : State} :
    windowSet s (.showRegion bs x y w h) = none ↔
      regionShapeOk x y w h = false ∨ windowOf s x y (x + w - 1) (y + h - 1) = none := by
  rw [windowSet]
  by_cases hshape : regionShapeOk x y w h = false
  · rw [if_pos hshape]
    exact iff_of_true rfl (.inl hshape)
  · rw [if_neg hshape, or_iff_right hshape]

/-- `show_region` has a step list if and only if every `require` line of 42_streaming R162 holds and no sum overflows. -/
theorem stepList_showRegion_eq_none_iff {bs : List Byte} {x y w h : Word} {s : State} :
    stepList s (.showRegion bs x y w h) = none ↔
      regionShapeOk x y w h = false ∨ regionRows s.width bs x y w h = none ∨
        windowOf s x y (x + w - 1) (y + h - 1) = none := by
  rw [or_left_comm, ← windowSet_showRegion_eq_none_iff (bs := bs), stepList]
  cases regionRows s.width bs x y w h with
  | none => simp
  | some rows => cases windowSet s (.showRegion bs x y w h) <;> simp

/-- Which operations have no step list, panel or not (60_exceptions R193). -/
theorem stepList_eq_none_iff {i : Instr} {s : State} :
    stepList s i = none ↔
      (∃ sx sy ex ey, windowOf s sx sy ex ey = none ∧ NamesWindow i sx sy ex ey) ∨
        (∃ bs, i = .drawImage bs ∧ windowOf s 0 0 (s.width - 1) (s.height - 1) = none) ∨
        ∃ bs x y w h, i = .showRegion bs x y w h ∧
          (regionShapeOk x y w h = false ∨ regionRows s.width bs x y w h = none ∨
            windowOf s x y (x + w - 1) (y + h - 1) = none) := by
  constructor
  · intro hnone
    have hnamed : ∀ {sx sy ex ey}, NamesWindow i sx sy ex ey →
        ∃ sx sy ex ey, windowOf s sx sy ex ey = none ∧ NamesWindow i sx sy ex ey :=
      fun hn => ⟨_, _, _, _, (hn.stepList_eq_none_iff s).1 hnone, hn⟩
    cases i with
    | setAddressWindow sx sy ex ey => exact .inl (hnamed (.inl rfl))
    | setPixel x y c => exact .inl (hnamed (.inr (.inl ⟨c, rfl, rfl, rfl⟩)))
    | setPixels sx sy ex ey cs => exact .inl (hnamed (.inr (.inr (.inl ⟨cs, rfl⟩))))
    | setPixelsBuffered sx sy ex ey cs => exact .inl (hnamed (.inr (.inr (.inr ⟨cs, rfl⟩))))
    | drawImage bs => exact .inr (.inl ⟨bs, rfl, stepList_drawImage_eq_none_iff.1 hnone⟩)
    | showRegion bs x y w h =>
      exact .inr (.inr ⟨bs, x, y, w, h, rfl, stepList_showRegion_eq_none_iff.1 hnone⟩)
    | _ => cases hnone
  · rintro (⟨sx, sy, ex, ey, hwin, hn⟩ | ⟨bs, rfl, hwin⟩ | ⟨bs, x, y, w, h, rfl, hbad⟩)
    · exact (hn.stepList_eq_none_iff s).2 hwin
    · exact stepList_drawImage_eq_none_iff.2 hwin
    · exact stepList_showRegion_eq_none_iff.2 hbad

/-- Settles O44: refused is having no step list, and `stepList` names each operation that has none. -/
theorem refusedExactlyWhereTheRulesSay : Obligations.RefusedExactlyWhereTheRulesSay := by
  refine ⟨fun _ _ => exec_refused_iff, fun i _ hz => exec_of_zero hz i, fun i s hp => ?_⟩
  simp only [← windowOf_eq_none_iff]
  rw [exec_refused_iff, eventsOf_of_hasPanel hp]
  exact stepList_eq_none_iff

end Sys2Proof.Machine

namespace Sys2Proof.Machine

/-! The steps that run no operation (30_encoding R83, 70_reset R220, R238). -/

theorem fetch_of_reqs_nil {s : State} (h : s.reqs = []) : fetch s = .waiting := by simp [fetch, h]

theorem fetch_of_decode_error {s : State} {r : RawRequest} {rest : List RawRequest} {e : DecodeError}
    (hreqs : s.reqs = r :: rest) (hdec : decode s.params r = .error e) : fetch s = .bad e := by
  simp [fetch, hreqs, hdec]

theorem step_of_fetch_waiting {s : State} (hseq : s.seq = .idle) (hf : fetch s = .waiting) : step s = .next s := by
  simp only [step, hseq, hf]

theorem step_of_fetch_bad {s : State} {e : DecodeError} (hseq : s.seq = .idle) (hf : fetch s = .bad e) :
    step s = .refused (.badRequest e) := by
  simp only [step, hseq, hf]

theorem step_of_running {s : State} {sel : Byte} {n : Nat} (h : s.seq = .running sel n) : step s = .refused .busy := by
  simp only [step, h]

/-- Settles O5: an idle block acts on what it fetches, and a busy one fetches nothing. -/
theorem stepWaitsOrRefuses : Obligations.StepWaitsOrRefuses :=
  ⟨fun _ hseq hreqs => step_of_fetch_waiting hseq (fetch_of_reqs_nil hreqs),
    fun _ _ _ _ hseq hreqs hdec => step_of_fetch_bad hseq (fetch_of_decode_error hreqs hdec),
    fun _ _ _ => step_of_running⟩

end Sys2Proof.Machine
